-- ==== Sys2Proof/Word.lean ====
section
/-! DEFINITION. The widths the spec names (00_scope.md, 10_state.md R21): each is a plain bit vector. -/

namespace Sys2Proof

/-- One byte of a frame or of a bus write. -/
abbrev Byte := BitVec 8

/-- One host register word, `REG_W` = 32 bits (00_scope.md, parameter table). -/
abbrev Word := BitVec 32

/-- A word index of the host register map, `REG_AW` = 4 bits (10_state.md R39). -/
abbrev RegIdx := BitVec 4

/-- The transport's error code, `ERR_W` = 16 bits (00_scope.md, parameter table). -/
abbrev ErrCode := BitVec 16

/-- A raw frame of six bytes, `b0` in bits 7:0 (10_state.md R37). -/
abbrev Frame := BitVec 48

/-- A HOSTACC word: one host register-port access (30_encoding.md R91). -/
abbrev HostAccWord := BitVec 37

/-- A BUSREQ word: one bus request as the block drives it (30_encoding.md R93). -/
abbrev BusReqWord := BitVec 20

/-- A BUSRSP word: one bus completion as the transport drives it (30_encoding.md R94). -/
abbrev BusRspWord := BitVec 65

end Sys2Proof
end

