-- ==== Sys2Proof/Syntax.lean ====
section
/-! DEFINITION. The instructions of the block: one constructor per row of spec/opcode_table.json (00_scope.md R3),
with every field the row's encoding carries. -/

namespace Sys2Proof

/-- The block's instructions. `wdata` is the HOSTACC field WDATA, `addr` its field ADDR where the row covers more
than one word, `op` the CMD8 field OPCODE where the row covers more than one opcode. -/
inductive Instr where
  -- HOSTACC reads (40_register_access.md R120)
  | rdCmd (wdata : Word)
  | rdStatus (wdata : Word)
  | rdErrcode (wdata : Word)
  | rdFrame0 (wdata : Word)
  | rdFrame1 (wdata : Word)
  | rdJoy (wdata : Word)
  | rdAcc (wdata : Word)
  | rdBtn (wdata : Word)
  | rdUnmapped (addr : RegIdx) (wdata : Word)
  -- HOSTACC writes (40_register_access.md R121, R128)
  | wrCmd (wdata : Word)
  | wrRo1 (wdata : Word)
  | wrRo2to3 (addr : RegIdx) (wdata : Word)
  | wrRo4to7 (addr : RegIdx) (wdata : Word)
  | wrUnmapped (addr : RegIdx) (wdata : Word)
  -- CMD8 commands (40_register_access.md R123, R125; 41_handshake.md R140; 42_frame_reader.md R160)
  | nop
  | handshake
  | readFrame
  | reserved03
  | reserved04to07 (op : Byte)
  | reserved08to0F (op : Byte)
  | reserved10to1F (op : Byte)
  | reserved20to3F (op : Byte)
  | reserved40to7F (op : Byte)
  | reserved80toFF (op : Byte)
  -- BUSREQ transactions (41_handshake.md R144, R145; 42_frame_reader.md R168, R169)
  | sendHs1
  | sendHs2
  | sendAddr
  | recvFrame
  deriving DecidableEq, Repr

/-- The three formats of the opcode table (30_encoding.md R90). -/
inductive Format where
  | hostAcc
  | cmd8
  | busReq
  deriving DecidableEq, Repr

/-- A bus completion as the transport drives it: the fields of BUSRSP (30_encoding.md R94). -/
structure BusRsp where
  ok : Bool
  err : ErrCode
  rdata : Frame
  deriving DecidableEq, Repr

/-- The format a row of the table is encoded in. -/
def Instr.format : Instr → Format
  | .rdCmd _ | .rdStatus _ | .rdErrcode _ | .rdFrame0 _ | .rdFrame1 _ | .rdJoy _ | .rdAcc _ | .rdBtn _
  | .rdUnmapped _ _ | .wrCmd _ | .wrRo1 _ | .wrRo2to3 _ _ | .wrRo4to7 _ _ | .wrUnmapped _ _ => .hostAcc
  | .nop | .handshake | .readFrame | .reserved03 | .reserved04to07 _ | .reserved08to0F _ | .reserved10to1F _
  | .reserved20to3F _ | .reserved40to7F _ | .reserved80toFF _ => .cmd8
  | .sendHs1 | .sendHs2 | .sendAddr | .recvFrame => .busReq

end Sys2Proof
end

