-- ==== Sys2Proof/WellFormed.lean ====
section
/-! DEFINITION. The check an instruction's operands pass: an operand lies in the range its row of
spec/opcode_table.json covers. WDATA is unconstrained: every one of its values is an access (30_encoding.md R97). -/

namespace Sys2Proof

/-- The operand lies in the range of its row (10_state.md R39 for ADDR, 30_encoding.md R92 for OPCODE). -/
def Instr.wellFormed : Instr → Bool
  | .rdUnmapped addr _ => decide (8#4 ≤ addr)
  | .wrRo2to3 addr _ => decide (2#4 ≤ addr ∧ addr ≤ 3#4)
  | .wrRo4to7 addr _ => decide (4#4 ≤ addr ∧ addr ≤ 7#4)
  | .wrUnmapped addr _ => decide (8#4 ≤ addr)
  | .reserved04to07 op => decide (0x04#8 ≤ op ∧ op ≤ 0x07#8)
  | .reserved08to0F op => decide (0x08#8 ≤ op ∧ op ≤ 0x0F#8)
  | .reserved10to1F op => decide (0x10#8 ≤ op ∧ op ≤ 0x1F#8)
  | .reserved20to3F op => decide (0x20#8 ≤ op ∧ op ≤ 0x3F#8)
  | .reserved40to7F op => decide (0x40#8 ≤ op ∧ op ≤ 0x7F#8)
  | .reserved80toFF op => decide (0x80#8 ≤ op)
  | .rdCmd _ | .rdStatus _ | .rdErrcode _ | .rdFrame0 _ | .rdFrame1 _ | .rdJoy _ | .rdAcc _ | .rdBtn _
  | .wrCmd _ | .wrRo1 _ | .nop | .handshake | .readFrame | .reserved03
  | .sendHs1 | .sendHs2 | .sendAddr | .recvFrame => true

end Sys2Proof
end

