-- ==== Sys2Proof/Decode.lean ====
section
/-! DEFINITION. The decoder of the three instruction formats (30_encoding.md R90 to R97, R101), the encoder written
from the same tables, the table's rows, and the BUSRSP words (R94). Every word is read as one number whose bit 0 is
its least significant bit (00_scope.md R13). -/

namespace Sys2Proof

/-- The fixed length of a format in bits (30_encoding.md R90). -/
def Format.width : Format → Nat
  | .hostAcc => 37
  | .cmd8 => 8
  | .busReq => 20

/-- The length of a format in whole bytes. -/
def Format.bytes : Format → Nat
  | .hostAcc => 5
  | .cmd8 => 1
  | .busReq => 3

/-- Why a word is no instruction. -/
inductive Reject where
  /-- The word has a bit set above the format's length: the format has no longer form (30_encoding.md R102). -/
  | tooWide (f : Format)
  /-- The byte string is not as long as the format (30_encoding.md R90). -/
  | wrongLength (f : Format)
  /-- A BUSREQ word that is none of the four the block drives (30_encoding.md R101). -/
  | neverDriven
  deriving DecidableEq, Repr

/-! ## HOSTACC -/

/-- WE: bit 36 (30_encoding.md R91). -/
def hostAccWe (w : HostAccWord) : Bool := w.getLsbD 36

/-- ADDR: bits 35:32 (30_encoding.md R91). -/
def hostAccAddr (w : HostAccWord) : RegIdx := w.extractLsb' 32 4

/-- WDATA: bits 31:0 (30_encoding.md R91). -/
def hostAccWdata (w : HostAccWord) : Word := w.extractLsb' 0 32

/-- `{WE, ADDR, WDATA}` (30_encoding.md R91). -/
def hostAccWord (we : Bool) (addr : RegIdx) (wdata : Word) : HostAccWord :=
  BitVec.ofBool we ++ addr ++ wdata

/-- A read of word `addr` (30_encoding.md R97, 10_state.md R39). -/
def decodeRead (addr : RegIdx) (wdata : Word) : Instr :=
  match addr with
  | 0#4 => .rdCmd wdata
  | 1#4 => .rdStatus wdata
  | 2#4 => .rdErrcode wdata
  | 3#4 => .rdFrame0 wdata
  | 4#4 => .rdFrame1 wdata
  | 5#4 => .rdJoy wdata
  | 6#4 => .rdAcc wdata
  | 7#4 => .rdBtn wdata
  | a => .rdUnmapped a wdata

/-- A write of word `addr` (30_encoding.md R97, 10_state.md R39). -/
def decodeWrite (addr : RegIdx) (wdata : Word) : Instr :=
  if addr = 0#4 then .wrCmd wdata
  else if addr = 1#4 then .wrRo1 wdata
  else if addr < 4#4 then .wrRo2to3 addr wdata
  else if addr < 8#4 then .wrRo4to7 addr wdata
  else .wrUnmapped addr wdata

/-- Every one of the 2^37 HOSTACC words is an access (30_encoding.md R97). -/
def decodeHostAcc (w : HostAccWord) : Instr :=
  if hostAccWe w then decodeWrite (hostAccAddr w) (hostAccWdata w)
  else decodeRead (hostAccAddr w) (hostAccWdata w)

/-! ## CMD8 -/

/-- OPCODE of a CMD write: `WDATA[7:0]`, the bits above it ignored (30_encoding.md R92). -/
def opcodeOf (wdata : Word) : Byte := wdata.extractLsb' 0 8

/-- Every one of the 256 opcodes is a command or reserved (30_encoding.md R92, R98). -/
def decodeCmd8 (op : Byte) : Instr :=
  if op = 0x00#8 then .nop
  else if op = 0x01#8 then .handshake
  else if op = 0x02#8 then .readFrame
  else if op = 0x03#8 then .reserved03
  else if op < 0x08#8 then .reserved04to07 op
  else if op < 0x10#8 then .reserved08to0F op
  else if op < 0x20#8 then .reserved10to1F op
  else if op < 0x40#8 then .reserved20to3F op
  else if op < 0x80#8 then .reserved40to7F op
  else .reserved80toFF op

/-! ## BUSREQ -/

/-- `{OP, LEN, WDATA}` (30_encoding.md R93). -/
def busReqWord (op : Bool) (len : BitVec 3) (wdata : BitVec 16) : BusReqWord :=
  BitVec.ofBool op ++ len ++ wdata

/-- The four words the block drives (30_encoding.md R93), and no other (R101). -/
def decodeBusReq (w : BusReqWord) : Except Reject Instr :=
  if w = busReqWord false 2#3 0x55F0#16 then .ok .sendHs1
  else if w = busReqWord false 2#3 0x00FB#16 then .ok .sendHs2
  else if w = busReqWord false 1#3 0x0000#16 then .ok .sendAddr
  else if w = busReqWord true 6#3 0x0000#16 then .ok .recvFrame
  else .error .neverDriven

/-! ## Any word and any bytes -/

/-- Decoding of a word of a format: total, rejecting by name. -/
def decode (f : Format) (w : Nat) : Except Reject Instr :=
  if w < 2 ^ f.width then
    match f with
    | .hostAcc => .ok (decodeHostAcc (BitVec.ofNat 37 w))
    | .cmd8 => .ok (decodeCmd8 (BitVec.ofNat 8 w))
    | .busReq => decodeBusReq (BitVec.ofNat 20 w)
  else .error (.tooWide f)

/-- A word as bytes, the byte of bits 7:0 first. The spec stores no instruction, so the order is the model's
(DESIGN CHOICE, log 15). -/
def toBytes : Nat → Nat → List Byte
  | 0, _ => []
  | n + 1, w => BitVec.ofNat 8 w :: toBytes n (w / 256)

/-- The word a byte string holds, the byte of bits 7:0 first (log 15). -/
def ofBytes : List Byte → Nat
  | [] => 0
  | b :: bs => b.toNat + 256 * ofBytes bs

/-- Decoding of any byte string in a format. -/
def decodeBytes (f : Format) (bs : List Byte) : Except Reject Instr :=
  if bs.length = f.bytes then decode f (ofBytes bs) else .error (.wrongLength f)

/-- The format whose words have `nbits` bits, counted in whole bytes: CMD8 has 8, BUSREQ 24, HOSTACC 40 (log 15). -/
def formatOfBits (nbits : Nat) : Option Format :=
  if nbits ≤ 8 then some .cmd8
  else if nbits ≤ 24 then some .busReq
  else if nbits ≤ 40 then some .hostAcc
  else none

/-- The instruction the decoder reads from a word of the opcode table. -/
def decodeTableWord (nbits w : Nat) : Option Instr :=
  match formatOfBits nbits with
  | none => none
  | some f =>
    if w < 256 ^ f.bytes then
      match decodeBytes f (toBytes f.bytes w) with
      | .ok i => some i
      | .error _ => none
    else none

/-! ## The encoder -/

/-- The word of an instruction, in its format (30_encoding.md R91, R92, R93). -/
def encode : Instr → Nat
  | .rdCmd d => (hostAccWord false 0#4 d).toNat
  | .rdStatus d => (hostAccWord false 1#4 d).toNat
  | .rdErrcode d => (hostAccWord false 2#4 d).toNat
  | .rdFrame0 d => (hostAccWord false 3#4 d).toNat
  | .rdFrame1 d => (hostAccWord false 4#4 d).toNat
  | .rdJoy d => (hostAccWord false 5#4 d).toNat
  | .rdAcc d => (hostAccWord false 6#4 d).toNat
  | .rdBtn d => (hostAccWord false 7#4 d).toNat
  | .rdUnmapped a d => (hostAccWord false a d).toNat
  | .wrCmd d => (hostAccWord true 0#4 d).toNat
  | .wrRo1 d => (hostAccWord true 1#4 d).toNat
  | .wrRo2to3 a d => (hostAccWord true a d).toNat
  | .wrRo4to7 a d => (hostAccWord true a d).toNat
  | .wrUnmapped a d => (hostAccWord true a d).toNat
  | .nop => 0x00
  | .handshake => 0x01
  | .readFrame => 0x02
  | .reserved03 => 0x03
  | .reserved04to07 op | .reserved08to0F op | .reserved10to1F op | .reserved20to3F op
  | .reserved40to7F op | .reserved80toFF op => op.toNat
  | .sendHs1 => (busReqWord false 2#3 0x55F0#16).toNat
  | .sendHs2 => (busReqWord false 2#3 0x00FB#16).toNat
  | .sendAddr => (busReqWord false 1#3 0x0000#16).toNat
  | .recvFrame => (busReqWord true 6#3 0x0000#16).toNat

/-- The bytes of an instruction's word. -/
def encodeBytes (i : Instr) : List Byte := toBytes i.format.bytes (encode i)

/-! ## The rows of spec/opcode_table.json -/

/-- One row of the table: a word `w` of the format is of this row when `w &&& mask = pattern`. -/
structure Row where
  mnemonic : String
  format : Format
  pattern : Nat
  mask : Nat
  deriving DecidableEq, Repr

/-- The row of the table an instruction stands for. -/
def Instr.row : Instr → Row
  | .rdCmd _ => ⟨"RD_CMD", .hostAcc, 0x0000000000, 0x1F00000000⟩
  | .rdStatus _ => ⟨"RD_STATUS", .hostAcc, 0x0100000000, 0x1F00000000⟩
  | .rdErrcode _ => ⟨"RD_ERRCODE", .hostAcc, 0x0200000000, 0x1F00000000⟩
  | .rdFrame0 _ => ⟨"RD_FRAME0", .hostAcc, 0x0300000000, 0x1F00000000⟩
  | .rdFrame1 _ => ⟨"RD_FRAME1", .hostAcc, 0x0400000000, 0x1F00000000⟩
  | .rdJoy _ => ⟨"RD_JOY", .hostAcc, 0x0500000000, 0x1F00000000⟩
  | .rdAcc _ => ⟨"RD_ACC", .hostAcc, 0x0600000000, 0x1F00000000⟩
  | .rdBtn _ => ⟨"RD_BTN", .hostAcc, 0x0700000000, 0x1F00000000⟩
  | .rdUnmapped _ _ => ⟨"RD_UNMAPPED", .hostAcc, 0x0800000000, 0x1800000000⟩
  | .wrCmd _ => ⟨"WR_CMD", .hostAcc, 0x1000000000, 0x1F00000000⟩
  | .wrRo1 _ => ⟨"WR_RO_1", .hostAcc, 0x1100000000, 0x1F00000000⟩
  | .wrRo2to3 _ _ => ⟨"WR_RO_2_3", .hostAcc, 0x1200000000, 0x1E00000000⟩
  | .wrRo4to7 _ _ => ⟨"WR_RO_4_7", .hostAcc, 0x1400000000, 0x1C00000000⟩
  | .wrUnmapped _ _ => ⟨"WR_UNMAPPED", .hostAcc, 0x1800000000, 0x1800000000⟩
  | .nop => ⟨"NOP", .cmd8, 0x00, 0xFF⟩
  | .handshake => ⟨"HANDSHAKE", .cmd8, 0x01, 0xFF⟩
  | .readFrame => ⟨"READ_FRAME", .cmd8, 0x02, 0xFF⟩
  | .reserved03 => ⟨"RESERVED_03", .cmd8, 0x03, 0xFF⟩
  | .reserved04to07 _ => ⟨"RESERVED_04_07", .cmd8, 0x04, 0xFC⟩
  | .reserved08to0F _ => ⟨"RESERVED_08_0F", .cmd8, 0x08, 0xF8⟩
  | .reserved10to1F _ => ⟨"RESERVED_10_1F", .cmd8, 0x10, 0xF0⟩
  | .reserved20to3F _ => ⟨"RESERVED_20_3F", .cmd8, 0x20, 0xE0⟩
  | .reserved40to7F _ => ⟨"RESERVED_40_7F", .cmd8, 0x40, 0xC0⟩
  | .reserved80toFF _ => ⟨"RESERVED_80_FF", .cmd8, 0x80, 0x80⟩
  | .sendHs1 => ⟨"SEND_HS1", .busReq, 0x255F0, 0xFFFFF⟩
  | .sendHs2 => ⟨"SEND_HS2", .busReq, 0x200FB, 0xFFFFF⟩
  | .sendAddr => ⟨"SEND_ADDR", .busReq, 0x10000, 0xFFFFF⟩
  | .recvFrame => ⟨"RECV_FRAME", .busReq, 0xE0000, 0xFFFFF⟩

/-- A word of the format that the row's mask and pattern admit. -/
def Row.admits (r : Row) (w : Nat) : Bool := w &&& r.mask == r.pattern

/-! ## BUSRSP -/

/-- `{OK, ERR, RDATA}` (30_encoding.md R94). -/
def BusRsp.word (r : BusRsp) : BusRspWord := BitVec.ofBool r.ok ++ r.err ++ r.rdata

/-- The fields of a BUSRSP word (30_encoding.md R94). -/
def decodeBusRsp (w : BusRspWord) : BusRsp :=
  { ok := w.getLsbD 64, err := w.extractLsb' 48 16, rdata := w.extractLsb' 0 48 }

end Sys2Proof
end

