-- ==== Sys2Proof/Config.lean ====
section
/-! DEFINITION. What an implementation fixes (00_scope.md, section 4) and the free values. A constant declared
`opaque` has no body: nothing can evaluate it, so a claim holds whatever it is. -/

namespace Sys2Proof

/-- `F_CLK`, the clock frequency in Hz. The spec admits every value of at least 100 and refuses the others
(00_scope.md R7), so a smaller one cannot be built. -/
structure ClockRate where
  hz : Nat
  atLeast100 : 100 ≤ hz
  deriving DecidableEq, Repr

/-- How far the `F_CLK` of the machine after reset lies above 100 Hz: OPEN in the spec (00_scope.md R7).
DESIGN CHOICE, log 1. Safe. -/
opaque Config.clockAbove100 : Nat

/-- `F_CLK` of the machine after reset: any admitted frequency (log 1). -/
def Config.clock : ClockRate := ⟨100 + Config.clockAbove100, Nat.le_add_right _ _⟩

/-- `BASE`, the platform's byte address of word 0: OPEN in the spec (20_memory.md R76). Log 11. Safe. -/
opaque Config.base : Nat

/-- The raw length the delay source supplies for the `n`-th draw when the environment schedules none:
a free value (`DELAY_POLICY` is OPEN, 00_scope.md R10). DESIGN CHOICE, log 2. Safe. -/
opaque Config.freeDraw : Nat → Nat

end Sys2Proof
end

