-- ==== Sys2Proof/Machine/ClockTimes.lean ====
section
/-! DEFINITION. The times of the spec in cycles of `clk`: the settle-delay bounds and the counter's width
(00_scope.md R8, R9, R10), and the host's poll period (R11, R12). -/

namespace Sys2Proof.Machine

/-- `T_MIN = ceil(F_CLK / 100)` cycles (00_scope.md R8). -/
def tMin (c : ClockRate) : Nat := (c.hz + 99) / 100

/-- `T_MAX = floor(F_CLK / 50)` cycles (00_scope.md R8). -/
def tMax (c : ClockRate) : Nat := c.hz / 50

/-- `SETTLE_W`, the smallest `w` of at least 1 with `2^w` at least `T_MAX` (00_scope.md R9); `T_MAX` is at least 2. -/
def settleWidth (c : ClockRate) : Nat := Nat.log2 (tMax c - 1) + 1

/-- The delay source gives an admitted length whatever raw number it is fed: a number inside the bounds is itself, one
outside them is moved to the nearer bound (00_scope.md R10). DESIGN CHOICE, log 2. Safe. -/
def admitDelay (c : ClockRate) (d : Nat) : Nat := max (tMin c) (min (tMax c) d)

/-- `T_TICK` in milliseconds, a parameter of the host: 5 ms nominal (00_scope.md R11, R12). -/
def tTickMs : Nat := 5

/-- `T_TICK` in cycles, the fixed interval between two ticks of the host's poll timer (44_host_protocol.md R222).
DESIGN CHOICE, log 19: the nominal period is kept to the cycle, rounded up. -/
def tTick (c : ClockRate) : Nat := (c.hz * tTickMs + 999) / 1000

end Sys2Proof.Machine
end

