-- ==== Sys2Proof/Machine/State.lean ====
section
/-! DEFINITION. The state of the machine: the block's registers (10_state.md), the host agent (30_encoding.md R103,
44_host_protocol.md R220 to R232), and the environment of a run as plain data (70_reset_and_hazards.md R294, R295). -/

namespace Sys2Proof.Machine

/-! ## The block -/

/-- `S.state`, a 4-bit register (10_state.md R22): one value per code, `reserved i` for the code `7 + i` (R34). -/
inductive SeqState where
  | idle
  | hsW1
  | hsW2
  | rfSettle1
  | rfAddr
  | rfSettle2
  | rfRead
  | reserved (i : Fin 9)
  deriving DecidableEq, Repr

/-- `S.cnt`, the settle counter (10_state.md R35). Its width is fixed by the frequency the block is built for, so that
stands beside its value (log 12). -/
structure SettleCounter where
  /-- `F_CLK` (00_scope.md R7, 70_reset_and_hazards.md R283); no step writes it -/
  clock : ClockRate
  /-- the register: `SETTLE_W` bits (00_scope.md R9) -/
  value : BitVec (settleWidth clock)
  deriving DecidableEq, Repr

/-- The storage elements of the block, the `S.*` of the spec (10_state.md R20, R22 to R37). -/
structure Regs where
  /-- `S.state` (R22) -/
  state : SeqState
  /-- `S.DONE` (R25) -/
  done : Bool
  /-- `S.ERR` (R26) -/
  err : Bool
  /-- `S.ERR_OP` (R27) -/
  errOp : BitVec 4
  /-- `S.ERR_CODE` (R28) -/
  errCode : ErrCode
  /-- `S.FRAME_VALID` (R29) -/
  frameValid : Bool
  /-- `S.HS_OK` (R30) -/
  hsOk : Bool
  /-- `S.BADCMD` (R31) -/
  badCmd : Bool
  /-- `S.OVERRUN` (R32) -/
  overrun : Bool
  /-- `S.cnt` (R35) -/
  cnt : SettleCounter
  /-- `S.FRAME` (R37) -/
  frame : Frame
  deriving DecidableEq, Repr

/-- The registers after a reset edge (70_reset_and_hazards.md R280). -/
def Regs.reset (c : ClockRate) : Regs where
  state := .idle
  done := false
  err := false
  errOp := 0
  errCode := 0
  frameValid := false
  hsOk := false
  badCmd := false
  overrun := false
  cnt := { clock := c, value := 0 }
  frame := 0

/-! ## The host agent -/

/-- The host's lifecycle state for the block (44_host_protocol.md R225). -/
inductive Lifecycle where
  | uninitialized
  | handshaking
  | verifying
  | registered
  | removed
  | failed
  deriving DecidableEq, Repr

/-- The two button codes; their numbers are the input subsystem's (44_host_protocol.md R223). -/
inductive Button where
  | z
  | c
  deriving DecidableEq, Repr

/-- The two axis codes; their numbers are the input subsystem's (44_host_protocol.md R223). -/
inductive Axis where
  | x
  | y
  deriving DecidableEq, Repr

/-- One call of the publisher (44_host_protocol.md R223). -/
inductive Event where
  | reportKey (b : Button) (pressed : Bool)
  | reportAbs (a : Axis) (v : Byte)
  | sync
  deriving DecidableEq, Repr

/-- The errors the host names (44_host_protocol.md R226, R228, R232). -/
inductive HostError where
  | transport (op : BitVec 4) (code : ErrCode)
  | allocation
  | registration
  deriving DecidableEq, Repr

/-- One entry of the host's log. What an entry holds, and in what format, is not in the source
(91_not_in_source.md). DESIGN CHOICE, log 20: a failed poll is logged with the error R222 and R232 name; the warm-up
read, which R228 lets the host discard or log, is logged; it and the baseline are bare entries without the read's
result. -/
inductive LogEntry where
  /-- a failed poll and its error (44_host_protocol.md R222, R232) -/
  | failedPoll (e : HostError)
  /-- the warm-up read of an attach (R228) -/
  | warmUp
  /-- the verified baseline read of an attach (R228) -/
  | baseline
  /-- the detachment (R231) -/
  | detached
  deriving DecidableEq, Repr

/-- The configuration of both axes at registration (00_scope.md R11, 44_host_protocol.md R228). -/
structure AxisConfig where
  min : Nat
  max : Nat
  fuzz : Nat
  flat : Nat
  deriving DecidableEq, Repr

/-- What a poll has read so far: `ERR_OP` from STATUS, x and y from JOY, the buttons from BTN
(44_host_protocol.md R222). -/
structure Seen where
  errOp : BitVec 4
  x : Byte
  y : Byte
  z : Bool
  c : Bool
  deriving DecidableEq, Repr

/-- What the host software does between two port accesses; it takes no block cycle and makes no access. -/
inductive HostAct where
  /-- keep `ERR_OP` of the STATUS word in `t` (44_host_protocol.md R222) -/
  | takeStatus
  /-- keep x and y of the JOY word in `t` (R222) -/
  | takeJoy
  /-- keep the buttons of the BTN word in `t` (R222) -/
  | takeBtn
  /-- publish what was kept (R223) -/
  | publish
  /-- log the failed poll with the ERRCODE word in `t` (R222, R232) -/
  | logFailure
  /-- log the warm-up read (R228) -/
  | logWarmUp
  /-- log the verified baseline read (R228) -/
  | logBaseline
  /-- Handshaking to Verifying (R227) -/
  | verify
  /-- Verifying to Registered, or to Failed if the registration fails (R228) -/
  | register
  /-- abort the attach with the ERRCODE word in `t` (R227, R228, R232) -/
  | abort
  deriving DecidableEq, Repr

/-- One line of a host script (30_encoding.md R103). A port access is held as its HOSTACC word. -/
inductive Line where
  | access (w : HostAccWord)
  | idle
  | label (n : Nat)
  | gotoIfBit (i : Fin 32) (v : Bool) (l : Nat)
  | gotoIfMask (m v : Word) (l : Nat)
  | goto (l : Nat)
  | act (a : HostAct)
  deriving DecidableEq, Repr

/-- The host: one agent, one thread (44_host_protocol.md R220). -/
structure HostAgent where
  /-- the temporary `t` (30_encoding.md R103) -/
  t : Word
  /-- the script the host runs -/
  script : List Line
  /-- the index of the next line of the script -/
  pos : Nat
  /-- the lifecycle state (44_host_protocol.md R225) -/
  life : Lifecycle
  /-- the DeviceHandle is held (R226) -/
  handle : Bool
  /-- the poll timer is armed (R228, R231) -/
  timerArmed : Bool
  /-- the cycles the armed poll timer has counted since it was armed or last ticked (R222; log 19) -/
  sinceTick : Nat
  /-- a detach waits for the poll in flight (R231) -/
  detaching : Bool
  /-- the axis configuration handed to the publisher (R228) -/
  axes : Option AxisConfig
  /-- what the poll in flight has read (R222) -/
  seen : Seen
  /-- every event published, oldest first (R223) -/
  published : List Event
  /-- the host's log, oldest first (R222, R228, R231) -/
  logged : List LogEntry
  /-- the error an aborted attach gave its caller (R232) -/
  surfaced : Option HostError
  deriving DecidableEq, Repr

/-- The host before it attaches: Uninitialized (44_host_protocol.md R225), the rest DESIGN CHOICE (log 3). -/
def HostAgent.initial : HostAgent where
  t := 0
  script := []
  pos := 0
  life := .uninitialized
  handle := false
  timerArmed := false
  sinceTick := 0
  detaching := false
  axes := none
  seen := { errOp := 0, x := 0, y := 0, z := false, c := false }
  published := []
  logged := []
  surfaced := none

/-! ## The environment -/

/-- What the block's input pins other than the host port carry in one cycle (10_state.md R21), and the draw of that
cycle (42_frame_reader.md R161): `none` where the environment schedules none (log 2). -/
structure Pins where
  rst : Bool
  busDone : Bool
  bus : BusRsp
  draw : Option Nat
  deriving DecidableEq, Repr

/-- What the host's own surroundings ask of it in one cycle: an attach request and its two outcomes
(44_host_protocol.md R226, R228), a detach request (R231). The ticks are not among them: they come from the host's own
timer (R222, log 19). -/
structure Calls where
  attach : Bool
  allocOk : Bool
  registerOk : Bool
  detach : Bool
  deriving DecidableEq, Repr

/-- The inputs of one cycle (70_reset_and_hazards.md R295). -/
structure Cycle where
  pins : Pins
  calls : Calls
  deriving DecidableEq, Repr

/-- No reset, no bus completion, no scheduled draw. -/
def Pins.quiet : Pins :=
  { rst := false, busDone := false, bus := { ok := false, err := 0, rdata := 0 }, draw := none }

/-- No request of the host. Nor does it succeed in what the host asks of its surroundings: an attach whose registration
falls in such a cycle ends Failed (44_host_protocol.md R228 gives no outcome where no input does). DESIGN CHOICE,
log 4. -/
def Calls.quiet : Calls :=
  { attach := false, allocOk := false, registerOk := false, detach := false }

/-- A cycle in which nothing arrives (log 4). -/
def Cycle.quiet : Cycle := { pins := .quiet, calls := .quiet }

/-! ## The machine -/

/-- The block, its host and the environment of the run. -/
structure State where
  /-- the block's registers -/
  regs : Regs
  /-- the host agent -/
  host : HostAgent
  /-- the inputs of this cycle, then of the cycles after it; past its end every cycle is quiet (log 4) -/
  env : List Cycle
  /-- the MODEL's own counter of settle delays drawn (log 2) -/
  draws : Nat
  deriving DecidableEq, Repr

/-- `F_CLK` of the block (00_scope.md R7). -/
abbrev State.clock (s : State) : ClockRate := s.regs.cnt.clock

/-- Why a step ends in a fault: nothing does. The block's one exception ends a command and the machine goes on
(60_exceptions.md R250, R252); a silent transport and a reserved state code are waits (R265, R266). Log 10. -/
inductive Fault where
  deriving DecidableEq, Repr

/-- Why an instruction is refused. -/
inductive Refusal where
  /-- The instruction has no meaning yet. Raised by an arm of `exec` only; no arm raises it. Safe. -/
  | notModelled (mnemonic : String)
  deriving DecidableEq, Repr

/-- The machine right after reset: the registers as 70_reset_and_hazards.md R280 leaves them, a host that has not
attached, nothing scheduled (logs 1, 3, 4). -/
def State.reset : State where
  regs := .reset Config.clock
  host := .initial
  env := []
  draws := 0

end Sys2Proof.Machine
end

