-- ==== Sys2Proof/Machine/Operands.lean ====
section
/-! DEFINITION. The values the instructions work on: the sequencer codes (10_state.md R22), the frame's bytes (R37),
and the inputs of the current cycle. -/

namespace Sys2Proof.Machine

/-! ## Sequencer codes (10_state.md R22, R34) -/

/-- The code of a sequencer state. -/
def SeqState.code : SeqState → BitVec 4
  | .idle => 0
  | .hsW1 => 1
  | .hsW2 => 2
  | .rfSettle1 => 3
  | .rfAddr => 4
  | .rfSettle2 => 5
  | .rfRead => 6
  | .reserved i => BitVec.ofNat 4 (7 + i)

/-! ## Frame bytes (10_state.md R37, 20_memory.md R60) -/

/-- Byte `b_i` of a frame: bits `8i+7 : 8i`. -/
def frameByte (f : Frame) (i : Nat) : Byte := f.extractLsb' (8 * i) 8

/-! ## The inputs of the current cycle -/

/-- The current cycle of the environment (log 4). -/
def State.cycle (s : State) : Cycle :=
  match s.env with
  | [] => .quiet
  | c :: _ => c

/-- The input pins of the current cycle. -/
def State.pins (s : State) : Pins := s.cycle.pins

/-- `draw_delay()` in the current cycle (42_frame_reader.md R161): the scheduled number, or a free value. -/
def State.drawDelay (s : State) : Nat :=
  admitDelay s.clock (s.pins.draw.getD (Config.freeDraw s.draws))

end Sys2Proof.Machine
end

