-- ==== Sys2Proof/Machine/BusPort.lean ====
section
/-! DEFINITION. The bus outputs, combinational functions of `S.state` alone (20_memory.md R68), and the BUSREQ word
they form (30_encoding.md R93). -/

namespace Sys2Proof.Machine

/-- `bus_req` (20_memory.md R68). -/
def busReq : SeqState → Bool
  | .hsW1 | .hsW2 | .rfAddr | .rfRead => true
  | .idle | .rfSettle1 | .rfSettle2 | .reserved _ => false

/-- `bus_op`: 0 a write, 1 a read (20_memory.md R68). -/
def busOp : SeqState → Bool
  | .rfRead => true
  | .hsW1 | .hsW2 | .rfAddr | .idle | .rfSettle1 | .rfSettle2 | .reserved _ => false

/-- `bus_len` (20_memory.md R68). -/
def busLen : SeqState → BitVec 3
  | .hsW1 | .hsW2 => 2#3
  | .rfAddr => 1#3
  | .rfRead => 6#3
  | .idle | .rfSettle1 | .rfSettle2 | .reserved _ => 0#3

/-- `bus_wdata`: the first byte in 7:0 (20_memory.md R62, R68). -/
def busWdata : SeqState → BitVec 16
  | .hsW1 => 0x55F0#16
  | .hsW2 => 0x00FB#16
  | .rfAddr | .rfRead | .idle | .rfSettle1 | .rfSettle2 | .reserved _ => 0x0000#16

/-- The BUSREQ word of a cycle with `bus_req = 1` (30_encoding.md R93). -/
def busWord (st : SeqState) : Option BusReqWord :=
  if busReq st then some (busReqWord (busOp st) (busLen st) (busWdata st)) else none

/-- The bytes a bus write sends, in the order they go out (20_memory.md R62): none for a read or no request. -/
def busBytes (st : SeqState) : List Byte :=
  if busOp st then []
  else [(busWdata st).extractLsb' 0 8, (busWdata st).extractLsb' 8 8].take (busLen st).toNat

end Sys2Proof.Machine
end

