-- ==== Sys2Proof/Machine/Flags.lean ====
section
/-! DEFINITION. The status flags: BUSY, the STATUS word, and what clears and sets the flags
(10_state.md R24 to R32, R41; 40_register_access.md R122, R125, R126). -/

namespace Sys2Proof.Machine

/-- `BUSY = (S.state != IDLE)` (10_state.md R24). -/
def busy (r : Regs) : Bool := r.state != .idle

/-- The STATUS word (10_state.md R41). -/
def statusWord (r : Regs) : Word :=
  0#12 ++ r.state.code ++ 0#4 ++ r.errOp ++ 0#1 ++ BitVec.ofBool r.overrun ++ BitVec.ofBool r.badCmd
    ++ BitVec.ofBool r.hsOk ++ BitVec.ofBool r.frameValid ++ BitVec.ofBool r.err ++ BitVec.ofBool r.done
    ++ BitVec.ofBool (busy r)

/-- `accept_common()` (40_register_access.md R122). It also ends the record of an error: there is no return
instruction (60_exceptions.md R257). -/
def acceptCommon (r : Regs) : Regs :=
  { r with
    done := false
    err := false
    errOp := 0
    errCode := 0
    frameValid := false
    badCmd := false
    overrun := false }

/-- A reserved opcode: BADCMD, in every state (40_register_access.md R125). -/
def setBadCmd (r : Regs) : Regs := { r with badCmd := true }

/-- A command while busy: OVERRUN (40_register_access.md R126). -/
def setOverrun (r : Regs) : Regs := { r with overrun := true }

/-- The success completion of HANDSHAKE (41_handshake.md R142). -/
def completeHandshake (r : Regs) : Regs := { r with state := .idle, done := true, hsOk := true }

/-- The success completion of READ_FRAME: all 48 bits at one edge (42_frame_reader.md R166). -/
def completeReadFrame (f : Frame) (r : Regs) : Regs :=
  { r with frame := f, frameValid := true, done := true, state := .idle }

end Sys2Proof.Machine
end

