-- ==== Sys2Proof/Machine/FrameDecoder.lean ====
section
/-! DEFINITION. The combinational frame decoder (43_decoder.md R190 to R200), in the source's masks and shifts, and
its inverse (R198). -/

namespace Sys2Proof.Machine

/-- DEC_X (43_decoder.md R190). -/
def decX (f : Frame) : Byte := frameByte f 0

/-- DEC_Y (43_decoder.md R191). -/
def decY (f : Frame) : Byte := frameByte f 1

/-- `(zext_10(hi) << 2) | zext_10((b5 & mask) >> sh)`, the form of 43_decoder.md R192 to R194. -/
def composeAcc (hi b5 mask : Byte) (sh : Nat) : BitVec 10 :=
  (hi.setWidth 10 <<< 2) ||| ((b5 &&& mask) >>> sh).setWidth 10

/-- DEC_XACC (43_decoder.md R192). -/
def decXAcc (f : Frame) : BitVec 10 := composeAcc (frameByte f 2) (frameByte f 5) 0b00001100#8 2

/-- DEC_YACC (43_decoder.md R193). -/
def decYAcc (f : Frame) : BitVec 10 := composeAcc (frameByte f 3) (frameByte f 5) 0b00110000#8 4

/-- DEC_ZACC (43_decoder.md R194). -/
def decZAcc (f : Frame) : BitVec 10 := composeAcc (frameByte f 4) (frameByte f 5) 0b11000000#8 6

/-- DEC_ZP, active low in the frame (43_decoder.md R195). -/
def decZPressed (f : Frame) : Bool := frameByte f 5 &&& 0b00000001#8 == 0#8

/-- DEC_CP, active low in the frame (43_decoder.md R196). -/
def decCPressed (f : Frame) : Bool := frameByte f 5 &&& 0b00000010#8 == 0#8

/-- The decoded fields of a frame: the source's DeviceRegisters (10_state.md R38). -/
structure DeviceRegs where
  x : Byte
  y : Byte
  xAcc : BitVec 10
  yAcc : BitVec 10
  zAcc : BitVec 10
  zPressed : Bool
  cPressed : Bool
  deriving DecidableEq, Repr

/-- All seven fields at once (10_state.md R38, 43_decoder.md R197). -/
def decodeFrame (f : Frame) : DeviceRegs where
  x := decX f
  y := decY f
  xAcc := decXAcc f
  yAcc := decYAcc f
  zAcc := decZAcc f
  zPressed := decZPressed f
  cPressed := decCPressed f

/-- `b5` of the one frame that decodes to the given fields (43_decoder.md R198). -/
def encodeB5 (d : DeviceRegs) : Byte :=
  d.zAcc.extractLsb' 0 2 ++ d.yAcc.extractLsb' 0 2 ++ d.xAcc.extractLsb' 0 2
    ++ BitVec.ofBool (!d.cPressed) ++ BitVec.ofBool (!d.zPressed)

/-- The one frame that decodes to the given fields (43_decoder.md R198). -/
def encodeFrame (d : DeviceRegs) : Frame :=
  encodeB5 d ++ d.zAcc.extractLsb' 2 8 ++ d.yAcc.extractLsb' 2 8 ++ d.xAcc.extractLsb' 2 8 ++ d.y ++ d.x

end Sys2Proof.Machine
end

