-- ==== Sys2Proof/Machine/Ops.lean ====
section
/-! DEFINITION. The operations the instructions share: reading a host register word (40_register_access.md R120),
starting a command (R121, R122), entering and counting a settle delay (42_frame_reader.md R160 to R164), one cycle of
a bus transaction (20_memory.md R69), and the error completion (60_exceptions.md R252). -/

namespace Sys2Proof.Machine

/-- The three outcomes of this machine. -/
abbrev Result := Host.Outcome State Fault Refusal

/-- The second part runs on the state the first one answers. -/
def andThen (o : Result) (f : State → Result) : Result :=
  match o with
  | .next s => f s
  | .fault r => .fault r
  | .refused r => .refused r

/-- The next state, if there is one. -/
def nextOf (o : Result) : Option State :=
  match o with
  | .next s => some s
  | .fault _ => none
  | .refused _ => none

/-- Registers written, everything else kept. -/
def State.mapRegs (f : Regs → Regs) (s : State) : State := { s with regs := f s.regs }

/-- The host's temporary written, everything else kept (30_encoding.md R103). -/
def State.setT (w : Word) (s : State) : State := { s with host := { s.host with t := w } }

/-! ## Host register words (10_state.md R39 to R47) -/

/-- ERRCODE (10_state.md R42). -/
def errcodeWord (r : Regs) : Word := 0#16 ++ r.errCode

/-- FRAME0 (10_state.md R43). -/
def frame0Word (r : Regs) : Word := r.frame.extractLsb' 0 32

/-- FRAME1 (10_state.md R44). -/
def frame1Word (r : Regs) : Word := 0#16 ++ r.frame.extractLsb' 32 16

/-- JOY (10_state.md R45). -/
def joyWord (r : Regs) : Word := 0#16 ++ decY r.frame ++ decX r.frame

/-- ACC (10_state.md R46). -/
def accWord (r : Regs) : Word := 0#2 ++ decZAcc r.frame ++ decYAcc r.frame ++ decXAcc r.frame

/-- BTN (10_state.md R47). -/
def btnWord (r : Regs) : Word :=
  0#30 ++ BitVec.ofBool (decCPressed r.frame) ++ BitVec.ofBool (decZPressed r.frame)

/-- The word a host read of `addr` returns (40_register_access.md R120). -/
def readWord (r : Regs) (addr : RegIdx) : Word :=
  match addr with
  | 0#4 => 0
  | 1#4 => statusWord r
  | 2#4 => errcodeWord r
  | 3#4 => frame0Word r
  | 4#4 => frame1Word r
  | 5#4 => joyWord r
  | 6#4 => accWord r
  | 7#4 => btnWord r
  | _ => 0

/-- A host read: the word goes to the host's temporary, the block keeps every register
(40_register_access.md R120, 30_encoding.md R103). -/
def hostRead (addr : RegIdx) (s : State) : State := s.setT (readWord s.regs addr)

/-! ## Commands -/

/-- HANDSHAKE or READ_FRAME: accepted in IDLE with the shared clearing writes and then `start`, else OVERRUN
(40_register_access.md R121, R122, R126). -/
def acceptOrOverrun (start : State → State) (s : State) : State :=
  if s.regs.state = .idle then start (s.mapRegs acceptCommon) else s.mapRegs setOverrun

/-- `handshake_start()` (41_handshake.md R140). -/
def handshakeStart (s : State) : State := s.mapRegs fun r => { r with hsOk := false, state := .hsW1 }

/-- The settle counter's value as a number. -/
def SettleCounter.toNat (c : SettleCounter) : Nat := c.value.toNat

/-- A load of the settle counter (10_state.md R35). -/
def SettleCounter.load (n : Nat) (c : SettleCounter) : SettleCounter := { c with value := .ofNat _ n }

/-- One count down of the settle counter (10_state.md R35). -/
def SettleCounter.countDown (c : SettleCounter) : SettleCounter := { c with value := c.value - 1 }

/-- Entry to a settle state with a drawn length: `S.cnt <- d - 1` (42_frame_reader.md R160, R163). -/
def enterSettle (st : SeqState) (s : State) : State :=
  { s with regs := { s.regs with cnt := s.regs.cnt.load (s.drawDelay - 1), state := st }, draws := s.draws + 1 }

/-- `read_frame_start()` (42_frame_reader.md R160). -/
def readFrameStart (s : State) : State := enterSettle .rfSettle1 s

/-- One cycle of a settle state that leads to `after` (42_frame_reader.md R162, R164). -/
def settleStep (after : SeqState) (r : Regs) : Regs :=
  if r.cnt.value = 0 then { r with state := after } else { r with cnt := r.cnt.countDown }

/-! ## Taking the exception -/

/-- `raise TransportError(op, code)`, the error completion (60_exceptions.md R252): the command ends and the cause is
recorded. Nothing is saved to be restored, and there is no return from it: the next accept edge clears the record
(R257, `acceptCommon`). -/
def raiseTransportError (op : BitVec 4) (code : ErrCode) (r : Regs) : Regs :=
  { r with err := true, errOp := op, errCode := code, done := true, state := .idle }

/-- One cycle of an outstanding bus transaction (20_memory.md R69, R71, R73): it waits until the transport completes
it, then succeeds or raises TransportError with its own ERR_OP (60_exceptions.md R251). -/
def busCycle (op : BitVec 4) (success : State → State) (s : State) : State :=
  if s.pins.busDone then
    if s.pins.bus.ok then success s else s.mapRegs (raiseTransportError op s.pins.bus.err)
  else s

/-- A bus transaction acts in the state that drives its request, and in no other (20_memory.md R68, R72; log 8). -/
def busTransaction (at_ : SeqState) (op : BitVec 4) (success : State → State) (s : State) : State :=
  if s.regs.state = at_ then busCycle op success s else s

end Sys2Proof.Machine
end

