-- ==== Sys2Proof/Machine/BusTransactions.lean ====
section
/-! DEFINITION. The bus transactions: one cycle of the sequencer in the state that drives the request. -/

namespace Sys2Proof.Machine

/-- SEND_HS1 (41_handshake.md R144), with the HS_W1 step (R141). -/
def execSendHs1 (s : State) : Result :=
  .next (busTransaction .hsW1 1 (State.mapRegs fun r => { r with state := .hsW2 }) s)

/-- SEND_HS2 (41_handshake.md R145), with the HS_W2 step (R142, R143). -/
def execSendHs2 (s : State) : Result :=
  .next (busTransaction .hsW2 2 (State.mapRegs completeHandshake) s)

/-- SEND_ADDR (42_frame_reader.md R168), with the RF_ADDR step (R163). -/
def execSendAddr (s : State) : Result :=
  .next (busTransaction .rfAddr 3 (enterSettle .rfSettle2) s)

/-- RECV_FRAME (42_frame_reader.md R169), with the RF_READ step (R165 to R167). -/
def execRecvFrame (s : State) : Result :=
  .next (busTransaction .rfRead 4 (State.mapRegs (completeReadFrame s.pins.bus.rdata)) s)

end Sys2Proof.Machine
end

