-- ==== Sys2Proof/Machine/RegisterRead.lean ====
section
/-! DEFINITION. The host reads (40_register_access.md R120). WDATA is ignored; the block writes no state; the word goes
to the host's temporary. -/

namespace Sys2Proof.Machine

/-- RD_CMD (40_register_access.md R120, 10_state.md R40): reads 0. -/
def execRdCmd (_wdata : Word) (s : State) : Result := .next (hostRead 0 s)

/-- RD_STATUS (40_register_access.md R120, 10_state.md R41). -/
def execRdStatus (_wdata : Word) (s : State) : Result := .next (hostRead 1 s)

/-- RD_ERRCODE (40_register_access.md R120, 10_state.md R42). -/
def execRdErrcode (_wdata : Word) (s : State) : Result := .next (hostRead 2 s)

/-- RD_FRAME0 (40_register_access.md R120, 10_state.md R43). -/
def execRdFrame0 (_wdata : Word) (s : State) : Result := .next (hostRead 3 s)

/-- RD_FRAME1 (40_register_access.md R120, 10_state.md R44). -/
def execRdFrame1 (_wdata : Word) (s : State) : Result := .next (hostRead 4 s)

/-- RD_JOY (40_register_access.md R120, 10_state.md R45). -/
def execRdJoy (_wdata : Word) (s : State) : Result := .next (hostRead 5 s)

/-- RD_ACC (40_register_access.md R120, 10_state.md R46). -/
def execRdAcc (_wdata : Word) (s : State) : Result := .next (hostRead 6 s)

/-- RD_BTN (40_register_access.md R120, 10_state.md R47). -/
def execRdBtn (_wdata : Word) (s : State) : Result := .next (hostRead 7 s)

/-- RD_UNMAPPED, words 8 to 15 (40_register_access.md R120): reads 0. -/
def execRdUnmapped (addr : RegIdx) (_wdata : Word) (s : State) : Result := .next (hostRead addr s)

end Sys2Proof.Machine
end

