-- ==== Sys2Proof/Machine/Commands.lean ====
section
/-! DEFINITION. The commands written to CMD (40_register_access.md R123, R125; 41_handshake.md R140;
42_frame_reader.md R160). Each is the effect at the edge that ends the write's cycle. -/

namespace Sys2Proof.Machine

/-- NOP: no write, in every state (40_register_access.md R123). -/
def execNop (s : State) : Result := .next s

/-- HANDSHAKE (41_handshake.md R140; OVERRUN while busy, 40_register_access.md R126). -/
def execHandshake (s : State) : Result := .next (acceptOrOverrun handshakeStart s)

/-- READ_FRAME (42_frame_reader.md R160; OVERRUN while busy, 40_register_access.md R126). -/
def execReadFrame (s : State) : Result := .next (acceptOrOverrun readFrameStart s)

/-- RESERVED_03: BADCMD and nothing else (40_register_access.md R125). -/
def execReserved03 (s : State) : Result := .next (s.mapRegs setBadCmd)

/-- RESERVED_04_07: BADCMD and nothing else (40_register_access.md R125). -/
def execReserved04to07 (_op : Byte) (s : State) : Result := .next (s.mapRegs setBadCmd)

/-- RESERVED_08_0F: BADCMD and nothing else (40_register_access.md R125). -/
def execReserved08to0F (_op : Byte) (s : State) : Result := .next (s.mapRegs setBadCmd)

/-- RESERVED_10_1F: BADCMD and nothing else (40_register_access.md R125). -/
def execReserved10to1F (_op : Byte) (s : State) : Result := .next (s.mapRegs setBadCmd)

/-- RESERVED_20_3F: BADCMD and nothing else (40_register_access.md R125). -/
def execReserved20to3F (_op : Byte) (s : State) : Result := .next (s.mapRegs setBadCmd)

/-- RESERVED_40_7F: BADCMD and nothing else (40_register_access.md R125). -/
def execReserved40to7F (_op : Byte) (s : State) : Result := .next (s.mapRegs setBadCmd)

/-- RESERVED_80_FF: BADCMD and nothing else (40_register_access.md R125). -/
def execReserved80toFF (_op : Byte) (s : State) : Result := .next (s.mapRegs setBadCmd)

end Sys2Proof.Machine
end

