-- ==== Sys2Proof/Machine/RegisterWrite.lean ====
section
/-! DEFINITION. The host writes: the CMD write with its dispatch (40_register_access.md R121) and the ignored writes
(R128). -/

namespace Sys2Proof.Machine

/-- WR_CMD: the opcode is tested before the state; WDATA[31:8] is ignored (40_register_access.md R121). -/
def execWrCmd (wdata : Word) (s : State) : Result :=
  let op := opcodeOf wdata
  if op = 0x00#8 then execNop s
  else if op = 0x01#8 then execHandshake s
  else if op = 0x02#8 then execReadFrame s
  else .next (s.mapRegs setBadCmd)

/-- WR_RO_1, STATUS: ignored (40_register_access.md R128). -/
def execWrRo1 (_wdata : Word) (s : State) : Result := .next s

/-- WR_RO_2_3, ERRCODE and FRAME0: ignored (40_register_access.md R128). -/
def execWrRo2to3 (_addr : RegIdx) (_wdata : Word) (s : State) : Result := .next s

/-- WR_RO_4_7, FRAME1, JOY, ACC and BTN: ignored (40_register_access.md R128). -/
def execWrRo4to7 (_addr : RegIdx) (_wdata : Word) (s : State) : Result := .next s

/-- WR_UNMAPPED, words 8 to 15: ignored (40_register_access.md R128). -/
def execWrUnmapped (_addr : RegIdx) (_wdata : Word) (s : State) : Result := .next s

end Sys2Proof.Machine
end

