-- ==== Sys2Proof/Machine/Dispatch.lean ====
section
/-! DEFINITION. One arm per instruction. -/

namespace Sys2Proof.Machine

def exec (i : Instr) (s : State) : Host.Outcome State Fault Refusal :=
  match i with
  -- HOSTACC reads
  | .rdCmd wdata => Sys2Proof.Machine.execRdCmd wdata s
  | .rdStatus wdata => Sys2Proof.Machine.execRdStatus wdata s
  | .rdErrcode wdata => Sys2Proof.Machine.execRdErrcode wdata s
  | .rdFrame0 wdata => Sys2Proof.Machine.execRdFrame0 wdata s
  | .rdFrame1 wdata => Sys2Proof.Machine.execRdFrame1 wdata s
  | .rdJoy wdata => Sys2Proof.Machine.execRdJoy wdata s
  | .rdAcc wdata => Sys2Proof.Machine.execRdAcc wdata s
  | .rdBtn wdata => Sys2Proof.Machine.execRdBtn wdata s
  | .rdUnmapped addr wdata => Sys2Proof.Machine.execRdUnmapped addr wdata s
  -- HOSTACC writes
  | .wrCmd wdata => Sys2Proof.Machine.execWrCmd wdata s
  | .wrRo1 wdata => Sys2Proof.Machine.execWrRo1 wdata s
  | .wrRo2to3 addr wdata => Sys2Proof.Machine.execWrRo2to3 addr wdata s
  | .wrRo4to7 addr wdata => Sys2Proof.Machine.execWrRo4to7 addr wdata s
  | .wrUnmapped addr wdata => Sys2Proof.Machine.execWrUnmapped addr wdata s
  -- CMD8 commands
  | .nop => Sys2Proof.Machine.execNop s
  | .handshake => Sys2Proof.Machine.execHandshake s
  | .readFrame => Sys2Proof.Machine.execReadFrame s
  | .reserved03 => Sys2Proof.Machine.execReserved03 s
  | .reserved04to07 op => Sys2Proof.Machine.execReserved04to07 op s
  | .reserved08to0F op => Sys2Proof.Machine.execReserved08to0F op s
  | .reserved10to1F op => Sys2Proof.Machine.execReserved10to1F op s
  | .reserved20to3F op => Sys2Proof.Machine.execReserved20to3F op s
  | .reserved40to7F op => Sys2Proof.Machine.execReserved40to7F op s
  | .reserved80toFF op => Sys2Proof.Machine.execReserved80toFF op s
  -- BUSREQ transactions
  | .sendHs1 => Sys2Proof.Machine.execSendHs1 s
  | .sendHs2 => Sys2Proof.Machine.execSendHs2 s
  | .sendAddr => Sys2Proof.Machine.execSendAddr s
  | .recvFrame => Sys2Proof.Machine.execRecvFrame s

end Sys2Proof.Machine
end

