-- ==== Sys2Proof/Machine/HostProtocol.lean ====
section
/-! DEFINITION. The host agent: the script notation (30_encoding.md R103, R104), the platform's addresses of the
block's words (20_memory.md R63, R76), the host's own work between port accesses and its lifecycle
(44_host_protocol.md R221 to R232). -/

namespace Sys2Proof.Machine

/-! ## Host-script notation (30_encoding.md R103) -/

/-- `wr REG, value`: the HOSTACC word `{1, idx(REG), v}`. -/
def Line.wr (k : RegIdx) (v : Word) : Line := .access (hostAccWord true k v)

/-- `rd REG`: the HOSTACC word `{0, idx(REG), 0}`. -/
def Line.rd (k : RegIdx) : Line := .access (hostAccWord false k 0)

/-- The word `k` at byte offset `4k` of the register map (10_state.md R39, 20_memory.md R63). An offset that is
misaligned or past the 64 bytes cannot be presented at the port (log 18). -/
def offsetIndex (off : Nat) : Option RegIdx :=
  if off < 64 ∧ off % 4 = 0 then some (BitVec.ofNat 4 (off / 4)) else none

/-- `MemWrite(addr, 4, v)`: one port write of the word at byte offset `addr` (00_scope.md R16, 20_memory.md R63). -/
def memWrite (addr : Nat) (v : Word) : Option Line := (offsetIndex addr).map fun k => .wr k v

/-- `MemRead(addr, 4)`: one port read of the word at byte offset `addr` (00_scope.md R16, 20_memory.md R63). -/
def memRead (addr : Nat) : Option Line := (offsetIndex addr).map .rd

/-- The word index a platform byte address selects: the register map is placed at `BASE` (20_memory.md R76). -/
def wordIndex (addr : Nat) : Option RegIdx :=
  if Config.base ≤ addr then offsetIndex (addr - Config.base) else none

/-! ## Pseudo-instructions (30_encoding.md R104) -/

/-- `cmd NAME`, with its opcode. -/
def cmd (opcode : Word) : List Line := [.wr 0 opcode]

/-- `wait_done`, under a label of its own. -/
def waitDone (l : Nat) : List Line := [.label l, .rd 1, .gotoIfBit 1 false l]

/-- `handshake`. -/
def handshakeLines (l : Nat) : List Line := cmd 0x01 ++ waitDone l

/-- `read_frame`. -/
def readFrameLines (l : Nat) : List Line := cmd 0x02 ++ waitDone l

/-! ## The host's two programs -/

/-- The label of the failure branch. -/
def failLabel : Nat := 100

/-- The label behind the last line. -/
def endLabel : Nat := 101

/-- One poll (44_host_protocol.md R222). -/
def pollScript : List Line :=
  List.flatten
    [readFrameLines 0,
     [.rd 1, .act .takeStatus, .gotoIfBit 2 true failLabel],
     [.rd 5, .act .takeJoy, .rd 7, .act .takeBtn, .act .publish, .goto endLabel],
     [.label failLabel, .rd 2, .act .logFailure, .label endLabel]]

/-- Attach: the handshake and its check (44_host_protocol.md R227), the warm-up read, the baseline read and the
registration (R228), or the abort (R229, R232). A handshake that ends with neither ERR nor HS_OK takes no transition
(log 14). -/
def attachScript : List Line :=
  List.flatten
    [handshakeLines 0,
     [.rd 1, .act .takeStatus, .gotoIfBit 2 true failLabel, .gotoIfBit 4 false endLabel, .act .verify],
     readFrameLines 1, [.act .takeStatus, .gotoIfBit 2 true failLabel, .act .logWarmUp],
     readFrameLines 2, [.act .takeStatus, .gotoIfBit 2 true failLabel, .act .logBaseline],
     [.act .register, .goto endLabel],
     [.label failLabel, .rd 2, .act .abort, .label endLabel]]

/-! ## What the host does between accesses -/

namespace HostAgent

/-- The host runs no script, or has no line of it left (70_reset_and_hazards.md R295). -/
def free (h : HostAgent) : Bool := decide (h.script.length ≤ h.pos)

/-- The host starts a script of its own. -/
def start (script : List Line) (h : HostAgent) : HostAgent := { h with script := script, pos := 0 }

/-- Both axes: range `[0, 255]`, fuzz 4, flat 8 (00_scope.md R11). -/
def axisConfig : AxisConfig := { min := 0, max := 255, fuzz := 4, flat := 8 }

/-- The five publisher calls of a successful poll, in order (44_host_protocol.md R223). -/
def events (v : Seen) : List Event :=
  [.reportKey .z v.z, .reportKey .c v.c, .reportAbs .x v.x, .reportAbs .y v.y, .sync]

/-- The error the host makes of `ERR_OP` and the ERRCODE word in `t` (44_host_protocol.md R232). -/
def transportError (h : HostAgent) : HostError := .transport h.seen.errOp (h.t.extractLsb' 0 16)

/-- An attach that fails: Failed, the handle and any publisher resources released, the error surfaced
(44_host_protocol.md R226 to R229, R232). -/
def failAttach (e : HostError) (h : HostAgent) : HostAgent :=
  { h with life := .failed, handle := false, axes := none, surfaced := some e }

/-- One piece of the host's own work. The lifecycle acts make only the transitions of 44_host_protocol.md R225. -/
def perform (c : Calls) (a : HostAct) (h : HostAgent) : HostAgent :=
  match a with
  | .takeStatus => { h with seen := { h.seen with errOp := h.t.extractLsb' 8 4 } }
  | .takeJoy => { h with seen := { h.seen with x := h.t.extractLsb' 0 8, y := h.t.extractLsb' 8 8 } }
  | .takeBtn => { h with seen := { h.seen with z := h.t.getLsbD 0, c := h.t.getLsbD 1 } }
  | .publish => { h with published := h.published ++ events h.seen }
  | .logFailure => { h with logged := h.logged ++ [.failedPoll h.transportError] }
  | .logWarmUp => { h with logged := h.logged ++ [.warmUp] }
  | .logBaseline => { h with logged := h.logged ++ [.baseline] }
  | .verify => if h.life = .handshaking then { h with life := .verifying } else h
  | .register =>
    if h.life = .verifying then
      if c.registerOk then { h with life := .registered, timerArmed := true, sinceTick := 0, axes := some axisConfig }
      else h.failAttach .registration
    else h
  | .abort =>
    if h.life = .handshaking ∨ h.life = .verifying then h.failAttach h.transportError else h

/-- The line a jump goes to: the label's line, or the end of the script if it has no such label. A script that defines
the label twice is jumped in at the first of its lines: R103 does not say which. DESIGN CHOICE, log 7. -/
def target (h : HostAgent) (l : Nat) : Nat := h.script.findIdx (fun x => x == .label l)

/-- Control lines take no block cycle (30_encoding.md R103): the host runs them up to its next port access or `idle`.
The count bounds how many it runs (log 7). -/
def control (c : Calls) : Nat → HostAgent → HostAgent
  | 0, h => h
  | n + 1, h =>
    let step := { h with pos := h.pos + 1 }
    match h.script[h.pos]? with
    | none => h
    | some (.access _) => h
    | some .idle => h
    | some (.label _) => control c n step
    | some (.gotoIfBit i v l) =>
      control c n (if h.t.getLsbD i = v then { h with pos := h.target l } else step)
    | some (.gotoIfMask m v l) =>
      control c n (if h.t &&& m = v then { h with pos := h.target l } else step)
    | some (.goto l) => control c n { h with pos := h.target l }
    | some (.act a) => control c n (step.perform c a)

/-- As many control lines as the script has lines: more without a port access is a loop that makes none (log 7). -/
def runControl (c : Calls) (h : HostAgent) : HostAgent := control c h.script.length h

/-! ## Lifecycle requests -/

/-- Attach: Uninitialized to Handshaking with the handle, or to Failed (44_host_protocol.md R226). A host that runs
a script takes no attach (log 13). -/
def attach (c : Calls) (h : HostAgent) : HostAgent :=
  if c.attach ∧ h.life = .uninitialized ∧ h.free then
    if c.allocOk then { h.start attachScript with life := .handshaking, handle := true }
    else h.failAttach .allocation
  else h

/-- A detach request in Registered disarms the timer and then waits for the poll in flight
(44_host_protocol.md R231; log 13). -/
def requestDetach (c : Calls) (h : HostAgent) : HostAgent :=
  if c.detach ∧ h.life = .registered then { h with timerArmed := false, detaching := true } else h

/-- The detach completes when no poll is in flight: Removed, the detachment logged, the handle released
(44_host_protocol.md R231). R231 does not say whether the publisher's axis configuration is withdrawn, as an aborted
attach does (R228). DESIGN CHOICE, log 22: it is kept. -/
def finishDetach (h : HostAgent) : HostAgent :=
  if h.detaching ∧ h.life = .registered ∧ h.free then
    { h with life := .removed, handle := false, detaching := false, logged := h.logged ++ [.detached] }
  else h

/-- The armed poll timer ticks in this cycle: `period` cycles have passed since it was armed or last ticked
(44_host_protocol.md R222; log 19). -/
def tickDue (period : Nat) (h : HostAgent) : Bool := h.timerArmed && decide (period ≤ h.sinceTick + 1)

/-- The armed timer counts this cycle, or starts over if it ticks; one that is not armed stands still. -/
def countCycle (period : Nat) (h : HostAgent) : HostAgent :=
  { h with
    sinceTick := if h.tickDue period then 0 else if h.timerArmed then h.sinceTick + 1 else h.sinceTick }

/-- A tick starts a poll in Registered (44_host_protocol.md R222); one that finds a poll in flight is dropped (R224;
log 13). -/
def tick (period : Nat) (h : HostAgent) : HostAgent :=
  if h.tickDue period ∧ h.life = .registered ∧ h.free then (h.countCycle period).start pollScript
  else h.countCycle period

/-- The host's work before its access of a cycle (log 6). -/
def beginCycle (period : Nat) (c : Calls) (h : HostAgent) : HostAgent :=
  (((h.attach c).requestDetach c).tick period).runControl c

/-- The port access of the current line, if it is one (30_encoding.md R103). -/
def access (h : HostAgent) : Option HostAccWord :=
  match h.script[h.pos]? with
  | some (.access w) => some w
  | some .idle | some (.label _) | some (.gotoIfBit _ _ _) | some (.gotoIfMask _ _ _) | some (.goto _)
  | some (.act _) | none => none

/-- A port access and an `idle` take one cycle each (30_encoding.md R103). -/
def advance (h : HostAgent) : HostAgent :=
  match h.script[h.pos]? with
  | some (.access _) | some .idle => { h with pos := h.pos + 1 }
  | some (.label _) | some (.gotoIfBit _ _ _) | some (.gotoIfMask _ _ _) | some (.goto _)
  | some (.act _) | none => h

/-- The host's work after its access of a cycle (log 6). -/
def endCycle (c : Calls) (h : HostAgent) : HostAgent := (h.advance.runControl c).finishDetach

/-! ## The end of a script -/

/-- The host comes to the end of its script within `n` cycles more, all of them `idle`. -/
def idlesOut : Nat → HostAgent → Bool
  | 0, h => h.free
  | n + 1, h =>
    match h.script[h.pos]? with
    | none => true
    | some .idle => idlesOut n (h.advance.runControl .quiet)
    | some (.access _) | some (.label _) | some (.gotoIfBit _ _ _) | some (.gotoIfMask _ _ _) | some (.goto _)
    | some (.act _) => false

/-- The script has made its last port access, and the host has no line left but `idle` and control lines to its end
(70_reset_and_hazards.md R295). No read comes to change `t`, so a host that passes more `idle` lines than the script
has lines repeats one for ever, and its script has no end (log 21). -/
def spent (h : HostAgent) : Bool := idlesOut h.script.length h

end HostAgent

end Sys2Proof.Machine
end

