-- ==== Sys2Proof/Machine/ClockEdge.lean ====
section
/-! DEFINITION. One cycle of the machine and the rising edge that ends it (10_state.md R50). -/

namespace Sys2Proof.Machine

/-- The host's work at the start of a cycle. -/
def State.beginCycle (s : State) : State := { s with host := s.host.beginCycle (tTick s.clock) s.cycle.calls }

/-- The HOSTACC word of the cycle, when `reg_sel = 1` (30_encoding.md R91). -/
def State.hostWord (s : State) : Option HostAccWord := s.host.access

/-- `reg_rdata`, combinational (20_memory.md R64). -/
def State.regRdata (s : State) : Word :=
  match s.hostWord with
  | some w => if hostAccWe w then 0 else readWord s.regs (hostAccAddr w)
  | none => 0

/-- The host port's part of the edge: the decoded access, or nothing (10_state.md R50, 30_encoding.md R97). -/
def hostPart (s : State) : Result :=
  match s.hostWord with
  | some w => exec (decodeHostAcc w) s
  | none => .next s

/-- The bus transaction the sequencer requests in a state, read from the BUSREQ word it drives (20_memory.md R68,
30_encoding.md R93). -/
def requested (st : SeqState) : Option Instr :=
  match busWord st with
  | some w =>
    match decodeBusReq w with
    | .ok i => some i
    | .error _ => none
  | none => none

/-- `sequencer_step()`, chosen by the pre-edge state `st` (10_state.md R50): a settle state counts, a bus state runs
its transaction, IDLE and the reserved codes write nothing (60_exceptions.md R266, log 9). -/
def sequencerPart (st : SeqState) (s : State) : Result :=
  match st with
  | .rfSettle1 => .next (s.mapRegs (settleStep .rfAddr))
  | .rfSettle2 => .next (s.mapRegs (settleStep .rfRead))
  | .idle | .reserved _ => .next s
  | .hsW1 | .hsW2 | .rfAddr | .rfRead =>
    match requested st with
    | some i => exec i s
    | none => .next s

/-- What the host's access of a reset cycle still does: a read returns the pre-reset word, a write has no effect
(70_reset_and_hazards.md R280, 40_register_access.md R120). -/
def resetRead (s : State) : State :=
  match s.hostWord with
  | some w => if hostAccWe w then s else hostRead (hostAccAddr w) s
  | none => s

/-- The edge at which `rst = 1` was sampled: the reset and nothing else (70_reset_and_hazards.md R280), which abandons a
command in progress (R281). What the host makes of it is not given. DESIGN CHOICE, log 23: it does not hear `rst`, and
its script, lifecycle and poll timer run on. -/
def resetEdge (s : State) : State := (resetRead s).mapRegs fun r => Regs.reset r.cnt.clock

/-- The rising edge (10_state.md R50). The host's access and the sequencer act on the same pre-edge state: the access
is written first, and the sequencer's part is the one of the pre-edge `S.state`, which only an access in IDLE
changes, where that part is empty. -/
def clockEdge (s : State) : Result :=
  if s.pins.rst then .next (resetEdge s)
  else andThen (hostPart s) fun s1 => sequencerPart s.regs.state s1

/-- The host's work at the end of a cycle, and the inputs of the next one. -/
def State.endCycle (s : State) : State :=
  { s with host := s.host.endCycle s.cycle.calls, env := s.env.tail }

/-- One cycle: the host's work, the edge, the host's work. -/
def cycleStep (s : State) : Result := andThen (clockEdge s.beginCycle) fun t => .next t.endCycle

/-! ## Placing a word where the next cycle takes it from (log 5) -/

/-- The current cycle with no reset and no request of the host. -/
def calmCycle (s : State) : State :=
  { s with env := { pins := { s.pins with rst := false }, calls := .quiet } :: s.env.tail }

/-- The word as the host's next port access. -/
def placeAccess (w : HostAccWord) (s : State) : State :=
  let h := s.host
  { calmCycle s with
    host := { h with
      script := h.script.take h.pos ++ .access w :: h.script.drop h.pos
      pos := min h.pos h.script.length } }

/-- The sequencer state that drives a bus transaction (20_memory.md R68). -/
def drivenIn : Instr → Option SeqState
  | .sendHs1 => some .hsW1
  | .sendHs2 => some .hsW2
  | .sendAddr => some .rfAddr
  | .recvFrame => some .rfRead
  | .rdCmd _ | .rdStatus _ | .rdErrcode _ | .rdFrame0 _ | .rdFrame1 _ | .rdJoy _ | .rdAcc _ | .rdBtn _
  | .rdUnmapped _ _ | .wrCmd _ | .wrRo1 _ | .wrRo2to3 _ _ | .wrRo4to7 _ _ | .wrUnmapped _ _
  | .nop | .handshake | .readFrame | .reserved03 | .reserved04to07 _ | .reserved08to0F _ | .reserved10to1F _
  | .reserved20to3F _ | .reserved40to7F _ | .reserved80toFF _ => none

/-- The bus transaction of a BUSREQ word requested in this cycle, with no host access beside it; a word the block
never drives changes nothing. -/
def placeRequest (w : BusReqWord) (s : State) : State :=
  match decodeBusReq w with
  | .error _ => s
  | .ok i =>
    match drivenIn i with
    | none => s
    | some st =>
      { calmCycle s with
        regs := { s.regs with state := st }
        host := { s.host with script := .idle :: s.host.script.drop s.host.pos, pos := 0 } }

/-- A word of the opcode table placed for the next cycle: a HOSTACC word as the host's access, a CMD8 word as a write
of CMD, a BUSREQ word as the sequencer's request. -/
def placeWord (s : State) (nbits w : Nat) : State :=
  match formatOfBits nbits with
  | none => s
  | some .hostAcc => placeAccess (BitVec.ofNat 37 w) s
  | some .cmd8 => placeAccess (hostAccWord true 0 (BitVec.ofNat 32 w)) s
  | some .busReq => placeRequest (BitVec.ofNat 20 w) s

end Sys2Proof.Machine
end

