-- ==== Sys2Proof/Machine/Step.lean ====
section
/-! DEFINITION. One step of the machine is one clock cycle. -/

namespace Sys2Proof.Machine

/-- One cycle and the rising edge that ends it (10_state.md R50). -/
def step (s : State) : Host.Outcome State Fault Refusal := cycleStep s

/-- The state with a word of the opcode table placed where the next cycle takes it from (log 5). -/
def State.withFetchWord (s : State) (nbits w : Nat) : State := placeWord s nbits w

end Sys2Proof.Machine
end

