-- ==== Sys2Proof/Safety.lean ====
section
/-! DEFINITION. What counts as a well-behaved state, cycle and run, in the terms the claims use: the invariants of the
block and of its host, the duties of the host and of the transport, and runs of several cycles
(70_reset_and_hazards.md R294, R295). -/

namespace Sys2Proof.Machine

/-! ## Invariants -/

/-- What every register state reachable from reset satisfies. -/
structure Regs.Inv (r : Regs) : Prop where
  /-- the codes 7 to 15 are never entered (10_state.md R34) -/
  legal : ∀ i, r.state ≠ .reserved i
  /-- `ERR_OP` is 0 to 4 (10_state.md R27) -/
  errOp_le : r.errOp ≤ 4
  /-- `DONE = 1` implies `BUSY = 0` (10_state.md R33) -/
  done_idle : r.done = true → r.state = .idle
  /-- an error is recorded with its cause, and without one there is none (60_exceptions.md R251) -/
  err_iff : r.err = true ↔ r.errOp ≠ 0
  /-- an error completion is a completion (60_exceptions.md R252) -/
  err_done : r.err = true → r.done = true
  /-- without an error there is no code (10_state.md R28) -/
  noErr_code : r.err = false → r.errCode = 0
  /-- a valid frame belongs to a command that succeeded (10_state.md R29) -/
  frameValid_done : r.frameValid = true → r.done = true ∧ r.err = false
  /-- HS_OK is 0 during a HANDSHAKE (41_handshake.md R140) and after one that failed (60_exceptions.md R253) -/
  hsOk_clear : r.state = .hsW1 ∨ r.state = .hsW2 ∨ r.errOp = 1 ∨ r.errOp = 2 → r.hsOk = false
  /-- the settle counter holds 0 to `T_MAX - 1` (00_scope.md R9) -/
  cnt_lt : r.cnt.toNat < tMax r.cnt.clock

/-- The lifecycle states in which the host holds the DeviceHandle (44_host_protocol.md R226). -/
def Lifecycle.attached : Lifecycle → Bool
  | .handshaking | .verifying | .registered => true
  | .uninitialized | .removed | .failed => false

/-- What every state of the host reachable from its initial one satisfies (44_host_protocol.md R225 to R231). -/
structure HostAgent.Inv (h : HostAgent) : Prop where
  /-- the handle is held exactly while attached: never leaked, never freed elsewhere (R226) -/
  handle_iff : h.handle = h.life.attached
  /-- the poll timer is armed only in Registered (R228, R231) -/
  armed_registered : h.timerArmed = true → h.life = .registered
  /-- a waiting detach has disarmed the timer of a registered device (R231) -/
  detaching_registered : h.detaching = true → h.life = .registered ∧ h.timerArmed = false
  /-- the publisher holds the axes only of a device that was registered (R228) -/
  axes_registered : h.axes.isSome = true → h.life = .registered ∨ h.life = .removed
  /-- an error was surfaced exactly when the attach failed (R232) -/
  surfaced_iff : h.surfaced.isSome = true ↔ h.life = .failed

/-- Both invariants. -/
structure State.Inv (s : State) : Prop where
  regs : s.regs.Inv
  host : s.host.Inv

/-! ## Duties -/

/-- The access starts a command, if the block is IDLE: a write of HANDSHAKE or READ_FRAME to CMD. -/
def startsCommand (w : HostAccWord) : Bool :=
  hostAccWe w && hostAccAddr w == 0#4
    && (opcodeOf (hostAccWdata w) == 0x01#8 || opcodeOf (hostAccWdata w) == 0x02#8)

/-- The host's duty in a cycle: it starts a command only in IDLE (44_host_protocol.md R221). -/
def hostDuty (s : State) : Prop :=
  ∀ w, s.beginCycle.hostWord = some w → startsCommand w = true → s.regs.state = .idle

/-- The transport's duty in a cycle: it completes only a transaction that is requested (20_memory.md R69, R72). -/
def transportDuty (s : State) : Prop := s.pins.busDone = true → busReq s.regs.state = true

/-- A cycle in which both agents keep their duties. No claim about the block alone needs it: the block's reaction to a
breach is defined (40_register_access.md R126, 20_memory.md R72). -/
def safeCycle (s : State) : Prop := hostDuty s ∧ transportDuty s

/-! ## Runs -/

/-- The state after `n` cycles, if every one answers a next state. -/
def steps : Nat → State → Option State
  | 0, s => some s
  | n + 1, s => (nextOf (step s)).bind (steps n)

/-- The inputs of the `k`-th cycle from a state. -/
def State.cycleAt (s : State) (k : Nat) : Cycle := s.env.getD k .quiet

/-- The same state with other input pins in the current cycle. -/
def State.withPins (p : Pins) (s : State) : State :=
  { s with env := { pins := p, calls := s.cycle.calls } :: s.env.tail }

/-- The same state with another count of the host's poll timer. -/
def State.withSinceTick (n : Nat) (s : State) : State := { s with host := { s.host with sinceTick := n } }

/-- The clean launch state of a run (70_reset_and_hazards.md R294). -/
def launched (s : State) : Prop := s.regs = Regs.reset s.clock

/-- The edge that ends the cycle of this state accepts a command (40_register_access.md R122, R126). -/
def acceptEdge (s : State) : Prop :=
  s.pins.rst = false ∧ s.regs.state = .idle ∧ ∃ w, s.beginCycle.hostWord = some w ∧ startsCommand w = true

/-- The two kinds of run (70_reset_and_hazards.md R295): of a command, accepted at the edge that ends the run's cycle
`accept`, and of a host script. Cycles are counted from 0. -/
inductive RunKind where
  | command (accept : Nat)
  | script
  deriving DecidableEq, Repr

/-- The edge that ends cycle `n`, from `u` to `t`, completes the run, if none before it did: DONE is 1 after an edge
behind the accept edge, which left it 0; or the cycle holds the script's last port access (70_reset_and_hazards.md
R295). -/
def RunKind.completes (n : Nat) (u t : State) : RunKind → Prop
  | .command accept => accept < n ∧ t.regs.done = true
  | .script => u.beginCycle.hostWord.isSome = true ∧ t.host.spent = true

/-- The run of this kind that starts in `s` ends at the edge that ends its cycle `n`, in `t`: it is completed there, or
cut there by a reset edge (70_reset_and_hazards.md R295). A run that is neither has no end (60_exceptions.md R265). -/
structure RunEnds (k : RunKind) (s : State) (n : Nat) (t : State) : Prop where
  /-- a command run has its accept edge -/
  accepted : ∀ a, k = .command a → a < n ∧ ∃ u, steps a s = some u ∧ acceptEdge u
  /-- no edge before cuts or completes it -/
  going : ∀ m, m < n → ∃ u v, steps m s = some u ∧ steps (m + 1) s = some v ∧ u.pins.rst = false ∧
    ¬ k.completes m u v
  /-- this edge does -/
  ends : ∃ u, steps n s = some u ∧ steps (n + 1) s = some t ∧ (u.pins.rst = true ∨ k.completes n u t)

/-- The end state of a run that ends in `t`: every register, and the host's temporary (70_reset_and_hazards.md R295). -/
def endState (t : State) : Regs × Word := (t.regs, t.host.t)

end Sys2Proof.Machine
end

