-- ==== Sys2Proof/Certificates/Slice0/Obligations.lean ====
section
/-! DEFINITION. The statements for the provers, in the order of OBLIGATIONS.json. Each docstring names the rules of
spec/ it comes from, or the model's own choice it rests on. -/

open Sys2Proof Sys2Proof.Machine

/-! ## Decoding and encoding -/

/-- Words written out from the encoding tables of 30_encoding.md R91, R92, R93 decode to the instructions they stand
for, and a BUSREQ word the block never drives (R101) decodes to none. The byte order is the model's (log 15). -/
def Obligations.TableWordsDecode : Prop :=
  decodeTableWord 40 0x0100000000 = some (.rdStatus 0) ∧
  decodeTableWord 40 0x0F00000000 = some (.rdUnmapped 15 0) ∧
  decodeTableWord 40 0x1000000002 = some (.wrCmd 2) ∧
  decodeTableWord 40 0x1312345678 = some (.wrRo2to3 3 0x12345678) ∧
  decodeTableWord 40 0x1900000001 = some (.wrUnmapped 9 1) ∧
  decodeTableWord 40 0x2000000000 = none ∧
  decodeTableWord 8 0x01 = some .handshake ∧
  decodeTableWord 8 0x07 = some (.reserved04to07 0x07) ∧
  decodeTableWord 8 0x80 = some (.reserved80toFF 0x80) ∧
  decodeTableWord 24 0x255F0 = some .sendHs1 ∧
  decodeTableWord 24 0xE0000 = some .recvFrame ∧
  decodeTableWord 24 0x20000 = none

/-- For every well-formed instruction, decoding what the encoder writes gives it back: as a word of its format, as a
byte string, and as a word of the opcode table (30_encoding.md R90 to R93; the byte order is the model's, log 15). -/
def Obligations.DecodeOfEncodeIsTheInstruction : Prop :=
  ∀ i : Instr, i.wellFormed = true →
    decode i.format (encode i) = .ok i ∧
    decodeBytes i.format (encodeBytes i) = .ok i ∧
    decodeTableWord (8 * i.format.bytes) (encode i) = some i

/-- The other direction (30_encoding.md R97, R98, R101): each of the 2^37 HOSTACC words and of the 256 opcodes is one
well-formed instruction of its format whose encoding is that word, and so is each BUSREQ word that decodes at all. -/
def Obligations.EveryDecodedWordIsItsInstructionsEncoding : Prop :=
  (∀ w : HostAccWord, (decodeHostAcc w).wellFormed = true ∧ (decodeHostAcc w).format = .hostAcc ∧
    encode (decodeHostAcc w) = w.toNat) ∧
  (∀ op : Byte, (decodeCmd8 op).wellFormed = true ∧ (decodeCmd8 op).format = .cmd8 ∧
    encode (decodeCmd8 op) = op.toNat) ∧
  (∀ (w : BusReqWord) (i : Instr), decodeBusReq w = .ok i → i.wellFormed = true ∧ i.format = .busReq ∧
    encode i = w.toNat)

/-- The rows of the opcode table do not overlap: a well-formed instruction's word is admitted by a row of its format
only if that is the instruction's own row. -/
def Obligations.EncodedWordsMatchNoOtherRow : Prop :=
  ∀ i j : Instr, i.wellFormed = true → i.format = j.format → j.row.admits (encode i) = true → j.row = i.row

/-- A BUSRSP word is `{OK, ERR, RDATA}` with OK in bit 64, ERR in 63:48 and RDATA in 47:0, and no bit is lost in either
direction (30_encoding.md R94). -/
def Obligations.BusResponseWordLayout : Prop :=
  (∀ r : BusRsp, r.word.toNat = 2 ^ 64 * r.ok.toNat + 2 ^ 48 * r.err.toNat + r.rdata.toNat ∧
    decodeBusRsp r.word = r) ∧
  (∀ w : BusRspWord, (decodeBusRsp w).word = w)

/-- The byte offset `4k` of the register map is word `k`, in `MemRead` and in `MemWrite` (10_state.md R39, 20_memory.md
R63), and the platform's byte address of that word is `BASE + 4k` (R76). Every other offset or address, misaligned or
outside the 64 bytes, cannot be presented: the model's reading (log 18). -/
def Obligations.PlatformAddressSelectsOneWord : Prop :=
  (∀ (off : Nat) (v : Word) (k : RegIdx), off = 4 * k.toNat →
    memRead off = some (.access (hostAccWord false k 0)) ∧ memWrite off v = some (.access (hostAccWord true k v))) ∧
  (∀ (off : Nat) (v : Word), (∀ k : RegIdx, off ≠ 4 * k.toNat) → memRead off = none ∧ memWrite off v = none) ∧
  (∀ (a : Nat) (k : RegIdx), wordIndex a = some k ↔ a = Config.base + 4 * k.toNat)

/-! ## A step runs the decoded instruction -/

/-- What one step does around `exec` (10_state.md R50, 30_encoding.md R93, R97). Outside reset, `s.beginCycle` is the
state after the host's own work of the cycle. If the host presents the HOSTACC word `w`, the step runs
`decodeHostAcc w` on it, then, when the pre-edge state drives a BUSREQ word, the instruction that word decodes to on
the result, then the end of the cycle. With no access only the second is run; in IDLE only the first; in a settle
state the counter step takes the second's place. The order of the host's work in a cycle is the model's (log 6). -/
def Obligations.StepRunsTheDecodedInstructions : Prop :=
  ∀ s s₁ t : State, s.pins.rst = false →
    ((∃ w, s.beginCycle.hostWord = some w ∧ exec (decodeHostAcc w) s.beginCycle = .next s₁) ∨
      (s.beginCycle.hostWord = none ∧ s₁ = s.beginCycle)) →
    ((∃ q i, busWord s.regs.state = some q ∧ decodeBusReq q = .ok i ∧ exec i s₁ = .next t) ∨
      (s.regs.state = .rfSettle1 ∧ t = s₁.mapRegs (settleStep .rfAddr)) ∨
      (s.regs.state = .rfSettle2 ∧ t = s₁.mapRegs (settleStep .rfRead)) ∨
      ((s.regs.state = .idle ∨ ∃ k, s.regs.state = .reserved k) ∧ t = s₁)) →
    step s = .next t.endCycle

/-- No instruction and no cycle ends in a fault or a refusal: the block has one exception and it goes on after it
(60_exceptions.md R250, R252), the access decoder is total (30_encoding.md R97). That a wait is a next state and no
fault is the model's choice (log 10). A step moves to the next cycle's inputs and keeps F_CLK. -/
def Obligations.EveryInstructionAndStepGoesOn : Prop :=
  (∀ (i : Instr) (s : State), ∃ t, exec i s = .next t) ∧
  (∀ s : State, ∃ t, step s = .next t ∧ t.env = s.env.tail ∧ t.clock = s.clock)

/-- The frame of every instruction. None changes F_CLK, the inputs or anything of the host but its temporary `t`; only
a host read changes `t`, and a host read changes no register of the block (40_register_access.md R120, 20_memory.md
R66). The draw counter, the model's own (log 2), moves only where a settle state is entered. -/
def Obligations.InstructionFrame : Prop :=
  ∀ (i : Instr) (s t : State), exec i s = .next t →
    t.clock = s.clock ∧ t.env = s.env ∧ t.host = { s.host with t := t.host.t } ∧
    (t.host.t ≠ s.host.t → t.regs = s.regs ∧ t.draws = s.draws ∧ i.format = .hostAcc ∧ encode i < 2 ^ 36) ∧
    (t.draws ≠ s.draws → t.draws = s.draws + 1 ∧ s.regs.state ≠ t.regs.state ∧
      (t.regs.state = .rfSettle1 ∨ t.regs.state = .rfSettle2))

/-- The host's access and the sequencer act on the same pre-edge registers and commit together (10_state.md R50): in
IDLE the edge writes what the access alone writes; in any other state it writes what the sequencer alone writes, but
for BADCMD and OVERRUN, which are what the access alone writes. -/
def Obligations.EdgeCommitsBothPartsOfThePreEdgeState : Prop :=
  ∀ s h q : State, s.pins.rst = false → hostPart s = .next h → sequencerPart s.regs.state s = .next q →
    ∃ t, clockEdge s = .next t ∧ t.host = h.host ∧
      t.regs = if s.regs.state = .idle then h.regs
        else { q.regs with badCmd := h.regs.badCmd, overrun := h.regs.overrun }

/-! ## Host reads -/

/-- RD_STATUS returns the STATUS word, bit for bit (10_state.md R41), and changes nothing else; a write to STATUS
is ignored. -/
def Obligations.StatusReadReturnsTheStatusLayout : Prop :=
  (∀ (d : Word) (s : State), ∃ v : Word, exec (.rdStatus d) s = .next { s with host := { s.host with t := v } } ∧
    v.toNat = (if s.regs.state = .idle then 0 else 1) + 2 * s.regs.done.toNat + 4 * s.regs.err.toNat
      + 8 * s.regs.frameValid.toNat + 16 * s.regs.hsOk.toNat + 32 * s.regs.badCmd.toNat
      + 64 * s.regs.overrun.toNat + 2 ^ 8 * s.regs.errOp.toNat + 2 ^ 16 * s.regs.state.code.toNat) ∧
  (∀ (d : Word) (s : State), exec (.wrRo1 d) s = .next s) ∧
  (∀ c : ClockRate, readWord (Regs.reset c) 1 = 0)

/-- The codes of `S.state` (10_state.md R22): the seven named ones are 0 to 6, the reserved ones 7 to 15, and no two
states share one. -/
def Obligations.SequencerStateCodes : Prop :=
  SeqState.idle.code = 0 ∧ SeqState.hsW1.code = 1 ∧ SeqState.hsW2.code = 2 ∧ SeqState.rfSettle1.code = 3 ∧
  SeqState.rfAddr.code = 4 ∧ SeqState.rfSettle2.code = 5 ∧ SeqState.rfRead.code = 6 ∧
  (∀ i : Fin 9, (SeqState.reserved i).code.toNat = 7 + i.val) ∧
  (∀ a b : SeqState, a.code = b.code → a = b) ∧ (∀ c : BitVec 4, ∃ a : SeqState, a.code = c)

/-- RD_ERRCODE, RD_FRAME0 and RD_FRAME1 return the words of 10_state.md R42, R43, R44, and change nothing else; writes
to the three words are ignored; they read 0 after reset. -/
def Obligations.ErrcodeAndFrameReads : Prop :=
  (∀ (d : Word) (s : State), ∃ v : Word, exec (.rdErrcode d) s = .next { s with host := { s.host with t := v } } ∧
    v.toNat = s.regs.errCode.toNat) ∧
  (∀ (d : Word) (s : State), ∃ v : Word, exec (.rdFrame0 d) s = .next { s with host := { s.host with t := v } } ∧
    v.toNat = (frameByte s.regs.frame 0).toNat + 2 ^ 8 * (frameByte s.regs.frame 1).toNat
      + 2 ^ 16 * (frameByte s.regs.frame 2).toNat + 2 ^ 24 * (frameByte s.regs.frame 3).toNat ∧
    v.toNat = s.regs.frame.toNat % 2 ^ 32) ∧
  (∀ (d : Word) (s : State), ∃ v : Word, exec (.rdFrame1 d) s = .next { s with host := { s.host with t := v } } ∧
    v.toNat = (frameByte s.regs.frame 4).toNat + 2 ^ 8 * (frameByte s.regs.frame 5).toNat ∧
    v.toNat = s.regs.frame.toNat / 2 ^ 32) ∧
  (∀ (a : RegIdx) (d : Word) (s : State), exec (.wrRo2to3 a d) s = .next s ∧ exec (.wrRo4to7 a d) s = .next s) ∧
  (∀ c : ClockRate, readWord (Regs.reset c) 2 = 0 ∧ readWord (Regs.reset c) 3 = 0 ∧ readWord (Regs.reset c) 4 = 0)

/-- RD_JOY, RD_ACC and RD_BTN return the decoded fields packed as 10_state.md R45, R46, R47 lay them out, with the
fields of the held frame `b0 .. b5` as 43_decoder.md R190 to R196 give them, and change nothing else; writes to the
three words are ignored, and JOY and ACC read 0 after reset. -/
def Obligations.DecodedWordReads : Prop :=
  (∀ (d : Word) (s : State) (b : Nat → Nat), (∀ i, b i = (frameByte s.regs.frame i).toNat) →
    (∃ v : Word, exec (.rdJoy d) s = .next { s with host := { s.host with t := v } } ∧
      v.toNat = b 0 + 2 ^ 8 * b 1) ∧
    (∃ v : Word, exec (.rdAcc d) s = .next { s with host := { s.host with t := v } } ∧
      v.toNat = (4 * b 2 + b 5 / 4 % 4) + 2 ^ 10 * (4 * b 3 + b 5 / 16 % 4) + 2 ^ 20 * (4 * b 4 + b 5 / 64 % 4)) ∧
    (∃ v : Word, exec (.rdBtn d) s = .next { s with host := { s.host with t := v } } ∧
      v.toNat = (1 - b 5 % 2) + 2 * (1 - b 5 / 2 % 2))) ∧
  (∀ (a : RegIdx) (d : Word) (s : State), exec (.wrRo4to7 a d) s = .next s) ∧
  (∀ c : ClockRate, readWord (Regs.reset c) 5 = 0 ∧ readWord (Regs.reset c) 6 = 0)

/-- REG_READ, whichever of the sixteen words is read (40_register_access.md R120): RD_CMD and RD_UNMAPPED put 0 in the
host's temporary and change nothing else; and a HOSTACC word with WE = 0 puts the word's value, taken from the state of
the cycle, there; CMD and words 8 to 15 read 0; right after reset BTN reads 3 and STATUS 0. -/
def Obligations.EveryHostReadReturnsItsWord : Prop :=
  (∀ (d : Word) (s : State), exec (.rdCmd d) s = .next { s with host := { s.host with t := 0 } }) ∧
  (∀ (a : RegIdx) (d : Word) (s : State), (Instr.rdUnmapped a d).wellFormed = true →
    exec (.rdUnmapped a d) s = .next { s with host := { s.host with t := 0 } }) ∧
  (∀ (w : HostAccWord) (s : State), hostAccWe w = false →
    ∃ v : Word, exec (decodeHostAcc w) s = .next { s with host := { s.host with t := v } } ∧
      (hostAccAddr w = 0 ∨ 8 ≤ (hostAccAddr w).toNat → v = 0) ∧
      (hostAccAddr w = 1 → v = statusWord s.regs) ∧ (hostAccAddr w = 2 → v = errcodeWord s.regs) ∧
      (hostAccAddr w = 3 → v = frame0Word s.regs) ∧ (hostAccAddr w = 4 → v = frame1Word s.regs) ∧
      (hostAccAddr w = 5 → v = joyWord s.regs) ∧ (hostAccAddr w = 6 → v = accWord s.regs) ∧
      (hostAccAddr w = 7 → v = btnWord s.regs) ∧
      (s.hostWord = some w → s.regRdata = v)) ∧
  (∀ c : ClockRate, readWord (Regs.reset c) 7 = 3 ∧ readWord (Regs.reset c) 1 = 0)

/-! ## Host writes -/

/-- A write to a read-only or unmapped word has no effect (40_register_access.md R128): the four instructions leave the
whole state, and so does every HOSTACC write word with ADDR other than 0. -/
def Obligations.WritesToOtherWordsAreIgnored : Prop :=
  (∀ (a : RegIdx) (d : Word) (s : State), exec (.wrRo1 d) s = .next s ∧ exec (.wrRo2to3 a d) s = .next s ∧
    exec (.wrRo4to7 a d) s = .next s ∧ exec (.wrUnmapped a d) s = .next s) ∧
  (∀ (w : HostAccWord) (s : State), hostAccWe w = true → hostAccAddr w ≠ 0 → exec (decodeHostAcc w) s = .next s)

/-- A CMD write runs the command its low byte decodes to, whatever the 24 bits above it (30_encoding.md R92, R97;
40_register_access.md R121). -/
def Obligations.CmdWriteRunsItsOpcode : Prop :=
  ∀ (d : Word) (s : State), exec (.wrCmd d) s = exec (decodeCmd8 (BitVec.ofNat 8 d.toNat)) s

/-- NOP changes nothing in any state, so it sets no OVERRUN while busy, and an all-zero CMD write is one
(40_register_access.md R123). -/
def Obligations.NopChangesNothing : Prop :=
  decodeCmd8 0x00 = .nop ∧ (∀ s : State, exec .nop s = .next s) ∧
  (∀ (d : Word) (s : State), d.toNat % 256 = 0 → exec (.wrCmd d) s = .next s)

/-- A reserved opcode sets BADCMD in every state, IDLE or busy, and changes nothing else (40_register_access.md R125):
each of the seven RESERVED instructions, and every CMD write of an opcode 0x03 to 0xFF. -/
def Obligations.ReservedOpcodesSetBadcmdOnly : Prop :=
  (∀ (op : Byte) (s : State),
    exec .reserved03 s = .next { s with regs := { s.regs with badCmd := true } } ∧
    exec (.reserved04to07 op) s = .next { s with regs := { s.regs with badCmd := true } } ∧
    exec (.reserved08to0F op) s = .next { s with regs := { s.regs with badCmd := true } } ∧
    exec (.reserved10to1F op) s = .next { s with regs := { s.regs with badCmd := true } } ∧
    exec (.reserved20to3F op) s = .next { s with regs := { s.regs with badCmd := true } } ∧
    exec (.reserved40to7F op) s = .next { s with regs := { s.regs with badCmd := true } } ∧
    exec (.reserved80toFF op) s = .next { s with regs := { s.regs with badCmd := true } }) ∧
  (∀ (d : Word) (s : State), 3 ≤ d.toNat % 256 →
    exec (.wrCmd d) s = .next { s with regs := { s.regs with badCmd := true } })

/-- HANDSHAKE in IDLE (41_handshake.md R140, with the shared writes of 40_register_access.md R122): the result flags,
the error record and the sticky flags are cleared, HS_OK too, and the sequencer goes to HS_W1; FRAME, the counter and
all else stay. The CMD write of opcode 0x01 does the same. -/
def Obligations.HandshakeAccepted : Prop :=
  ∀ s : State, s.regs.state = .idle →
    ∀ i : Instr, (i = .handshake ∨ ∃ d : Word, d.toNat % 256 = 1 ∧ i = .wrCmd d) →
      exec i s = .next { s with regs := { s.regs with
        state := .hsW1, done := false, err := false, errOp := 0, errCode := 0, frameValid := false, hsOk := false,
        badCmd := false, overrun := false } }

/-- READ_FRAME in IDLE (42_frame_reader.md R160, R161, with the shared writes of 40_register_access.md R122): the same
clearing but HS_OK stays; the sequencer goes to RF_SETTLE1 with `S.cnt = d - 1` for a drawn length `d` of
`[T_MIN, T_MAX]`, which is the scheduled one if that is in the range. The CMD write of opcode 0x02 does the same.
That an unscheduled draw is a free value, counted in `draws`, is the model's choice (log 2). -/
def Obligations.ReadFrameAccepted : Prop :=
  ∀ s : State, s.regs.state = .idle →
    ∀ i : Instr, (i = .readFrame ∨ ∃ d : Word, d.toNat % 256 = 2 ∧ i = .wrCmd d) →
      ∃ (n : Nat) (cnt : SettleCounter), tMin s.clock ≤ n ∧ n ≤ tMax s.clock ∧ cnt.clock = s.clock ∧ cnt.toNat + 1 = n ∧
        (∀ m, s.pins.draw = some m → tMin s.clock ≤ m → m ≤ tMax s.clock → n = m) ∧
        exec i s = .next { s with
          draws := s.draws + 1
          regs := { s.regs with
            state := .rfSettle1, cnt := cnt, done := false, err := false, errOp := 0, errCode := 0,
            frameValid := false, badCmd := false, overrun := false } }

/-- HANDSHAKE or READ_FRAME while busy sets OVERRUN and changes nothing else (40_register_access.md R126): the written
command is discarded, even in the cycle of a completion edge, and the registers after the edge are those the sequencer
alone leaves, with OVERRUN set. -/
def Obligations.CommandWhileBusySetsOverrunOnly : Prop :=
  (∀ s : State, s.regs.state ≠ .idle →
    ∀ i : Instr,
      (i = .handshake ∨ i = .readFrame ∨ ∃ d : Word, (d.toNat % 256 = 1 ∨ d.toNat % 256 = 2) ∧ i = .wrCmd d) →
      exec i s = .next { s with regs := { s.regs with overrun := true } }) ∧
  (∀ (s q t : State) (d : Word), s.pins.rst = false → s.regs.state ≠ .idle →
    s.beginCycle.hostWord = some (hostAccWord true 0 d) → (d.toNat % 256 = 1 ∨ d.toNat % 256 = 2) →
    sequencerPart s.regs.state s = .next q → step s = .next t → t.regs = { q.regs with overrun := true })

/-- Every admitted length can be drawn, at the accept edge and at SEND_ADDR's success alike, and no other
(00_scope.md R10, 42_frame_reader.md R161). That the draw is an input of the cycle is the model's choice (log 2). -/
def Obligations.EveryAdmittedDelayCanBeDrawn : Prop :=
  ∀ (s : State) (d : Nat),
    (s.regs.state = .idle →
      ((tMin s.clock ≤ d ∧ d ≤ tMax s.clock) ↔
        ∃ p t, exec .readFrame (s.withPins p) = .next t ∧ t.regs.cnt.toNat + 1 = d)) ∧
    (s.regs.state = .rfAddr →
      ((tMin s.clock ≤ d ∧ d ≤ tMax s.clock) ↔
        ∃ p t, p.busDone = true ∧ p.bus.ok = true ∧ exec .sendAddr (s.withPins p) = .next t ∧
          t.regs.cnt.toNat + 1 = d))

/-- BADCMD and OVERRUN are cleared, and IDLE is left, by the accept edge alone (40_register_access.md R122, 10_state.md
R31, R32): a step outside reset after which a sticky flag is 0 that was 1, or the block is busy that was IDLE, is one
whose access is a CMD write of HANDSHAKE or READ_FRAME in IDLE. -/
def Obligations.OnlyAnAcceptClearsStickyFlags : Prop :=
  ∀ s t : State, s.pins.rst = false → step s = .next t →
    ((s.regs.badCmd = true ∧ t.regs.badCmd = false) ∨ (s.regs.overrun = true ∧ t.regs.overrun = false) ∨
      (s.regs.state = .idle ∧ t.regs.state ≠ .idle)) →
    s.regs.state = .idle ∧ ∃ w, s.beginCycle.hostWord = some w ∧ startsCommand w = true

/-- What a STATUS read in the cycle after a CMD write tells (40_register_access.md R124, R127): an accepted command
shows BUSY = 1, DONE = 0 and SEQ_STATE 1 or 3; one written while busy, OVERRUN = 1 and no new command, even at a
completion edge; a reserved opcode, BADCMD = 1. -/
def Obligations.StatusAfterACmdWrite : Prop :=
  ∀ (s t : State) (d : Word), s.pins.rst = false → s.beginCycle.hostWord = some (hostAccWord true 0 d) →
    step s = .next t →
    (d.toNat % 256 = 1 → s.regs.state = .idle → t.regs.state = .hsW1 ∧ t.regs.done = false ∧ busy t.regs = true) ∧
    (d.toNat % 256 = 2 → s.regs.state = .idle →
      t.regs.state = .rfSettle1 ∧ t.regs.done = false ∧ busy t.regs = true) ∧
    ((d.toNat % 256 = 1 ∨ d.toNat % 256 = 2) → s.regs.state ≠ .idle →
      t.regs.overrun = true ∧ (s.pins.busDone = true → s.pins.bus.ok = false → busReq s.regs.state = true →
        t.regs.state = .idle ∧ t.regs.done = true) ∧
      (s.pins.busDone = true → s.pins.bus.ok = true → s.regs.state = .hsW2 ∨ s.regs.state = .rfRead →
        t.regs.state = .idle ∧ t.regs.done = true)) ∧
    (3 ≤ d.toNat % 256 → t.regs.badCmd = true)

/-- In IDLE with no command started a step changes no register but BADCMD, so a group of reads begun then is one
snapshot (20_memory.md R67, R80; 70_reset_and_hazards.md R287). -/
def Obligations.IdleWithoutAcceptKeepsTheResults : Prop :=
  ∀ s t : State, s.pins.rst = false → s.regs.state = .idle →
    (∀ w, s.beginCycle.hostWord = some w → startsCommand w = false) → step s = .next t →
    t.regs = { s.regs with badCmd := t.regs.badCmd } ∧ (s.regs.badCmd = true → t.regs.badCmd = true)

/-! ## Bus transactions -/

/-- The bus outputs of every sequencer state, the BUSREQ words they form, and the bytes a write sends, first byte
first (20_memory.md R62, R68; 30_encoding.md R93, R101). -/
def Obligations.BusOutputsOfEachState : Prop :=
  (∀ st : SeqState,
    (st = .hsW1 → (busReq st, busOp st, busLen st, busWdata st) = (true, false, 2, 0x55F0)) ∧
    (st = .hsW2 → (busReq st, busOp st, busLen st, busWdata st) = (true, false, 2, 0x00FB)) ∧
    (st = .rfAddr → (busReq st, busOp st, busLen st, busWdata st) = (true, false, 1, 0x0000)) ∧
    (st = .rfRead → (busReq st, busOp st, busLen st, busWdata st) = (true, true, 6, 0x0000)) ∧
    (st ≠ .hsW1 → st ≠ .hsW2 → st ≠ .rfAddr → st ≠ .rfRead →
      (busReq st, busOp st, busLen st, busWdata st) = (false, false, 0, 0x0000))) ∧
  busWord .hsW1 = some 0x255F0 ∧ busWord .hsW2 = some 0x200FB ∧ busWord .rfAddr = some 0x10000 ∧
  busWord .rfRead = some 0xE0000 ∧
  (∀ (st : SeqState) (w : BusReqWord), busWord st = some w →
    w = 0x255F0 ∨ w = 0x200FB ∨ w = 0x10000 ∨ w = 0xE0000) ∧
  busBytes .hsW1 = [0xF0, 0x55] ∧ busBytes .hsW2 = [0xFB, 0x00] ∧ busBytes .rfAddr = [0x00]

/-- SEND_HS1 in HS_W1 (41_handshake.md R141): success goes to HS_W2, so that SEND_HS2 is requested in the very next
cycle; failure raises TransportError(1, code), so that it never is; without `bus_done` nothing is written. -/
def Obligations.SendHs1Cycle : Prop :=
  busWord .hsW2 = some 0x200FB ∧ busWord .idle = none ∧
  ∀ s : State, s.regs.state = .hsW1 →
    (s.pins.busDone = true → s.pins.bus.ok = true →
      exec .sendHs1 s = .next { s with regs := { s.regs with state := .hsW2 } }) ∧
    (s.pins.busDone = true → s.pins.bus.ok = false →
      exec .sendHs1 s = .next { s with regs := { s.regs with
        err := true, errOp := 1, errCode := s.pins.bus.err, done := true, state := .idle } }) ∧
    (s.pins.busDone = false → exec .sendHs1 s = .next s)

/-- SEND_HS2 in HS_W2 (41_handshake.md R142, R143): success goes to IDLE with DONE and HS_OK; failure raises
TransportError(2, code) and leaves HS_OK; without `bus_done` nothing is written. -/
def Obligations.SendHs2Cycle : Prop :=
  ∀ s : State, s.regs.state = .hsW2 →
    (s.pins.busDone = true → s.pins.bus.ok = true →
      exec .sendHs2 s = .next { s with regs := { s.regs with state := .idle, done := true, hsOk := true } }) ∧
    (s.pins.busDone = true → s.pins.bus.ok = false →
      exec .sendHs2 s = .next { s with regs := { s.regs with
        err := true, errOp := 2, errCode := s.pins.bus.err, done := true, state := .idle } }) ∧
    (s.pins.busDone = false → exec .sendHs2 s = .next s)

/-- SEND_ADDR in RF_ADDR (42_frame_reader.md R163): success draws the second delay and goes to RF_SETTLE2; failure
raises TransportError(3, code) and draws nothing; without `bus_done` nothing is written. The draw counter is the
model's (log 2). -/
def Obligations.SendAddrCycle : Prop :=
  ∀ s : State, s.regs.state = .rfAddr →
    (s.pins.busDone = true → s.pins.bus.ok = true →
      ∃ (n : Nat) (cnt : SettleCounter), tMin s.clock ≤ n ∧ n ≤ tMax s.clock ∧ cnt.clock = s.clock ∧ cnt.toNat + 1 = n ∧
        (∀ m, s.pins.draw = some m → tMin s.clock ≤ m → m ≤ tMax s.clock → n = m) ∧
        exec .sendAddr s = .next { s with
          draws := s.draws + 1, regs := { s.regs with cnt := cnt, state := .rfSettle2 } }) ∧
    (s.pins.busDone = true → s.pins.bus.ok = false →
      exec .sendAddr s = .next { s with regs := { s.regs with
        err := true, errOp := 3, errCode := s.pins.bus.err, done := true, state := .idle } }) ∧
    (s.pins.busDone = false → exec .sendAddr s = .next s)

/-- RECV_FRAME in RF_READ (42_frame_reader.md R165, R166, R167): success writes all 48 bits of FRAME with FRAME_VALID
and DONE and goes to IDLE; failure raises TransportError(4, code) and leaves FRAME and FRAME_VALID; without `bus_done`
nothing is written. -/
def Obligations.RecvFrameCycle : Prop :=
  ∀ s : State, s.regs.state = .rfRead →
    (s.pins.busDone = true → s.pins.bus.ok = true →
      exec .recvFrame s = .next { s with regs := { s.regs with
        frame := s.pins.bus.rdata, frameValid := true, done := true, state := .idle } }) ∧
    (s.pins.busDone = true → s.pins.bus.ok = false →
      exec .recvFrame s = .next { s with regs := { s.regs with
        err := true, errOp := 4, errCode := s.pins.bus.err, done := true, state := .idle } }) ∧
    (s.pins.busDone = false → exec .recvFrame s = .next s)

/-- A bus transaction that is not the one requested does nothing. The spec gives such an instruction no occasion: this
is the model's choice (log 8), after 20_memory.md R72. -/
def Obligations.UnrequestedTransactionDoesNothing : Prop :=
  ∀ s : State, (s.regs.state ≠ .hsW1 → exec .sendHs1 s = .next s) ∧ (s.regs.state ≠ .hsW2 → exec .sendHs2 s = .next s) ∧
    (s.regs.state ≠ .rfAddr → exec .sendAddr s = .next s) ∧ (s.regs.state ≠ .rfRead → exec .recvFrame s = .next s)

/-! ## The exception -/

/-- Taking the exception (60_exceptions.md R250, R251, R252): at the edge that samples a failing completion of the
outstanding transaction the command ends, with the cause in ERR_OP by the state it was raised in and the transport's
code in ERR_CODE; FRAME, FRAME_VALID, HS_OK and the counter are kept, BADCMD and OVERRUN are not cleared, no request
follows; and ERR is set by nothing else. -/
def Obligations.TransportErrorEndsTheCommand : Prop :=
  (∀ s : State, s.pins.rst = false → busReq s.regs.state = true → s.pins.busDone = true → s.pins.bus.ok = false →
    ∃ t, step s = .next t ∧ t.regs.err = true ∧ t.regs.errCode = s.pins.bus.err ∧ t.regs.done = true ∧
      t.regs.state = .idle ∧ busWord t.regs.state = none ∧
      (s.regs.state = .hsW1 → t.regs.errOp = 1) ∧ (s.regs.state = .hsW2 → t.regs.errOp = 2) ∧
      (s.regs.state = .rfAddr → t.regs.errOp = 3) ∧ (s.regs.state = .rfRead → t.regs.errOp = 4) ∧
      t.regs.frame = s.regs.frame ∧ t.regs.frameValid = s.regs.frameValid ∧ t.regs.hsOk = s.regs.hsOk ∧
      t.regs.cnt = s.regs.cnt ∧ (s.regs.badCmd = true → t.regs.badCmd = true) ∧
      (s.regs.overrun = true → t.regs.overrun = true)) ∧
  (∀ s t : State, step s = .next t → s.regs.err = false → t.regs.err = true →
    s.pins.rst = false ∧ busReq s.regs.state = true ∧ s.pins.busDone = true ∧ s.pins.bus.ok = false)

/-- The record of an error lasts until the next accepted command or reset (60_exceptions.md R257, 10_state.md R26 to
R28): as long as the block stays IDLE outside reset, ERR, ERR_OP, ERR_CODE, FRAME and FRAME_VALID are kept, and the
accept edge of the next command clears ERR, ERR_OP and ERR_CODE. -/
def Obligations.ErrorRecordLastsUntilTheNextAccept : Prop :=
  ∀ s t : State, s.pins.rst = false → s.regs.state = .idle → step s = .next t →
    (t.regs.state = .idle → t.regs.err = s.regs.err ∧ t.regs.errOp = s.regs.errOp ∧
      t.regs.errCode = s.regs.errCode ∧ t.regs.frame = s.regs.frame ∧ t.regs.frameValid = s.regs.frameValid) ∧
    (t.regs.state ≠ .idle → t.regs.err = false ∧ t.regs.errOp = 0 ∧ t.regs.errCode = 0 ∧ t.regs.frame = s.regs.frame)

/-! ## Reset -/

/-- A reset edge in any state (70_reset_and_hazards.md R280, R281): every register takes its reset value whatever the
host writes and the bus answers, the request is withdrawn, the words read their reset values, and a host read in that
cycle returns the pre-reset word. -/
def Obligations.ResetEdgeFromAnyState : Prop :=
  ∀ s : State, s.pins.rst = true →
    ∃ t, step s = .next t ∧
      t.regs = {
        state := .idle, done := false, err := false, errOp := 0, errCode := 0, frameValid := false,
        hsOk := false, badCmd := false, overrun := false, cnt := { clock := s.clock, value := 0 }, frame := 0 } ∧
      busWord t.regs.state = none ∧
      (∀ a : RegIdx, readWord t.regs a = if a = 7 then 3 else 0) ∧
      (∀ w, s.beginCycle.hostWord = some w → hostAccWe w = false →
        t.host.t = readWord s.regs (hostAccAddr w)) ∧
      ((s.beginCycle.hostWord = none ∨ ∃ w, s.beginCycle.hostWord = some w ∧ hostAccWe w = true) →
        t.host.t = s.host.t)

/-- The state after reset meets the invariants. The host's initial values beside its lifecycle state are the model's
(log 3). -/
def Obligations.ResetStateMeetsTheInvariants : Prop := State.reset.Inv ∧ launched State.reset

/-! ## Invariants -/

/-- Every step keeps the invariants of the block and of the host: the sequencer never holds a reserved code, ERR_OP is
0 to 4 and agrees with ERR, DONE implies not BUSY, a valid frame is a completed command's, the settle counter stays
below T_MAX, the DeviceHandle is held exactly while attached, and the poll timer is armed only in Registered
(10_state.md R27, R29, R33, R34; 00_scope.md R9; 44_host_protocol.md R225 to R231). That the host goes on as ever in a
cycle with a reset is the model's choice (log 23). -/
def Obligations.EveryStepKeepsTheInvariants : Prop :=
  ∀ s t : State, s.Inv → step s = .next t → t.Inv

/-- DONE = 1 implies BUSY = 0, kept by every step on its own (10_state.md R33). -/
def Obligations.DoneImpliesNotBusyIsKept : Prop :=
  ∀ s t : State, (s.regs.done = true → busy s.regs = false) → step s = .next t →
    (t.regs.done = true → busy t.regs = false)

/-- The sequencer visits the sequences of 10_state.md R23 and no others: the transitions of a step outside reset. -/
def Obligations.SequencerVisitsOnlyItsSequences : Prop :=
  ∀ s t : State, s.pins.rst = false → step s = .next t → t.regs.state ≠ s.regs.state →
    (s.regs.state = .idle ∧ (t.regs.state = .hsW1 ∨ t.regs.state = .rfSettle1)) ∨
    (s.regs.state = .hsW1 ∧ (t.regs.state = .hsW2 ∨ t.regs.state = .idle)) ∨
    (s.regs.state = .hsW2 ∧ t.regs.state = .idle) ∨
    (s.regs.state = .rfSettle1 ∧ t.regs.state = .rfAddr) ∨
    (s.regs.state = .rfAddr ∧ (t.regs.state = .rfSettle2 ∨ t.regs.state = .idle)) ∨
    (s.regs.state = .rfSettle2 ∧ t.regs.state = .rfRead) ∨
    (s.regs.state = .rfRead ∧ t.regs.state = .idle)

/-- Fail fast (41_handshake.md R146): SEND_HS2 is requested after a step only if SEND_HS1 completed with success at
its edge, or SEND_HS2 was already requested and not completed. -/
def Obligations.SecondHandshakeWriteOnlyAfterTheFirst : Prop :=
  ∀ s t : State, step s = .next t → busWord t.regs.state = some 0x200FB →
    s.pins.rst = false ∧
    ((busWord s.regs.state = some 0x255F0 ∧ s.pins.busDone = true ∧ s.pins.bus.ok = true) ∨
      (busWord s.regs.state = some 0x200FB ∧ s.pins.busDone = false))

/-- No partial frame (42_frame_reader.md R170, 10_state.md R37): FRAME changes only at a reset edge or at the success
completion of READ_FRAME, and then it is the 48 bits the transport delivered. -/
def Obligations.FrameChangesOnlyAsAWhole : Prop :=
  ∀ s t : State, step s = .next t → t.regs.frame ≠ s.regs.frame →
    (s.pins.rst = true ∧ t.regs = Regs.reset s.clock) ∨
    (s.pins.rst = false ∧ s.regs.state = .rfRead ∧ s.pins.busDone = true ∧ s.pins.bus.ok = true ∧
      t.regs.frame = s.pins.bus.rdata ∧ t.regs.frameValid = true ∧ t.regs.done = true ∧ t.regs.state = .idle)

/-- FRAME_VALID (10_state.md R29): it becomes 1 only at the success completion of READ_FRAME, which captures the
frame; while it stays 1 the frame is kept and no command is accepted. -/
def Obligations.FrameValidMeansTheLastCommandReadIt : Prop :=
  ∀ s t : State, s.Inv → step s = .next t → t.regs.frameValid = true →
    (s.regs.state = .rfRead ∧ s.pins.busDone = true ∧ s.pins.bus.ok = true ∧ t.regs.frame = s.pins.bus.rdata) ∨
    (s.regs.frameValid = true ∧ t.regs.frame = s.regs.frame ∧ s.regs.state = .idle ∧ t.regs.state = .idle)

/-- HS_OK (10_state.md R30): it becomes 0 only at an accept edge of HANDSHAKE or a reset, 1 only at the success
completion of HANDSHAKE; every other step leaves it. -/
def Obligations.HsOkFollowsTheLastHandshake : Prop :=
  ∀ s t : State, step s = .next t → t.regs.hsOk ≠ s.regs.hsOk →
    (s.pins.rst = true ∧ t.regs.hsOk = false) ∨
    (s.regs.state = .idle ∧ t.regs.state = .hsW1 ∧ t.regs.hsOk = false) ∨
    (s.regs.state = .hsW2 ∧ s.pins.busDone = true ∧ s.pins.bus.ok = true ∧ t.regs.state = .idle ∧
      t.regs.done = true ∧ t.regs.hsOk = true)

/-- A reserved code of `S.state` is held until reset: BUSY = 1, no request, no step of the sequencer
(60_exceptions.md R266). That the host's writes still set BADCMD and OVERRUN in it is the model's reading (log 9). -/
def Obligations.ReservedStateIsHeldUntilReset : Prop :=
  ∀ (s t : State) (i : Fin 9), s.regs.state = .reserved i → s.pins.rst = false → step s = .next t →
    t.regs = { s.regs with badCmd := t.regs.badCmd, overrun := t.regs.overrun } ∧ busy t.regs = true ∧
      busWord t.regs.state = none

/-! ## What the block does not depend on -/

/-- Spurious completions (20_memory.md R72): in a cycle without a request, or with `rst = 1`, a step does not depend on
`bus_done`, `bus_ok`, `bus_err` or `bus_rdata`. -/
def Obligations.SpuriousCompletionIsIgnored : Prop :=
  ∀ (s : State) (p q : Pins), p.rst = q.rst → p.draw = q.draw →
    (busReq s.regs.state = false ∨ p.rst = true) → step (s.withPins p) = step (s.withPins q)

/-- Ignored response fields (20_memory.md R73): `bus_ok`, `bus_err` and `bus_rdata` without `bus_done`, `bus_err` on
success, `bus_rdata` on failure and for the three writes. -/
def Obligations.UnusedResponseFieldsAreIgnored : Prop :=
  ∀ (s : State) (p q : Pins), p.rst = q.rst → p.draw = q.draw → p.busDone = q.busDone →
    (p.busDone = false ∨
      (p.bus.ok = true ∧ q.bus.ok = true ∧
        (p.bus.rdata = q.bus.rdata ∨ busOp s.regs.state = false)) ∨
      (p.bus.ok = false ∧ q.bus.ok = false ∧ p.bus.err = q.bus.err)) →
    step (s.withPins p) = step (s.withPins q)

/-- A host access in a busy state touches nothing but BADCMD and OVERRUN, which it can only set (10_state.md R50,
60_exceptions.md R254): neither the state, the counter nor the results of the command in progress. -/
def Obligations.BusyAccessTouchesOnlyStickyFlags : Prop :=
  ∀ (i : Instr) (s t : State), i.format ≠ .busReq → s.regs.state ≠ .idle → exec i s = .next t →
    t.regs = { s.regs with badCmd := t.regs.badCmd, overrun := t.regs.overrun } ∧
      (s.regs.badCmd = true → t.regs.badCmd = true) ∧ (s.regs.overrun = true → t.regs.overrun = true) ∧
      t.draws = s.draws

/-! ## The frame decoder -/

/-- Acceleration composition, in the two forms the spec gives (43_decoder.md R199), for every frame. -/
def Obligations.AccelerationComposition : Prop :=
  ∀ f : Frame,
    decXAcc f = ((frameByte f 2).setWidth 10 <<< 2) ||| (((frameByte f 5) >>> 2) &&& 0b11).setWidth 10 ∧
    decYAcc f = ((frameByte f 3).setWidth 10 <<< 2) ||| (((frameByte f 5) >>> 4) &&& 0b11).setWidth 10 ∧
    decZAcc f = ((frameByte f 4).setWidth 10 <<< 2) ||| (((frameByte f 5) >>> 6) &&& 0b11).setWidth 10

/-- The decoder is a bijection between the 2^48 frames and the field tuples, with the inverse of 43_decoder.md R198. -/
def Obligations.FrameDecoderIsABijection : Prop :=
  (∀ f : Frame, encodeFrame (decodeFrame f) = f) ∧ (∀ d : DeviceRegs, decodeFrame (encodeFrame d) = d)

/-! ## Timing -/

/-- The settle bounds and the counter's width (00_scope.md R8, R9): the lengths from T_MIN up are those of at least
10 ms, the lengths up to T_MAX those of at most 20 ms; SETTLE_W, the width of `S.cnt` (10_state.md R35), is the smallest
of at least 1 that holds `0 .. T_MAX - 1`, and every step keeps the counter in that range. -/
def Obligations.SettleBoundsAndCounterWidth : Prop :=
  (∀ (c : ClockRate) (d : Nat), (tMin c ≤ d ↔ 10 * c.hz ≤ 1000 * d) ∧ (d ≤ tMax c ↔ 1000 * d ≤ 20 * c.hz)) ∧
  (∀ c : ClockRate, 1 ≤ settleWidth c ∧ tMax c ≤ 2 ^ settleWidth c ∧
    (∀ w, 1 ≤ w → tMax c ≤ 2 ^ w → settleWidth c ≤ w)) ∧
  (∀ s t : State, s.regs.cnt.toNat < tMax s.clock → step s = .next t → t.regs.cnt.toNat < tMax t.clock)

/-- A settle state lasts exactly as many cycles as were drawn (42_frame_reader.md R162, R164): with `S.cnt = n` it is
left at the `n+1`-st edge, for SEND_ADDR or RECV_FRAME, whatever the host and the bus do, if no reset comes. -/
def Obligations.SettleStateLastsExactlyItsDelay : Prop :=
  ∀ (n : Nat) (s : State), s.regs.cnt.toNat = n → (∀ k, k ≤ n → (s.cycleAt k).pins.rst = false) →
    (s.regs.state = .rfSettle1 →
      (∀ k, k ≤ n → ∃ t, steps k s = some t ∧ t.regs.state = .rfSettle1 ∧ t.regs.cnt.toNat = n - k) ∧
      ∃ t, steps (n + 1) s = some t ∧ t.regs.state = .rfAddr) ∧
    (s.regs.state = .rfSettle2 →
      (∀ k, k ≤ n → ∃ t, steps k s = some t ∧ t.regs.state = .rfSettle2 ∧ t.regs.cnt.toNat = n - k) ∧
      ∃ t, steps (n + 1) s = some t ∧ t.regs.state = .rfRead)

/-- The block has no timeout (20_memory.md R71, 60_exceptions.md R265): for any number of cycles without `bus_done`
and without reset it stays in its bus state with the same request, and the results it holds stay. -/
def Obligations.BusStateWaitsWithoutLimit : Prop :=
  ∀ (n : Nat) (s : State), busReq s.regs.state = true →
    (∀ k, k < n → (s.cycleAt k).pins.rst = false ∧ (s.cycleAt k).pins.busDone = false) →
    ∃ t, steps n s = some t ∧ t.regs = { s.regs with badCmd := t.regs.badCmd, overrun := t.regs.overrun }

/-- HANDSHAKE and its duration from the accept edge (41_handshake.md R146, R148, R149): `L1` cycles in HS_W1; if
SEND_HS1 fails there, the command ends at that edge with ERR_OP = 1; else `L2` cycles in HS_W2 with no cycle between,
and the command ends after `L1 + L2`, with HS_OK, or with ERR_OP = 2 if SEND_HS2 fails. -/
def Obligations.HandshakeDuration : Prop :=
  ∀ (s : State) (L1 : Nat) (d : Word), 1 ≤ L1 →
    s.regs.state = .idle → s.beginCycle.hostWord = some (hostAccWord true 0 d) → d.toNat % 256 = 1 →
    (∀ k, k ≤ L1 → (s.cycleAt k).pins.rst = false) →
    (∀ k, 1 ≤ k → k < L1 → (s.cycleAt k).pins.busDone = false) → (s.cycleAt L1).pins.busDone = true →
    (∀ k, 1 ≤ k → k ≤ L1 → ∃ t, steps k s = some t ∧ t.regs.state = .hsW1 ∧ t.regs.done = false) ∧
    ((s.cycleAt L1).pins.bus.ok = false →
      ∃ t, steps (L1 + 1) s = some t ∧ t.regs.state = .idle ∧ t.regs.done = true ∧ t.regs.err = true ∧
        t.regs.errOp = 1 ∧ t.regs.errCode = (s.cycleAt L1).pins.bus.err ∧ t.regs.hsOk = false) ∧
    ((s.cycleAt L1).pins.bus.ok = true →
      ∀ L2, 1 ≤ L2 → (∀ k, k ≤ L1 + L2 → (s.cycleAt k).pins.rst = false) →
        (∀ k, L1 < k → k < L1 + L2 → (s.cycleAt k).pins.busDone = false) →
        (s.cycleAt (L1 + L2)).pins.busDone = true →
        (∀ k, L1 < k → k ≤ L1 + L2 → ∃ t, steps k s = some t ∧ t.regs.state = .hsW2 ∧ t.regs.done = false) ∧
        ∃ t, steps (L1 + L2 + 1) s = some t ∧ t.regs.state = .idle ∧ t.regs.done = true ∧
          ((s.cycleAt (L1 + L2)).pins.bus.ok = true → t.regs.err = false ∧ t.regs.hsOk = true) ∧
          ((s.cycleAt (L1 + L2)).pins.bus.ok = false → t.regs.err = true ∧ t.regs.errOp = 2 ∧
            t.regs.errCode = (s.cycleAt (L1 + L2)).pins.bus.err ∧ t.regs.hsOk = false))

/-- READ_FRAME, its fixed order and its duration from the accept edge (42_frame_reader.md R171, R173): `d1` cycles of
RF_SETTLE1 and `L3` of RF_ADDR; if SEND_ADDR fails there, the command ends after `d1 + L3` with ERR_OP = 3; else `d2`
of RF_SETTLE2 and `L4` of RF_READ, and the command ends after `d1 + L3 + d2 + L4`, with the delivered frame, or with
ERR_OP = 4 and the frame it held if RECV_FRAME fails; whatever else the host does meanwhile. That the two draws are
scheduled in the cycles they are made in is the model's choice (log 2). -/
def Obligations.ReadFrameOrderAndDuration : Prop :=
  ∀ (s : State) (d1 L3 : Nat) (d : Word), 1 ≤ L3 → tMin s.clock ≤ d1 → d1 ≤ tMax s.clock →
    s.regs.state = .idle → s.beginCycle.hostWord = some (hostAccWord true 0 d) → d.toNat % 256 = 2 →
    (∀ k, k ≤ d1 + L3 → (s.cycleAt k).pins.rst = false) →
    (s.cycleAt 0).pins.draw = some d1 →
    (∀ k, d1 < k → k < d1 + L3 → (s.cycleAt k).pins.busDone = false) →
    (s.cycleAt (d1 + L3)).pins.busDone = true →
    (∀ k, 1 ≤ k → k ≤ d1 → ∃ t, steps k s = some t ∧ t.regs.state = .rfSettle1 ∧ t.regs.done = false) ∧
    (∀ k, d1 < k → k ≤ d1 + L3 → ∃ t, steps k s = some t ∧ t.regs.state = .rfAddr ∧ t.regs.done = false) ∧
    ((s.cycleAt (d1 + L3)).pins.bus.ok = false →
      ∃ t, steps (d1 + L3 + 1) s = some t ∧ t.regs.state = .idle ∧ t.regs.done = true ∧ t.regs.err = true ∧
        t.regs.errOp = 3 ∧ t.regs.errCode = (s.cycleAt (d1 + L3)).pins.bus.err ∧ t.regs.frameValid = false ∧
        t.regs.frame = s.regs.frame ∧ t.regs.hsOk = s.regs.hsOk) ∧
    ((s.cycleAt (d1 + L3)).pins.bus.ok = true →
      ∀ d2 L4, 1 ≤ L4 → tMin s.clock ≤ d2 → d2 ≤ tMax s.clock →
        (∀ k, k ≤ d1 + L3 + d2 + L4 → (s.cycleAt k).pins.rst = false) →
        (s.cycleAt (d1 + L3)).pins.draw = some d2 →
        (∀ k, d1 + L3 + d2 < k → k < d1 + L3 + d2 + L4 → (s.cycleAt k).pins.busDone = false) →
        (s.cycleAt (d1 + L3 + d2 + L4)).pins.busDone = true →
        (∀ k, d1 + L3 < k → k ≤ d1 + L3 + d2 →
          ∃ t, steps k s = some t ∧ t.regs.state = .rfSettle2 ∧ t.regs.done = false) ∧
        (∀ k, d1 + L3 + d2 < k → k ≤ d1 + L3 + d2 + L4 →
          ∃ t, steps k s = some t ∧ t.regs.state = .rfRead ∧ t.regs.done = false) ∧
        ∃ t, steps (d1 + L3 + d2 + L4 + 1) s = some t ∧ t.regs.state = .idle ∧ t.regs.done = true ∧
          t.regs.hsOk = s.regs.hsOk ∧
          ((s.cycleAt (d1 + L3 + d2 + L4)).pins.bus.ok = true → t.regs.err = false ∧ t.regs.frameValid = true ∧
            t.regs.frame = (s.cycleAt (d1 + L3 + d2 + L4)).pins.bus.rdata) ∧
          ((s.cycleAt (d1 + L3 + d2 + L4)).pins.bus.ok = false → t.regs.err = true ∧ t.regs.errOp = 4 ∧
            t.regs.errCode = (s.cycleAt (d1 + L3 + d2 + L4)).pins.bus.err ∧ t.regs.frameValid = false ∧
            t.regs.frame = s.regs.frame))

/-! ## The host -/

/-- The lifecycle (44_host_protocol.md R225 to R228, R230). Removed and Failed are left by no step, Registered only for
Removed, and no step goes back. The attach makes its moves: with the handle allocated to Handshaking, presenting
HANDSHAKE, without it to Failed and no access; from the STATUS read of a HANDSHAKE that ended well to Verifying, with
READ_FRAME as the next access; from the first verification read that ended well to the second; from the second to
Registered, with the axes configured and the poll timer armed, or to Failed if the registration fails. That the
timer then begins its first interval, at count 0, is the model's choice (log 19), and so are what the host logs of the
two reads (log 20) and that it goes on so in a cycle with a reset (log 23). -/
def Obligations.LifecycleOnlyMovesForward : Prop :=
  (∀ s t : State, step s = .next t → t.host.life ≠ s.host.life →
    s.host.life ≠ .removed ∧ s.host.life ≠ .failed ∧ t.host.life ≠ .uninitialized ∧
    (s.host.life = .registered → t.host.life = .removed) ∧
    (s.host.life = .verifying → t.host.life ≠ .handshaking)) ∧
  (∀ s : State, s.host.life = .uninitialized → s.host.free = true → s.cycle.calls.attach = true →
    (s.cycle.calls.allocOk = true → s.beginCycle.hostWord = some (hostAccWord true 0 0x01) ∧
      ∃ t, step s = .next t ∧ t.host.life = .handshaking ∧ t.host.handle = true ∧ t.host.script = attachScript ∧
        t.host.pos = 2) ∧
    (s.cycle.calls.allocOk = false → s.beginCycle.hostWord = none ∧
      ∃ t, step s = .next t ∧ t.host.life = .failed ∧ t.host.handle = false ∧
        t.host.surfaced = some .allocation)) ∧
  (∀ s : State, s.host.script = attachScript → s.host.pos = 4 → s.host.life = .handshaking →
    s.regs.err = false → s.regs.hsOk = true →
    ∃ t, step s = .next t ∧ t.host.life = .verifying ∧ t.host.handle = s.host.handle ∧
      t.host.access = some (hostAccWord true 0 0x02)) ∧
  (∀ s : State, s.host.script = attachScript → s.host.pos = 11 → s.host.life = .verifying →
    s.regs.done = true → s.regs.err = false →
    ∃ t, step s = .next t ∧ t.host.life = .verifying ∧ t.host.logged = s.host.logged ++ [.warmUp] ∧
      t.host.access = some (hostAccWord true 0 0x02) ∧ t.host.script = attachScript ∧ t.host.pos = 16) ∧
  (∀ s : State, s.host.script = attachScript → s.host.pos = 18 → s.host.life = .verifying →
    s.host.detaching = false → s.regs.done = true → s.regs.err = false →
    ∃ t, step s = .next t ∧ t.host.logged = s.host.logged ++ [.baseline] ∧ t.host.free = true ∧
      (s.cycle.calls.registerOk = true → t.host.life = .registered ∧ t.host.handle = s.host.handle ∧
        t.host.timerArmed = true ∧ t.host.sinceTick = 0 ∧
        t.host.axes = some { min := 0, max := 255, fuzz := 4, flat := 8 }) ∧
      (s.cycle.calls.registerOk = false → t.host.life = .failed ∧ t.host.handle = false ∧ t.host.axes = none ∧
        t.host.timerArmed = s.host.timerArmed ∧ t.host.surfaced = some .registration))

/-- Ticks (44_host_protocol.md R222, R224, R231; 00_scope.md R11). The period is the whole number of cycles next above
5 ms. In Registered with the timer armed and no detach request the timer counts every cycle and starts over at a tick;
a host that runs no script presents READ_FRAME, the first access of a poll, in the cycle of a tick, and nothing in any
other. A host with a script in flight, or not Registered, or with its timer not armed, does the same whether a tick is
due or not: a tick in flight is dropped and not kept. That the nominal period is exact to the cycle, and where it
begins, is the model's choice (log 19), and so are that a poll is in flight until its last line (log 13) and that the
host does the same in a cycle with a reset (log 23). -/
def Obligations.TickInFlightIsDropped : Prop :=
  (∀ c : ClockRate, 5 * c.hz ≤ 1000 * tTick c ∧ 1000 * tTick c < 5 * c.hz + 1000) ∧
  (∀ s : State, s.host.life = .registered → s.host.timerArmed = true → s.cycle.calls.detach = false →
    ∃ t, step s = .next t ∧ t.host.timerArmed = true ∧
      (tTick s.clock ≤ s.host.sinceTick + 1 → t.host.sinceTick = 0) ∧
      (s.host.sinceTick + 1 < tTick s.clock → t.host.sinceTick = s.host.sinceTick + 1) ∧
      (s.host.free = true → tTick s.clock ≤ s.host.sinceTick + 1 →
        s.beginCycle.hostWord = some (hostAccWord true 0 0x02) ∧ t.host.script = pollScript ∧ t.host.pos = 2 ∧
          t.host.life = .registered ∧ (s.pins.rst = false → s.regs.state = .idle → t.regs.state = .rfSettle1)) ∧
      (s.host.free = true → s.host.sinceTick + 1 < tTick s.clock → s.beginCycle.hostWord = none)) ∧
  (∀ (s : State) (n : Nat), (s.host.free = false ∨ s.host.life ≠ .registered ∨ s.host.timerArmed = false) →
    ∃ (t : State) (m : Nat), step s = .next t ∧ step (s.withSinceTick n) = .next (t.withSinceTick m))

/-- A poll that read its frame publishes the two keys, the two axes and the synchronisation, in this order and once, of
the frame the block holds (44_host_protocol.md R222, R223). A STATUS read with ERR = 0 leads to the JOY read; from
there, two steps, in IDLE and with no reset in the first; and the step of the BTN read alone, with the x and y kept
from JOY. That the host goes on with its poll in a cycle with a reset, which all but the first of the two steps may be,
is the model's choice (log 23). -/
def Obligations.SuccessfulPollPublishesInOrder : Prop :=
  (∀ s t : State, s.host.script = pollScript → s.host.pos = 4 → s.regs.err = false → step s = .next t →
    t.host.script = pollScript ∧ t.host.pos = 7 ∧ t.host.published = s.host.published) ∧
  (∀ s t u : State, s.host.script = pollScript → s.host.pos = 7 → s.regs.state = .idle → s.pins.rst = false →
    step s = .next t → step t = .next u →
    t.host.published = s.host.published ∧
    u.host.published = s.host.published ++
      [.reportKey .z (decZPressed s.regs.frame), .reportKey .c (decCPressed s.regs.frame),
       .reportAbs .x (decX s.regs.frame), .reportAbs .y (decY s.regs.frame), .sync]) ∧
  (∀ s t : State, s.host.script = pollScript → s.host.pos = 9 → step s = .next t →
    t.host.published = s.host.published ++
      [.reportKey .z (decZPressed s.regs.frame), .reportKey .c (decCPressed s.regs.frame),
       .reportAbs .x s.host.seen.x, .reportAbs .y s.host.seen.y, .sync])

/-- A poll that failed publishes nothing, logs the error with its cause and code, and leaves the device Registered
(44_host_protocol.md R222, R230, R232): from its STATUS read with ERR = 1, two steps without reset or requests. The form
of a log entry is the model's choice (log 20). -/
def Obligations.FailedPollPublishesNothing : Prop :=
  ∀ s t u : State, s.host.script = pollScript → s.host.pos = 4 → s.host.life = .registered →
    s.regs.state = .idle → s.regs.err = true →
    (∀ k, k ≤ 1 → (s.cycleAt k).pins.rst = false ∧ (s.cycleAt k).calls = .quiet) → s.host.detaching = false →
    step s = .next t → step t = .next u →
    u.host.published = s.host.published ∧ u.host.life = .registered ∧
      u.host.logged = s.host.logged ++ [.failedPoll (.transport s.regs.errOp s.regs.errCode)] ∧ u.host.free = true

/-- Attach is all-or-nothing (44_host_protocol.md R227, R228, R229, R232): from the STATUS read after a HANDSHAKE that
ended with ERR = 1, or from the one that ends the wait for a verification read that did, two steps without reset leave
the host Failed, the handle and the publisher released, the first error surfaced, and no command issued. -/
def Obligations.FailedHandshakeFailsTheAttach : Prop :=
  ∀ s t u : State, s.host.script = attachScript →
    ((s.host.pos = 4 ∧ s.host.life = .handshaking) ∨
      ((s.host.pos = 11 ∨ s.host.pos = 18) ∧ s.host.life = .verifying ∧ s.regs.done = true)) →
    s.regs.state = .idle → s.regs.err = true →
    (∀ k, k ≤ 1 → (s.cycleAt k).pins.rst = false) →
    step s = .next t → step t = .next u →
    u.host.life = .failed ∧ u.host.handle = false ∧ u.host.axes = none ∧
      u.host.surfaced = some (.transport s.regs.errOp s.regs.errCode) ∧ u.regs = s.regs

/-- Detach (44_host_protocol.md R231): a request in Registered disarms the timer, and a tick in the same cycle starts
nothing, the request being heard before the tick (the model's order, log 6). A step with a request, or with one that
waits, leaves the host Removed if no script is in flight at its end, with the detachment logged and the handle
released; else Registered with the request waiting. That it waits for the poll's last line and not only for DONE (log 13),
the form of a log entry (log 20), and that the host does the same in a cycle with a reset (log 23), are the model's
choice. -/
def Obligations.DetachDisarmsThenRemoves : Prop :=
  ∀ s t : State, s.host.life = .registered →
    (s.cycle.calls.detach = true ∨ (s.host.detaching = true ∧ s.host.Inv)) → step s = .next t →
    t.host.timerArmed = false ∧
    (s.host.free = true → t.host.free = true ∧ t.host.script = s.host.script ∧
      t.host.logged = s.host.logged ++ [.detached]) ∧
    (t.host.free = true → t.host.life = .removed ∧ t.host.handle = false ∧ t.host.detaching = false ∧
      ∃ l, t.host.logged = l ++ [.detached]) ∧
    (t.host.free = false → t.host.life = .registered ∧ t.host.detaching = true)
end

