-- ==== Sys2Proof/Laws/Decode.lean ====
section
/-! SUPPORT. The fields of a word, its bytes, and what the encoder's words satisfy. -/

namespace Sys2Proof

/-! ## The fields of a HOSTACC word (30_encoding.md R91) -/

theorem hostAccWord_toNat (b : Bool) (a : RegIdx) (d : Word) :
    (hostAccWord b a d).toNat = 2 ^ 36 * b.toNat + 2 ^ 32 * a.toNat + d.toNat := by
  simp only [hostAccWord, BitVec.toNat_append, BitVec.toNat_ofBool, Nat.shiftLeft_eq]
  rw [Nat.mul_comm b.toNat, ← Nat.two_pow_add_eq_or_of_lt a.isLt, Nat.mul_comm, ← Nat.two_pow_add_eq_or_of_lt d.isLt]
  ring

theorem hostAccAddr_toNat (w : HostAccWord) : (hostAccAddr w).toNat = w.toNat / 2 ^ 32 % 2 ^ 4 := by
  simp [hostAccAddr, Nat.shiftRight_eq_div_pow]

theorem hostAccWdata_toNat (w : HostAccWord) : (hostAccWdata w).toNat = w.toNat % 2 ^ 32 := by
  simp [hostAccWdata]

theorem hostAccWe_eq (w : HostAccWord) : hostAccWe w = decide (2 ^ 36 ≤ w.toNat) := by
  have := w.isLt
  simp only [hostAccWe, BitVec.getLsbD, Nat.testBit_eq_decide_div_mod_eq, decide_eq_decide]
  omega

@[simp] theorem hostAccAddr_word (b : Bool) (a : RegIdx) (d : Word) : hostAccAddr (hostAccWord b a d) = a := by
  apply BitVec.eq_of_toNat_eq
  have := a.isLt; have := d.isLt
  rw [hostAccAddr_toNat, hostAccWord_toNat]
  cases b <;> simp only [Bool.toNat_true, Bool.toNat_false] <;> omega

@[simp] theorem hostAccWdata_word (b : Bool) (a : RegIdx) (d : Word) : hostAccWdata (hostAccWord b a d) = d := by
  apply BitVec.eq_of_toNat_eq
  have := a.isLt; have := d.isLt
  rw [hostAccWdata_toNat, hostAccWord_toNat]
  cases b <;> simp only [Bool.toNat_true, Bool.toNat_false] <;> omega

@[simp] theorem hostAccWe_word (b : Bool) (a : RegIdx) (d : Word) : hostAccWe (hostAccWord b a d) = b := by
  have := a.isLt; have := d.isLt
  rw [hostAccWe_eq, hostAccWord_toNat]
  cases b <;> simp only [Bool.toNat_true, Bool.toNat_false, decide_eq_true_eq, decide_eq_false_iff_not] <;> omega

/-- The three fields make the word. -/
theorem hostAccWord_fields (w : HostAccWord) :
    hostAccWord (hostAccWe w) (hostAccAddr w) (hostAccWdata w) = w := by
  apply BitVec.eq_of_toNat_eq
  have := w.isLt
  rw [hostAccWord_toNat, hostAccAddr_toNat, hostAccWdata_toNat, hostAccWe_eq]
  by_cases h : 2 ^ 36 ≤ w.toNat <;> simp only [h, decide_true, decide_false, Bool.toNat_true, Bool.toNat_false] <;> omega

/-! ## Bytes -/

theorem ofBytes_toBytes (n w : Nat) (h : w < 256 ^ n) : ofBytes (toBytes n w) = w := by
  induction n generalizing w with
  | zero => simp at h; simp [toBytes, ofBytes, h]
  | succ n ih =>
    have : w / 256 < 256 ^ n := by
      rw [Nat.div_lt_iff_lt_mul (by norm_num)]; rw [pow_succ] at h; exact h
    simp only [toBytes, ofBytes, ih _ this, BitVec.toNat_ofNat]
    omega

@[simp] theorem length_toBytes (n w : Nat) : (toBytes n w).length = n := by
  induction n generalizing w with
  | zero => rfl
  | succ n ih => simp [toBytes, ih]

/-- A word that fits its format is decoded from its bytes as from itself. -/
theorem decodeBytes_toBytes (f : Format) (w : Nat) (h : w < 2 ^ f.width) :
    decodeBytes f (toBytes f.bytes w) = decode f w := by
  have : w < 256 ^ f.bytes := lt_of_lt_of_le h (by cases f <;> decide)
  simp [decodeBytes, ofBytes_toBytes _ _ this]

/-- The table's number of bits gives the format back. -/
@[simp] theorem formatOfBits_bytes (f : Format) : formatOfBits (8 * f.bytes) = some f := by
  cases f <;> rfl

theorem decodeTableWord_of_decode {f : Format} {w : Nat} {i : Instr} (h : w < 2 ^ f.width) (hd : decode f w = .ok i) :
    decodeTableWord (8 * f.bytes) w = some i := by
  have : w < 256 ^ f.bytes := lt_of_lt_of_le h (by cases f <;> decide)
  simp [decodeTableWord, decodeBytes_toBytes f w h, this, hd]

/-! ## What the encoder writes -/

/-- An encoded instruction fits its format. -/
theorem encode_lt (i : Instr) : encode i < 2 ^ i.format.width := by
  cases i <;> simp only [encode, Instr.format, Format.width]
  all_goals first | exact BitVec.isLt _ | decide

@[simp] theorem decodeHostAcc_word (b : Bool) (a : RegIdx) (d : Word) :
    decodeHostAcc (hostAccWord b a d) = if b then decodeWrite a d else decodeRead a d := by
  simp [decodeHostAcc]
end Sys2Proof
end

