-- ==== Sys2Proof/Laws/FrameDecoder.lean ====
section
/-! SUPPORT. The bytes of a frame and the decoded fields, as numbers. -/

namespace Sys2Proof.Machine

/-! ## Bit vectors as numbers -/

theorem toNat_append_add {m n : Nat} (x : BitVec m) (y : BitVec n) :
    (x ++ y).toNat = 2 ^ n * x.toNat + y.toNat := by
  rw [BitVec.toNat_append, Nat.shiftLeft_eq, Nat.mul_comm, Nat.two_pow_add_eq_or_of_lt y.isLt]

theorem toNat_extractLsb_div {n : Nat} (x : BitVec n) (s m : Nat) :
    (x.extractLsb' s m).toNat = x.toNat / 2 ^ s % 2 ^ m := by
  rw [BitVec.extractLsb'_toNat, Nat.shiftRight_eq_div_pow]

/-! ## The bytes of a frame (10_state.md R37) -/

theorem frameByte_toNat (f : Frame) (i : Nat) : (frameByte f i).toNat = f.toNat / 2 ^ (8 * i) % 256 := by
  simp [frameByte, Nat.shiftRight_eq_div_pow]

/-- The six bytes make the frame. -/
theorem frame_bytes (f : Frame) :
    f.toNat = (frameByte f 0).toNat + 2 ^ 8 * (frameByte f 1).toNat + 2 ^ 16 * (frameByte f 2).toNat
      + 2 ^ 24 * (frameByte f 3).toNat + 2 ^ 32 * (frameByte f 4).toNat + 2 ^ 40 * (frameByte f 5).toNat := by
  have := f.isLt
  simp only [frameByte_toNat]
  generalize f.toNat = n at *
  have h0 := Nat.div_add_mod n 256
  have h1 := Nat.div_add_mod (n / 256) 256
  have h2 := Nat.div_add_mod (n / 256 / 256) 256
  have h3 := Nat.div_add_mod (n / 256 / 256 / 256) 256
  have h4 := Nat.div_add_mod (n / 256 / 256 / 256 / 256) 256
  have h5 : n / 256 / 256 / 256 / 256 / 256 % 256 = n / 256 / 256 / 256 / 256 / 256 := by
    apply Nat.mod_eq_of_lt
    simp only [Nat.div_div_eq_div_mul]
    omega
  simp only [Nat.div_div_eq_div_mul] at h0 h1 h2 h3 h4 h5
  norm_num at *
  omega

/-- A frame given by six bytes has these bytes. -/
theorem frameByte_of_bytes (f : Frame) (b : Fin 6 → Byte)
    (h : f.toNat = (b 0).toNat + 2 ^ 8 * (b 1).toNat + 2 ^ 16 * (b 2).toNat + 2 ^ 24 * (b 3).toNat
      + 2 ^ 32 * (b 4).toNat + 2 ^ 40 * (b 5).toNat) (i : Fin 6) : frameByte f i = b i := by
  apply BitVec.eq_of_toNat_eq
  rw [frameByte_toNat]
  have h0 := (b 0).isLt
  have h1 := (b 1).isLt
  have h2 := (b 2).isLt
  have h3 := (b 3).isLt
  have h4 := (b 4).isLt
  have h5 := (b 5).isLt
  generalize f.toNat = n at *
  fin_cases i <;> simp <;> omega

/-! ## The decoded fields (43_decoder.md R192 to R196) -/

/-- The three acceleration fields: four times the high byte, and two bits of `b5`. -/
theorem composeAcc_toNat (hi b5 : Byte) :
    (composeAcc hi b5 0b00001100#8 2).toNat = 4 * hi.toNat + b5.toNat / 4 % 4 ∧
    (composeAcc hi b5 0b00110000#8 4).toNat = 4 * hi.toNat + b5.toNat / 16 % 4 ∧
    (composeAcc hi b5 0b11000000#8 6).toNat = 4 * hi.toNat + b5.toNat / 64 % 4 := by
  have low : ∀ b : Byte,
      ((b &&& 0b00001100#8) >>> 2).toNat = b.toNat / 4 % 4 ∧ ((b &&& 0b00110000#8) >>> 4).toNat = b.toNat / 16 % 4 ∧
        ((b &&& 0b11000000#8) >>> 6).toNat = b.toNat / 64 % 4 := by decide
  have high : ∀ b : Byte, (b.setWidth 10 <<< 2).toNat = 2 ^ 2 * b.toNat := by decide
  have wide : ∀ b : Byte, (b.setWidth 10).toNat = b.toNat := by
    intro b
    simp
    omega
  obtain ⟨k1, k2, k3⟩ := low b5
  simp only [composeAcc, BitVec.toNat_or, high, wide, k1, k2, k3]
  refine ⟨?_, ?_, ?_⟩ <;> rw [← Nat.two_pow_add_eq_or_of_lt (by omega)]

theorem decZPressed_toNat (f : Frame) : (decZPressed f).toNat = 1 - (frameByte f 5).toNat % 2 := by
  have : ∀ b : Byte, (b &&& 1#8 == 0#8).toNat = 1 - b.toNat % 2 := by decide
  exact this _

theorem decCPressed_toNat (f : Frame) : (decCPressed f).toNat = 1 - (frameByte f 5).toNat / 2 % 2 := by
  have : ∀ b : Byte, (b &&& 2#8 == 0#8).toNat = 1 - b.toNat / 2 % 2 := by decide
  exact this _

/-! ## The inverse (43_decoder.md R198) -/

theorem encodeB5_toNat (d : DeviceRegs) :
    (encodeB5 d).toNat = (1 - d.zPressed.toNat) + 2 * (1 - d.cPressed.toNat) + 4 * (d.xAcc.toNat % 4)
      + 16 * (d.yAcc.toNat % 4) + 64 * (d.zAcc.toNat % 4) := by
  have low : ∀ b : Bool, (BitVec.ofBool (!b)).toNat = 1 - b.toNat := by decide
  unfold encodeB5
  change @BitVec.toNat (2 + 2 + 2 + 1 + 1) _ = _
  simp only [toNat_append_add, low, toNat_extractLsb_div]
  omega

theorem encodeFrame_toNat (d : DeviceRegs) :
    (encodeFrame d).toNat = d.x.toNat + 2 ^ 8 * d.y.toNat + 2 ^ 16 * (d.xAcc.toNat / 4)
      + 2 ^ 24 * (d.yAcc.toNat / 4) + 2 ^ 32 * (d.zAcc.toNat / 4) + 2 ^ 40 * (encodeB5 d).toNat := by
  have hx := d.xAcc.isLt
  have hy := d.yAcc.isLt
  have hz := d.zAcc.isLt
  unfold encodeFrame
  change @BitVec.toNat (8 + 8 + 8 + 8 + 8 + 8) _ = _
  simp only [toNat_append_add, toNat_extractLsb_div]
  have high : ∀ x : Nat, x < 2 ^ 10 → x / 2 ^ 2 % 2 ^ 8 = x / 4 := by omega
  rw [high _ hz, high _ hy, high _ hx]
  ring

end Sys2Proof.Machine
end

