-- ==== Sys2Proof/Laws/State.lean ====
section
/-! SUPPORT. One lemma per field per update of State. -/

namespace Sys2Proof.Machine

variable (s : State) (f : Regs → Regs) (w : Word) (st : SeqState)

@[simp] theorem State.mapRegs_regs : (s.mapRegs f).regs = f s.regs := rfl
@[simp] theorem State.mapRegs_host : (s.mapRegs f).host = s.host := rfl
@[simp] theorem State.mapRegs_env : (s.mapRegs f).env = s.env := rfl
@[simp] theorem State.mapRegs_draws : (s.mapRegs f).draws = s.draws := rfl

@[simp] theorem SettleCounter.load_clock (n : Nat) (c : SettleCounter) : (c.load n).clock = c.clock := rfl
@[simp] theorem SettleCounter.countDown_clock (c : SettleCounter) : c.countDown.clock = c.clock := rfl

/-- `F_CLK` is fixed when the block is built. -/
@[simp] theorem settleStep_clock (r : Regs) : (settleStep st r).cnt.clock = r.cnt.clock := by
  unfold settleStep
  split <;> rfl

@[simp] theorem State.setT_clock : (s.setT w).clock = s.clock := rfl
@[simp] theorem State.setT_regs : (s.setT w).regs = s.regs := rfl
@[simp] theorem State.setT_host : (s.setT w).host = { s.host with t := w } := rfl
@[simp] theorem State.setT_env : (s.setT w).env = s.env := rfl
@[simp] theorem State.setT_draws : (s.setT w).draws = s.draws := rfl

@[simp] theorem enterSettle_clock : (enterSettle st s).clock = s.clock := rfl
@[simp] theorem enterSettle_regs :
    (enterSettle st s).regs = { s.regs with cnt := s.regs.cnt.load (s.drawDelay - 1), state := st } := rfl
@[simp] theorem enterSettle_host : (enterSettle st s).host = s.host := rfl
@[simp] theorem enterSettle_env : (enterSettle st s).env = s.env := rfl
@[simp] theorem enterSettle_draws : (enterSettle st s).draws = s.draws + 1 := rfl

@[simp] theorem State.beginCycle_clock : s.beginCycle.clock = s.clock := rfl
@[simp] theorem State.beginCycle_regs : s.beginCycle.regs = s.regs := rfl
@[simp] theorem State.beginCycle_host : s.beginCycle.host = s.host.beginCycle (tTick s.clock) s.cycle.calls := rfl
@[simp] theorem State.beginCycle_env : s.beginCycle.env = s.env := rfl
@[simp] theorem State.beginCycle_draws : s.beginCycle.draws = s.draws := rfl
@[simp] theorem State.beginCycle_pins : s.beginCycle.pins = s.pins := rfl
@[simp] theorem State.beginCycle_cycle : s.beginCycle.cycle = s.cycle := rfl

@[simp] theorem State.endCycle_clock : s.endCycle.clock = s.clock := rfl
@[simp] theorem State.endCycle_regs : s.endCycle.regs = s.regs := rfl
@[simp] theorem State.endCycle_host : s.endCycle.host = s.host.endCycle s.cycle.calls := rfl
@[simp] theorem State.endCycle_env : s.endCycle.env = s.env.tail := rfl
@[simp] theorem State.endCycle_draws : s.endCycle.draws = s.draws := rfl

/-- The cycle, the pins and the draw depend on the environment, the clock and the draw counter alone. -/
theorem State.cycle_congr {s t : State} (h : s.env = t.env) : s.cycle = t.cycle := by
  simp only [State.cycle, h]

theorem State.pins_congr {s t : State} (h : s.env = t.env) : s.pins = t.pins := by
  simp only [State.pins, State.cycle_congr h]

@[simp] theorem State.mapRegs_pins : (s.mapRegs f).pins = s.pins := rfl
@[simp] theorem State.mapRegs_cycle : (s.mapRegs f).cycle = s.cycle := rfl
theorem State.drawDelay_congr {s t : State} (hc : s.clock = t.clock) (he : s.env = t.env) (hd : s.draws = t.draws) :
    s.drawDelay = t.drawDelay := by
  simp only [State.drawDelay, State.pins_congr he, hc, hd]

@[simp] theorem State.setT_pins : (s.setT w).pins = s.pins := rfl
@[simp] theorem State.setT_cycle : (s.setT w).cycle = s.cycle := rfl
@[simp] theorem enterSettle_pins : (enterSettle st s).pins = s.pins := rfl
@[simp] theorem enterSettle_cycle : (enterSettle st s).cycle = s.cycle := rfl

@[simp] theorem andThen_next (g : State → Result) : andThen (.next s) g = g s := rfl
@[simp] theorem nextOf_next : nextOf (.next s : Result) = some s := rfl

end Sys2Proof.Machine
end

