-- ==== Sys2Proof/Laws/Ops.lean ====
section
/-! SUPPORT. What each shared operation can do, said once. -/

namespace Sys2Proof.Machine

/-! ## Settle delays -/

/-- `1 <= T_MIN <= T_MAX` (00_scope.md R7). -/
theorem one_le_tMin (c : ClockRate) : 1 ≤ tMin c := by
  have := c.atLeast100
  unfold tMin
  omega

theorem tMin_le_tMax (c : ClockRate) : tMin c ≤ tMax c := by
  have := c.atLeast100
  unfold tMin tMax
  omega

/-- Whatever it is fed, the delay source answers an admitted length. -/
theorem admitDelay_bounds (c : ClockRate) (d : Nat) : tMin c ≤ admitDelay c d ∧ admitDelay c d ≤ tMax c := by
  have := tMin_le_tMax c
  unfold admitDelay
  omega

/-- An admitted length is answered as it is. -/
theorem admitDelay_of_mem {c : ClockRate} {d : Nat} (h₁ : tMin c ≤ d) (h₂ : d ≤ tMax c) : admitDelay c d = d := by
  unfold admitDelay
  omega

theorem drawDelay_bounds (s : State) : tMin s.clock ≤ s.drawDelay ∧ s.drawDelay ≤ tMax s.clock :=
  admitDelay_bounds _ _

/-- `SETTLE_W` bits hold `0 .. T_MAX - 1` (00_scope.md R9). -/
theorem tMax_le_settleWidth (c : ClockRate) : tMax c ≤ 2 ^ settleWidth c := by
  have h : tMax c - 1 < 2 ^ settleWidth c := Nat.lt_log2_self
  omega

/-- A load below `T_MAX` loses no bit (10_state.md R35). -/
theorem SettleCounter.load_toNat {c : SettleCounter} {n : Nat} (h : n < tMax c.clock) : (c.load n).toNat = n := by
  have hw := tMax_le_settleWidth c.clock
  show (BitVec.ofNat (settleWidth c.clock) n).toNat = n
  rw [BitVec.toNat_ofNat]
  exact Nat.mod_eq_of_lt (by omega)

/-- A count down of a counter that is not 0 takes one off. -/
theorem SettleCounter.countDown_toNat {c : SettleCounter} (h : c.toNat ≠ 0) : c.countDown.toNat = c.toNat - 1 := by
  have h1 : (1#(settleWidth c.clock)).toNat = 1 := by
    rw [BitVec.toNat_ofNat]
    exact Nat.mod_eq_of_lt (Nat.one_lt_two_pow (by unfold settleWidth; omega))
  have hle : 1#(settleWidth c.clock) ≤ c.value := by
    rw [BitVec.le_def, h1]
    unfold SettleCounter.toNat at h
    omega
  show (c.value - 1#(settleWidth c.clock)).toNat = c.value.toNat - 1
  rw [BitVec.toNat_sub_of_le hle, h1]

/-- The counter of a settle state just entered, in the drawn length (42_frame_reader.md R160, R163). -/
theorem load_drawDelay_toNat {c : SettleCounter} {s : State} (h : c.clock = s.clock) :
    (c.load (s.drawDelay - 1)).toNat + 1 = s.drawDelay := by
  have hd := drawDelay_bounds s
  have h1 := one_le_tMin s.clock
  rw [SettleCounter.load_toNat (by rw [h]; omega)]
  omega

/-- One cycle of a settle state, in the counter's number (42_frame_reader.md R162, R164). -/
theorem settleStep_of_zero {after : SeqState} {r : Regs} (h : r.cnt.toNat = 0) :
    settleStep after r = { r with state := after } :=
  if_pos (BitVec.eq_of_toNat_eq (by simpa [SettleCounter.toNat] using h))

theorem settleStep_of_pos {after : SeqState} {r : Regs} (h : r.cnt.toNat ≠ 0) :
    settleStep after r = { r with cnt := r.cnt.countDown } :=
  if_neg fun e => h (by unfold SettleCounter.toNat; rw [e]; rfl)

/-- The settle step neither reads nor writes the sticky flags. -/
theorem settleStep_flags (after : SeqState) (r : Regs) (b o : Bool) :
    settleStep after { r with badCmd := b, overrun := o } =
      { settleStep after r with badCmd := b, overrun := o } := by
  by_cases h : r.cnt.toNat = 0
  · rw [settleStep_of_zero h, settleStep_of_zero (by exact h)]
  · rw [settleStep_of_pos h, settleStep_of_pos (by exact h)]

/-- A settle step keeps the counter below `T_MAX`. -/
theorem settleStep_cnt_lt {after : SeqState} {r : Regs} (h : r.cnt.toNat < tMax r.cnt.clock) :
    (settleStep after r).cnt.toNat < tMax (settleStep after r).cnt.clock := by
  by_cases h0 : r.cnt.toNat = 0
  · rw [settleStep_of_zero h0]
    exact h
  · rw [settleStep_of_pos h0]
    show r.cnt.countDown.toNat < tMax r.cnt.clock
    rw [SettleCounter.countDown_toNat h0]
    omega

/-! ## The sequencer's choice -/

@[simp] theorem requested_hsW1 : requested .hsW1 = some .sendHs1 := by decide
@[simp] theorem requested_hsW2 : requested .hsW2 = some .sendHs2 := by decide
@[simp] theorem requested_rfAddr : requested .rfAddr = some .sendAddr := by decide
@[simp] theorem requested_rfRead : requested .rfRead = some .recvFrame := by decide

/-! ## Bus transactions -/

theorem busTransaction_wait {st op success} {s : State} (h : s.pins.busDone = false) :
    busTransaction st op success s = s := by
  simp [busTransaction, busCycle, h]

theorem busTransaction_success {st op success} {s : State} (hs : s.regs.state = st)
    (h : s.pins.busDone = true) (hk : s.pins.bus.ok = true) : busTransaction st op success s = success s := by
  simp [busTransaction, busCycle, hs, h, hk]

theorem busTransaction_failure {st op success} {s : State} (hs : s.regs.state = st)
    (h : s.pins.busDone = true) (hk : s.pins.bus.ok = false) :
    busTransaction st op success s = s.mapRegs (raiseTransportError op s.pins.bus.err) := by
  simp [busTransaction, busCycle, hs, h, hk]

theorem busTransaction_elsewhere {st op success} {s : State} (hs : s.regs.state ≠ st) :
    busTransaction st op success s = s := by
  simp [busTransaction, hs]

/-! ## Commands -/

theorem acceptOrOverrun_idle {start} {s : State} (h : s.regs.state = .idle) :
    acceptOrOverrun start s = start (s.mapRegs acceptCommon) := by
  simp [acceptOrOverrun, h]

theorem acceptOrOverrun_busy {start} {s : State} (h : s.regs.state ≠ .idle) :
    acceptOrOverrun start s = s.mapRegs setOverrun := by
  simp [acceptOrOverrun, h]

/-! ## The CMD write: one of four effects -/

theorem execWrCmd_cases (w : Word) (s : State) :
    (opcodeOf w = 0x00#8 ∧ exec (.wrCmd w) s = .next s) ∨
    (opcodeOf w = 0x01#8 ∧ exec (.wrCmd w) s = .next (acceptOrOverrun handshakeStart s)) ∨
    (opcodeOf w = 0x02#8 ∧ exec (.wrCmd w) s = .next (acceptOrOverrun readFrameStart s)) ∨
    (3 ≤ (opcodeOf w).toNat ∧ exec (.wrCmd w) s = .next (s.mapRegs setBadCmd)) := by
  have e : exec (.wrCmd w) s = execWrCmd w s := rfl
  by_cases h0 : opcodeOf w = 0x00#8
  · exact .inl ⟨h0, by simp [e, execWrCmd, h0, execNop]⟩
  by_cases h1 : opcodeOf w = 0x01#8
  · exact .inr (.inl ⟨h1, by simp [e, execWrCmd, h1, execHandshake]⟩)
  by_cases h2 : opcodeOf w = 0x02#8
  · exact .inr (.inr (.inl ⟨h2, by simp [e, execWrCmd, h2, execReadFrame]⟩))
  refine .inr (.inr (.inr ⟨?_, by simp [e, execWrCmd, h0, h1, h2]⟩))
  have n0 := BitVec.toNat_ne_iff_ne.mpr h0
  have n1 := BitVec.toNat_ne_iff_ne.mpr h1
  have n2 := BitVec.toNat_ne_iff_ne.mpr h2
  simp only [BitVec.toNat_ofNat, Nat.reducePow, Nat.reduceMod] at n0 n1 n2
  omega

/-! ## The decoder of accesses: a read, or a write of one of two kinds -/

theorem decodeRead_exec (a : RegIdx) (d : Word) (s : State) : exec (decodeRead a d) s = .next (hostRead a s) := by
  unfold decodeRead
  split <;> rfl

theorem decodeWrite_exec (a : RegIdx) (d : Word) (s : State) :
    exec (decodeWrite a d) s = if a = 0#4 then exec (.wrCmd d) s else .next s := by
  unfold decodeWrite
  repeat' split
  all_goals rfl

/-- Every HOSTACC word: a read, a command write, or an ignored write (30_encoding.md R97). -/
theorem decodeHostAcc_exec (w : HostAccWord) (s : State) :
    exec (decodeHostAcc w) s =
      if hostAccWe w then
        if hostAccAddr w = 0#4 then exec (.wrCmd (hostAccWdata w)) s else .next s
      else .next (hostRead (hostAccAddr w) s) := by
  unfold decodeHostAcc
  split
  · exact decodeWrite_exec _ _ _
  · exact decodeRead_exec _ _ _

end Sys2Proof.Machine
end

