-- ==== Sys2Proof/Laws/Step.lean ====
section
/-! SUPPORT. What an access, the sequencer and a step can do, said once each. -/

namespace Sys2Proof.Machine

/-! ## The host's part of an edge -/

/-- The opcode a cycle's access writes to CMD, if it is such a write. -/
def cmdWritten (s : State) : Option Byte :=
  match s.hostWord with
  | some w => if hostAccWe w ∧ hostAccAddr w = 0#4 then some (opcodeOf (hostAccWdata w)) else none
  | none => none

/-- What the host's access writes to the block, by the command it writes. -/
theorem hostPart_cases (s : State) :
    ∃ s₁, hostPart s = .next s₁ ∧ s₁.clock = s.clock ∧ s₁.env = s.env ∧
      s₁.host = { s.host with t := s₁.host.t } ∧
      ((s₁.regs = s.regs ∧ s₁.draws = s.draws ∧ (cmdWritten s = none ∨ cmdWritten s = some 0x00#8)) ∨
       (s₁ = s.mapRegs setOverrun ∧ s.regs.state ≠ .idle ∧
          (cmdWritten s = some 0x01#8 ∨ cmdWritten s = some 0x02#8)) ∨
       (s₁ = s.mapRegs setBadCmd ∧ ∃ op, cmdWritten s = some op ∧ 3 ≤ op.toNat) ∨
       (s₁ = handshakeStart (s.mapRegs acceptCommon) ∧ s.regs.state = .idle ∧ cmdWritten s = some 0x01#8) ∨
       (s₁ = readFrameStart (s.mapRegs acceptCommon) ∧ s.regs.state = .idle ∧ cmdWritten s = some 0x02#8)) := by
  unfold hostPart cmdWritten
  cases s.hostWord with
  | none => exact ⟨s, rfl, rfl, rfl, rfl, .inl ⟨rfl, rfl, .inl rfl⟩⟩
  | some w =>
    simp only [decodeHostAcc_exec]
    by_cases hw : hostAccWe w = true
    · by_cases ha : hostAccAddr w = 0#4
      · simp only [hw, ha, and_self, if_true]
        obtain ⟨ho, he⟩ | ⟨ho, he⟩ | ⟨ho, he⟩ | ⟨ho, he⟩ := execWrCmd_cases (hostAccWdata w) s
        · exact ⟨s, he, rfl, rfl, rfl, .inl ⟨rfl, rfl, .inr (by rw [ho])⟩⟩
        · by_cases hi : s.regs.state = .idle
          · rw [acceptOrOverrun_idle hi] at he
            exact ⟨_, he, rfl, rfl, rfl,
              .inr (.inr (.inr (.inl ⟨rfl, hi, by rw [ho]⟩)))⟩
          · rw [acceptOrOverrun_busy hi] at he
            exact ⟨_, he, rfl, rfl, rfl,
              .inr (.inl ⟨rfl, hi, .inl (by rw [ho])⟩)⟩
        · by_cases hi : s.regs.state = .idle
          · rw [acceptOrOverrun_idle hi] at he
            exact ⟨_, he, rfl, rfl, rfl,
              .inr (.inr (.inr (.inr ⟨rfl, hi, by rw [ho]⟩)))⟩
          · rw [acceptOrOverrun_busy hi] at he
            exact ⟨_, he, rfl, rfl, rfl,
              .inr (.inl ⟨rfl, hi, .inr (by rw [ho])⟩)⟩
        · exact ⟨_, he, rfl, rfl, rfl, .inr (.inr (.inl ⟨rfl, _, rfl, ho⟩))⟩
      · exact ⟨s, by simp [hw, ha], rfl, rfl, rfl, .inl ⟨rfl, rfl, .inl (by simp [ha])⟩⟩
    · exact ⟨hostRead (hostAccAddr w) s, by simp [hw], rfl, rfl, rfl, .inl ⟨rfl, rfl, .inl (by simp [hw])⟩⟩

/-! ## The sequencer's part of an edge -/

/-- What the sequencer writes, by the state it is in; it never touches the host, the clock or the environment. -/
theorem sequencerPart_cases (st : SeqState) (s : State) (hs : st ≠ .idle → s.regs.state = st) :
    ∃ t, sequencerPart st s = .next t ∧ t.clock = s.clock ∧ t.env = s.env ∧ t.host = s.host ∧
      ((t = s ∧ (st = .idle ∨ (∃ i, st = .reserved i) ∨ (busReq st = true ∧ s.pins.busDone = false))) ∨
       (st = .rfSettle1 ∧ t = s.mapRegs (settleStep .rfAddr)) ∨
       (st = .rfSettle2 ∧ t = s.mapRegs (settleStep .rfRead)) ∨
       (s.pins.busDone = true ∧ s.pins.bus.ok = true ∧
         ((st = .hsW1 ∧ t = s.mapRegs fun r => { r with state := .hsW2 }) ∨
          (st = .hsW2 ∧ t = s.mapRegs completeHandshake) ∨
          (st = .rfAddr ∧ t = enterSettle .rfSettle2 s) ∨
          (st = .rfRead ∧ t = s.mapRegs (completeReadFrame s.pins.bus.rdata)))) ∨
       (s.pins.busDone = true ∧ s.pins.bus.ok = false ∧
         ∃ op, t = s.mapRegs (raiseTransportError op s.pins.bus.err) ∧
         ((st = .hsW1 ∧ op = 1) ∨ (st = .hsW2 ∧ op = 2) ∨ (st = .rfAddr ∧ op = 3) ∨ (st = .rfRead ∧ op = 4)))) := by
  cases st with
  | idle => exact ⟨s, rfl, rfl, rfl, rfl, .inl ⟨rfl, .inl rfl⟩⟩
  | reserved i => exact ⟨s, rfl, rfl, rfl, rfl, .inl ⟨rfl, .inr (.inl ⟨i, rfl⟩)⟩⟩
  | rfSettle1 => exact ⟨_, rfl, settleStep_clock _ _, rfl, rfl, .inr (.inl ⟨rfl, rfl⟩)⟩
  | rfSettle2 => exact ⟨_, rfl, settleStep_clock _ _, rfl, rfl, .inr (.inr (.inl ⟨rfl, rfl⟩))⟩
  | hsW1 | hsW2 | rfAddr | rfRead =>
    have hs := hs (by decide)
    simp only [sequencerPart, requested_hsW1, requested_hsW2, requested_rfAddr, requested_rfRead, exec, execSendHs1,
      execSendHs2, execSendAddr, execRecvFrame]
    rcases hd : s.pins.busDone with _ | _
    · exact ⟨s, by rw [busTransaction_wait hd], rfl, rfl, rfl, .inl ⟨rfl, .inr (.inr ⟨rfl, rfl⟩)⟩⟩
    rcases hk : s.pins.bus.ok with _ | _
    · rw [busTransaction_failure hs hd hk]
      exact ⟨_, rfl, rfl, rfl, rfl, by simp⟩
    · rw [busTransaction_success hs hd hk]
      exact ⟨_, rfl, rfl, rfl, rfl, by simp⟩

/-! ## A step -/

theorem step_reset {s : State} (h : s.pins.rst = true) :
    step s = .next (resetEdge s.beginCycle).endCycle := by
  simp [step, cycleStep, clockEdge, h]

/-- A step outside reset: the access on the pre-edge state, then the sequencer's part of the pre-edge `S.state`. -/
theorem step_run {s s₁ t : State} (h : s.pins.rst = false) (h₁ : hostPart s.beginCycle = .next s₁)
    (h₂ : sequencerPart s.regs.state s₁ = .next t) : step s = .next t.endCycle := by
  simp [step, cycleStep, clockEdge, h, h₁, h₂]

/-- The host's access leaves a busy sequencer where it is. -/
theorem hostPart_state {s s₁ : State} (h : hostPart s = .next s₁) (hb : s.regs.state ≠ .idle) :
    s₁.regs.state = s.regs.state := by
  obtain ⟨u, hu, -, -, -, hc⟩ := hostPart_cases s
  obtain rfl : s₁ = u := by rw [h] at hu; cases hu; rfl
  obtain ⟨hr, -⟩ | ⟨rfl, -, -⟩ | ⟨rfl, -⟩ | ⟨-, hi, -⟩ | ⟨-, hi, -⟩ := hc
  · rw [hr]
  · rfl
  · rfl
  · exact absurd hi hb
  · exact absurd hi hb

/-- What a step outside reset makes of the registers: the access, then the sequencer's part of the pre-edge state. -/
inductive AccessWrites (s : State) (r : Regs) : Prop where
  | nothing (hr : r = s.regs) (hw : cmdWritten s.beginCycle = none ∨ cmdWritten s.beginCycle = some 0x00#8)
  | overrun (hr : r = setOverrun s.regs) (busy : s.regs.state ≠ .idle)
      (hw : cmdWritten s.beginCycle = some 0x01#8 ∨ cmdWritten s.beginCycle = some 0x02#8)
  | badCmd (op : Byte) (hr : r = setBadCmd s.regs) (hw : cmdWritten s.beginCycle = some op) (h3 : 3 ≤ op.toNat)
  | handshake (idle : s.regs.state = .idle) (hr : r = (handshakeStart (s.mapRegs acceptCommon)).regs)
      (hw : cmdWritten s.beginCycle = some 0x01#8)
  | readFrame (idle : s.regs.state = .idle) (hr : r = (readFrameStart (s.mapRegs acceptCommon)).regs)
      (hw : cmdWritten s.beginCycle = some 0x02#8)

/-- The sequencer's part, from the registers `r` the access left to the registers `r'` after the edge. -/
inductive SequencerWrites (s : State) (r r' : Regs) : Prop where
  | nothing (hr : r' = r)
      (hs : s.regs.state = .idle ∨ (∃ i, s.regs.state = .reserved i) ∨
        (busReq s.regs.state = true ∧ s.pins.busDone = false))
  | settle1 (hs : s.regs.state = .rfSettle1) (hr : r' = settleStep .rfAddr r)
  | settle2 (hs : s.regs.state = .rfSettle2) (hr : r' = settleStep .rfRead r)
  | hsW1 (hs : s.regs.state = .hsW1) (hd : s.pins.busDone = true) (hk : s.pins.bus.ok = true)
      (hr : r' = { r with state := .hsW2 })
  | hsW2 (hs : s.regs.state = .hsW2) (hd : s.pins.busDone = true) (hk : s.pins.bus.ok = true)
      (hr : r' = completeHandshake r)
  | rfAddr (hs : s.regs.state = .rfAddr) (hd : s.pins.busDone = true) (hk : s.pins.bus.ok = true)
      (hr : r' = { r with cnt := r.cnt.load (s.drawDelay - 1), state := .rfSettle2 })
  | rfRead (hs : s.regs.state = .rfRead) (hd : s.pins.busDone = true) (hk : s.pins.bus.ok = true)
      (hr : r' = completeReadFrame s.pins.bus.rdata r)
  | error (op : BitVec 4) (hd : s.pins.busDone = true) (hk : s.pins.bus.ok = false)
      (hr : r' = raiseTransportError op s.pins.bus.err r)
      (hs : (s.regs.state = .hsW1 ∧ op = 1) ∨ (s.regs.state = .hsW2 ∧ op = 2) ∨
        (s.regs.state = .rfAddr ∧ op = 3) ∨ (s.regs.state = .rfRead ∧ op = 4))

/-- Everything a step does: the clock and the inputs; a reset edge, or the access and the sequencer's part on the
registers, with the host's work of the cycle around them. -/
theorem step_effect (s : State) :
    ∃ t, step s = .next t ∧ t.clock = s.clock ∧ t.env = s.env.tail ∧
      ((s.pins.rst = true ∧ t.regs = Regs.reset s.clock ∧
          t.host = (resetRead s.beginCycle).host.endCycle s.cycle.calls) ∨
       (s.pins.rst = false ∧ ∃ r w, AccessWrites s r ∧ SequencerWrites s r t.regs ∧
          t.host = HostAgent.endCycle s.cycle.calls { s.host.beginCycle (tTick s.clock) s.cycle.calls with t := w } ∧
          ∃ s₁, hostPart s.beginCycle = .next s₁ ∧ s₁.regs = r ∧ s₁.host.t = w)) := by
  rcases h : s.pins.rst with _ | _
  · obtain ⟨s₁, h₁, hc, he, hh, hw⟩ := hostPart_cases s.beginCycle
    obtain ⟨t, h₂, tc, te, th, hq⟩ :=
      sequencerPart_cases s.regs.state s₁ fun hb => hostPart_state (s := s.beginCycle) h₁ hb
    have hp : s₁.pins = s.pins := State.pins_congr he
    have hcy : t.cycle = s.cycle := State.cycle_congr (te.trans he)
    refine ⟨_, step_run h h₁ h₂, by simp [tc, hc], by simp [te, he], .inr ⟨rfl, s₁.regs, s₁.host.t, ?_, ?_, ?_,
      s₁, h₁, rfl, rfl⟩⟩
    · obtain ⟨hr, -, hw⟩ | ⟨hr, hi, hw⟩ | ⟨hr, op, hw, h3⟩ | ⟨hr, hi, hw⟩ | ⟨hr, hi, hw⟩ := hw
      · exact .nothing hr hw
      · exact .overrun (by rw [hr]; rfl) hi hw
      · exact .badCmd op (by rw [hr]; rfl) hw h3
      · exact .handshake hi (by rw [hr]; rfl) hw
      · exact .readFrame hi (by rw [hr]; rfl) hw
    · have hdraw : s.regs.state ≠ .idle → s₁.drawDelay = s.drawDelay := by
        intro hb
        have hd : s₁.draws = s.draws := by
          obtain ⟨-, hd, -⟩ | ⟨rfl, -⟩ | ⟨rfl, -⟩ | ⟨-, hi, -⟩ | ⟨-, hi, -⟩ := hw
          · exact hd
          · rfl
          · rfl
          · exact absurd hi hb
          · exact absurd hi hb
        exact State.drawDelay_congr hc he hd
      rw [hp] at hq
      simp only [State.endCycle_regs]
      obtain ⟨rfl, hs⟩ | ⟨hs, rfl⟩ | ⟨hs, rfl⟩ | ⟨hd, hk, hq⟩ | ⟨hd, hk, op, rfl, hs⟩ := hq
      · exact .nothing rfl hs
      · exact .settle1 hs rfl
      · exact .settle2 hs rfl
      · obtain ⟨hs, rfl⟩ | ⟨hs, rfl⟩ | ⟨hs, rfl⟩ | ⟨hs, rfl⟩ := hq
        · exact .hsW1 hs hd hk rfl
        · exact .hsW2 hs hd hk rfl
        · exact .rfAddr hs hd hk (by rw [enterSettle_regs, hdraw (by rw [hs]; decide)])
        · exact .rfRead hs hd hk rfl
      · exact .error op hd hk rfl hs
    · rw [State.endCycle_host, hcy, th, hh]
      rfl
  · have hr : (resetRead s.beginCycle).clock = s.clock ∧ (resetRead s.beginCycle).env = s.env := by
      unfold resetRead
      repeat' split
      all_goals exact ⟨rfl, rfl⟩
    refine ⟨_, step_reset h, hr.1, by rw [State.endCycle_env]; exact congrArg _ hr.2,
      .inl ⟨rfl, congrArg Regs.reset hr.1, ?_⟩⟩
    rw [State.endCycle_host, State.cycle_congr (s := resetEdge s.beginCycle) (t := s) hr.2]
    rfl

/-- The access leaves a busy block as it is but for the two sticky flags, which it only sets. -/
theorem AccessWrites.of_busy {s : State} {r : Regs} (h : AccessWrites s r) (hb : s.regs.state ≠ .idle) :
    ∃ b o, r = { s.regs with badCmd := b, overrun := o } ∧ (s.regs.badCmd = true → b = true) ∧
      (s.regs.overrun = true → o = true) := by
  cases h with
  | nothing hr => exact ⟨_, _, hr, id, id⟩
  | overrun hr => exact ⟨_, _, hr, id, fun _ => rfl⟩
  | badCmd _ hr => exact ⟨_, _, hr, fun _ => rfl, id⟩
  | handshake hi => exact absurd hi hb
  | readFrame hi => exact absurd hi hb

/-- In IDLE the sequencer writes nothing. -/
theorem SequencerWrites.of_idle {s : State} {r r' : Regs} (h : SequencerWrites s r r') (hi : s.regs.state = .idle) :
    r' = r := by
  cases h with
  | nothing hr => exact hr
  | error _ _ _ _ hs => simp [hi] at hs
  | settle1 hs | settle2 hs | hsW1 hs | hsW2 hs | rfAddr hs | rfRead hs => rw [hi] at hs; cases hs

end Sys2Proof.Machine
end

