-- ==== Sys2Proof/Laws/HostAgent.lean ====
section
/-! SUPPORT. What the host's own work keeps: the induction over control lines, packaged once, and what follows. -/

namespace Sys2Proof.Machine.HostAgent

variable (c : Calls)

/-- What a move of the position and every act keeps, any number of control lines keeps. -/
theorem control_keeps {P : HostAgent → Prop} (hpos : ∀ h n, P h → P { h with pos := n })
    (hact : ∀ a h, P h → P (h.perform c a)) : ∀ n h, P h → P (h.control c n) := by
  intro n
  induction n with
  | zero => exact fun h hP => hP
  | succ n ih =>
    intro h hP
    unfold control
    simp only
    split
    · exact hP
    · exact hP
    · exact hP
    · exact ih _ (hpos _ _ hP)
    · refine ih _ ?_
      split
      · exact hpos _ _ hP
      · exact hpos _ _ hP
    · refine ih _ ?_
      split
      · exact hpos _ _ hP
      · exact hpos _ _ hP
    · exact ih _ (hpos _ _ hP)
    · exact ih _ (hact _ _ (hpos _ _ hP))

/-- At a port access the host's control lines stop at once. -/
theorem control_at_access {h : HostAgent} {w : HostAccWord} (hl : h.script[h.pos]? = some (.access w)) (n : Nat) :
    h.control c n = h := by
  cases n with
  | zero => rfl
  | succ n => unfold control; simp only [hl]

/-- With no line left there is nothing to run. -/
theorem control_of_free {h : HostAgent} (hf : h.free = true) (n : Nat) : h.control c n = h := by
  have hl : h.script[h.pos]? = none := by simpa [free] using hf
  cases n with
  | zero => rfl
  | succ n => unfold control; simp only [hl]

/-! ## The temporary and the script -/

@[simp] theorem perform_t (a : HostAct) (h : HostAgent) : (h.perform c a).t = h.t := by
  cases a <;> simp only [perform] <;> repeat' split
  all_goals rfl

@[simp] theorem perform_script (a : HostAct) (h : HostAgent) : (h.perform c a).script = h.script := by
  cases a <;> simp only [perform] <;> repeat' split
  all_goals rfl

@[simp] theorem runControl_t (h : HostAgent) : (h.runControl c).t = h.t :=
  control_keeps c (P := fun g => g.t = h.t) (fun _ _ e => e) (fun a g e => (perform_t c a g).trans e) _ h rfl

@[simp] theorem runControl_script (h : HostAgent) : (h.runControl c).script = h.script :=
  control_keeps c (P := fun g => g.script = h.script) (fun _ _ e => e) (fun a g e => (perform_script c a g).trans e) _ h
    rfl

@[simp] theorem advance_t (h : HostAgent) : h.advance.t = h.t := by
  unfold advance
  split <;> rfl

@[simp] theorem advance_script (h : HostAgent) : h.advance.script = h.script := by
  unfold advance
  split <;> rfl

@[simp] theorem attach_t (h : HostAgent) : (h.attach c).t = h.t := by
  unfold attach
  repeat' split
  all_goals rfl

@[simp] theorem requestDetach_t (h : HostAgent) : (h.requestDetach c).t = h.t := by
  unfold requestDetach
  split <;> rfl

@[simp] theorem tick_t (p : Nat) (h : HostAgent) : (h.tick p).t = h.t := by
  unfold tick
  split <;> rfl

@[simp] theorem finishDetach_t (h : HostAgent) : h.finishDetach.t = h.t := by
  unfold finishDetach
  split <;> rfl

@[simp] theorem finishDetach_script (h : HostAgent) : h.finishDetach.script = h.script := by
  unfold finishDetach
  split <;> rfl

@[simp] theorem finishDetach_pos (h : HostAgent) : h.finishDetach.pos = h.pos := by
  unfold finishDetach
  split <;> rfl

@[simp] theorem beginCycle_t (p : Nat) (h : HostAgent) : (h.beginCycle p c).t = h.t := by
  simp [beginCycle]

@[simp] theorem endCycle_t (h : HostAgent) : (h.endCycle c).t = h.t := by
  simp [endCycle]

/-! ## The lifecycle -/

/-- One move of the lifecycle, or none: what an act or a request can do to it (44_host_protocol.md R225). -/
inductive Moves : Lifecycle → Lifecycle → Prop where
  | stay (l) : Moves l l
  | attach : Moves .uninitialized .handshaking
  | verify : Moves .handshaking .verifying
  | register : Moves .verifying .registered
  | detach : Moves .registered .removed
  | failBeforeAttach : Moves .uninitialized .failed
  | failHandshake : Moves .handshaking .failed
  | failVerify : Moves .verifying .failed

theorem perform_moves (a : HostAct) (h : HostAgent) : Moves h.life (h.perform c a).life := by
  cases a <;> simp only [perform]
  case verify => split <;> simp_all [Moves.verify, Moves.stay]
  case register =>
    split
    · split <;> simp_all [failAttach, Moves.register, Moves.failVerify]
    · exact .stay _
  case abort =>
    split
    · rename_i hl
      rcases hl with hl | hl <;> simp only [hl, failAttach]
      · exact .failHandshake
      · exact .failVerify
    · exact .stay _
  all_goals exact .stay _

theorem attach_moves (h : HostAgent) : Moves h.life (h.attach c).life := by
  unfold attach
  split
  · rename_i hl
    split
    · simp only [hl.2.1]; exact .attach
    · simp only [hl.2.1, failAttach]; exact .failBeforeAttach
  · exact .stay _

@[simp] theorem requestDetach_life (h : HostAgent) : (h.requestDetach c).life = h.life := by
  unfold requestDetach
  split <;> rfl

@[simp] theorem tick_life (p : Nat) (h : HostAgent) : (h.tick p).life = h.life := by
  unfold tick
  split <;> rfl

@[simp] theorem advance_life (h : HostAgent) : h.advance.life = h.life := by
  unfold advance
  split <;> rfl

theorem finishDetach_moves (h : HostAgent) : Moves h.life h.finishDetach.life := by
  unfold finishDetach
  split
  · rename_i hl; simp only [hl.2.1]; exact .detach
  · exact .stay _

/-! ## The host's invariant -/

theorem Inv.perform {h : HostAgent} (hi : h.Inv) (a : HostAct) : (h.perform c a).Inv := by
  obtain ⟨h₁, h₂, h₃, h₄, h₅⟩ := hi
  cases a <;> simp only [HostAgent.perform]
  case verify =>
    split
    · constructor <;> simp_all [Lifecycle.attached]
    · exact ⟨h₁, h₂, h₃, h₄, h₅⟩
  case register =>
    split
    · split <;> constructor <;> simp_all [Lifecycle.attached, failAttach]
    · exact ⟨h₁, h₂, h₃, h₄, h₅⟩
  case abort =>
    split
    · rename_i hl
      rcases hl with hl | hl <;> constructor <;> simp_all [Lifecycle.attached, failAttach]
    · exact ⟨h₁, h₂, h₃, h₄, h₅⟩
  all_goals exact ⟨h₁, h₂, h₃, h₄, h₅⟩

theorem Inv.pos {h : HostAgent} (hi : h.Inv) (n : Nat) : HostAgent.Inv { h with pos := n } :=
  ⟨hi.handle_iff, hi.armed_registered, hi.detaching_registered, hi.axes_registered, hi.surfaced_iff⟩

theorem Inv.t {h : HostAgent} (hi : h.Inv) (w : Word) : HostAgent.Inv { h with t := w } :=
  ⟨hi.handle_iff, hi.armed_registered, hi.detaching_registered, hi.axes_registered, hi.surfaced_iff⟩

theorem Inv.start {h : HostAgent} (hi : h.Inv) (l : List Line) : (h.start l).Inv :=
  ⟨hi.handle_iff, hi.armed_registered, hi.detaching_registered, hi.axes_registered, hi.surfaced_iff⟩

theorem Inv.runControl {h : HostAgent} (hi : h.Inv) : (h.runControl c).Inv :=
  control_keeps c (fun _ n hg => hg.pos n) (fun a _ hg => hg.perform c a) _ h hi

theorem Inv.attach {h : HostAgent} (hi : h.Inv) : (h.attach c).Inv := by
  unfold HostAgent.attach
  obtain ⟨h₁, h₂, h₃, h₄, h₅⟩ := hi
  repeat' split
  · constructor <;> simp_all [Lifecycle.attached, HostAgent.start]
  · constructor <;> simp_all [Lifecycle.attached, failAttach]
  · exact ⟨h₁, h₂, h₃, h₄, h₅⟩

theorem Inv.requestDetach {h : HostAgent} (hi : h.Inv) : (h.requestDetach c).Inv := by
  unfold HostAgent.requestDetach
  obtain ⟨h₁, h₂, h₃, h₄, h₅⟩ := hi
  split
  · constructor <;> simp_all
  · exact ⟨h₁, h₂, h₃, h₄, h₅⟩

theorem Inv.countCycle {h : HostAgent} (hi : h.Inv) (p : Nat) : (h.countCycle p).Inv :=
  ⟨hi.handle_iff, hi.armed_registered, hi.detaching_registered, hi.axes_registered, hi.surfaced_iff⟩

theorem Inv.tick {h : HostAgent} (hi : h.Inv) (p : Nat) : (h.tick p).Inv := by
  unfold HostAgent.tick
  split
  · exact (hi.countCycle p).start _
  · exact hi.countCycle p

theorem Inv.advance {h : HostAgent} (hi : h.Inv) : h.advance.Inv := by
  unfold HostAgent.advance
  split
  all_goals exact hi.pos _

theorem Inv.finishDetach {h : HostAgent} (hi : h.Inv) : h.finishDetach.Inv := by
  unfold HostAgent.finishDetach
  obtain ⟨h₁, h₂, h₃, h₄, h₅⟩ := hi
  split
  · constructor <;> simp_all [Lifecycle.attached]
  · exact ⟨h₁, h₂, h₃, h₄, h₅⟩

theorem Inv.beginCycle {h : HostAgent} (hi : h.Inv) (p : Nat) : (h.beginCycle p c).Inv :=
  (((hi.attach c).requestDetach c).tick p).runControl c

theorem Inv.endCycle {h : HostAgent} (hi : h.Inv) : (h.endCycle c).Inv := (hi.advance.runControl c).finishDetach

/-! ## A cycle with a port access -/

@[simp] theorem requestDetach_script (h : HostAgent) : (h.requestDetach c).script = h.script := by
  unfold requestDetach
  split <;> rfl

@[simp] theorem requestDetach_pos (h : HostAgent) : (h.requestDetach c).pos = h.pos := by
  unfold requestDetach
  split <;> rfl

/-! ## Outside Registered nothing is heard but attach -/

theorem requestDetach_of_life {h : HostAgent} (hl : h.life ≠ .registered) : h.requestDetach c = h :=
  if_neg fun hc => hl hc.2

theorem finishDetach_of_life {h : HostAgent} (hl : h.life ≠ .registered) : h.finishDetach = h :=
  if_neg fun hc => hl hc.2.1

theorem tick_of_life {h : HostAgent} (hl : h.life ≠ .registered) (p : Nat) : h.tick p = h.countCycle p :=
  if_neg fun hc => hl hc.2.1

/-- A host with a line left is in flight. -/
theorem not_free {h : HostAgent} {l : Line} (hl : h.script[h.pos]? = some l) : h.free = false := by
  rw [← Bool.not_eq_true]
  intro hf
  have : h.script[h.pos]? = none := by simpa [free] using hf
  rw [this] at hl
  cases hl

/-- A tick in flight only starts the timer over. -/
theorem tick_of_not_free {h : HostAgent} (hf : h.free = false) (p : Nat) : h.tick p = h.countCycle p := by
  simp [tick, hf]

/-- A host at a port access does nothing before it but hear a detach request and count the cycle. -/
theorem beginCycle_at_access {h : HostAgent} {w : HostAccWord} (hl : h.script[h.pos]? = some (.access w)) (p : Nat) :
    h.beginCycle p c = (h.requestDetach c).countCycle p := by
  have e1 : h.attach c = h := by simp [attach, not_free hl]
  have hl' : (h.requestDetach c).script[(h.requestDetach c).pos]? = some (.access w) := by simpa using hl
  rw [beginCycle, e1, tick_of_not_free (not_free hl')]
  exact control_at_access c (h := (h.requestDetach c).countCycle p) hl' _

end Sys2Proof.Machine.HostAgent

namespace Sys2Proof.Machine

/-- Whatever a step does to the block, what it does to the host is the host's own work around a new temporary. -/
theorem step_host (s : State) :
    ∃ t w, step s = .next t ∧
      t.host = HostAgent.endCycle s.cycle.calls { s.host.beginCycle (tTick s.clock) s.cycle.calls with t := w } := by
  obtain ⟨t, h, -, -, ⟨-, -, hh⟩ | ⟨-, -, w, -, -, hh, -⟩⟩ := step_effect s
  · have : ∃ w, (resetRead s.beginCycle).host = { s.host.beginCycle (tTick s.clock) s.cycle.calls with t := w } := by
      unfold resetRead
      repeat' split
      · exact ⟨s.beginCycle.host.t, rfl⟩
      · exact ⟨_, rfl⟩
      · exact ⟨s.beginCycle.host.t, rfl⟩
    obtain ⟨w, e⟩ := this
    exact ⟨t, w, h, by rw [hh, e]⟩
  · exact ⟨t, w, h, hh⟩

/-- The access of a cycle is the one of the host's current line. -/
theorem hostWord_at_access {s : State} {w : HostAccWord} (hl : s.host.script[s.host.pos]? = some (.access w)) :
    s.beginCycle.hostWord = some w := by
  show (s.host.beginCycle (tTick s.clock) s.cycle.calls).access = _
  rw [HostAgent.beginCycle_at_access _ hl]
  simp only [HostAgent.access, HostAgent.countCycle, HostAgent.requestDetach_script, HostAgent.requestDetach_pos, hl]

/-- A step in which the host reads a word: the word of the pre-edge registers is in its temporary when it goes on, and
in IDLE without reset the block keeps every register. -/
theorem step_read {s : State} {a : RegIdx} (hl : s.host.script[s.host.pos]? = some (.rd a)) :
    ∃ t, step s = .next t ∧ t.env = s.env.tail ∧
      t.host = HostAgent.endCycle s.cycle.calls
        { (s.host.requestDetach s.cycle.calls).countCycle (tTick s.clock) with t := readWord s.regs a } ∧
      (s.pins.rst = false → s.regs.state = .idle → t.regs = s.regs) := by
  have hb := HostAgent.beginCycle_at_access s.cycle.calls hl (tTick s.clock)
  have hw := hostWord_at_access hl
  have hp : hostPart s.beginCycle = .next (hostRead a s.beginCycle) := by
    unfold hostPart
    rw [hw]
    simp [decodeRead_exec]
  obtain ⟨t, h, -, he, ⟨hr, -, hh⟩ | ⟨hr, r, w, -, hs, hh, s₁, h1, h2, h3⟩⟩ := step_effect s
  · refine ⟨t, h, he, ?_, fun hr' => by rw [hr] at hr'; cases hr'⟩
    rw [hh, resetRead, hw]
    simp [hostRead, hb]
  · obtain rfl : hostRead a s.beginCycle = s₁ := by
      rw [hp] at h1
      cases h1
      rfl
    refine ⟨t, h, he, by rw [hh, ← h3, hb]; rfl, fun _ hi => ?_⟩
    rw [hs.of_idle hi, ← h2]
    rfl

end Sys2Proof.Machine
end

