-- ==== Sys2Proof/Laws/PerInstr.lean ====
section
/-! SUPPORT. Per instruction: the word of a well-formed instruction fits its format and lies in its own row of
spec/opcode_table.json. -/

namespace Sys2Proof.Laws.InRow

/-- The encoder writes a word of the instruction's format that the mask and pattern of its row admit. -/
def Statement (i : Instr) : Prop :=
  i.wellFormed = true →
    encode i < 2 ^ i.format.width ∧ i.row.format = i.format ∧ i.row.admits (encode i) = true

/-- A HOSTACC row looks at the five bits above WDATA alone. -/
theorem admits_host (m : String) (b : Bool) (a : RegIdx) (d : Word) (p q : Nat) :
    Row.admits ⟨m, .hostAcc, 2 ^ 32 * p, 2 ^ 32 * q⟩ (hostAccWord b a d).toNat =
      ((16 * b.toNat + a.toNat) &&& q == p) := by
  have e : (hostAccWord b a d).toNat = (16 * b.toNat + a.toNat) * 2 ^ 32 + d.toNat := by
    rw [hostAccWord_toNat]; ring
  have h1 : (hostAccWord b a d).toNat &&& 2 ^ 32 * q = 2 ^ 32 * ((16 * b.toNat + a.toNat) &&& q) := by
    apply Nat.eq_of_testBit_eq
    intro i
    have : (hostAccWord b a d).toNat / 2 ^ 32 = 16 * b.toNat + a.toNat := by
      rw [e]; have := d.isLt; omega
    rw [Nat.testBit_and, Nat.testBit_two_pow_mul, Nat.testBit_two_pow_mul, ← this, Nat.testBit_and, Nat.testBit_div_two_pow]
    by_cases h : 32 ≤ i <;> simp [h]
  have h2 : ∀ x y : Nat, (2 ^ 32 * x == 2 ^ 32 * y) = (x == y) := by
    intro x y
    rw [Bool.eq_iff_iff]; simp
  simp only [Row.admits, h1, h2]

theorem rdCmd (d : Word) : Statement (.rdCmd d) := fun _ =>
  ⟨encode_lt _, rfl, admits_host "RD_CMD" false 0 d 0x00 0x1F⟩

theorem rdStatus (d : Word) : Statement (.rdStatus d) := fun _ =>
  ⟨encode_lt _, rfl, admits_host "RD_STATUS" false 1 d 0x01 0x1F⟩

theorem rdErrcode (d : Word) : Statement (.rdErrcode d) := fun _ =>
  ⟨encode_lt _, rfl, admits_host "RD_ERRCODE" false 2 d 0x02 0x1F⟩

theorem rdFrame0 (d : Word) : Statement (.rdFrame0 d) := fun _ =>
  ⟨encode_lt _, rfl, admits_host "RD_FRAME0" false 3 d 0x03 0x1F⟩

theorem rdFrame1 (d : Word) : Statement (.rdFrame1 d) := fun _ =>
  ⟨encode_lt _, rfl, admits_host "RD_FRAME1" false 4 d 0x04 0x1F⟩

theorem rdJoy (d : Word) : Statement (.rdJoy d) := fun _ =>
  ⟨encode_lt _, rfl, admits_host "RD_JOY" false 5 d 0x05 0x1F⟩

theorem rdAcc (d : Word) : Statement (.rdAcc d) := fun _ =>
  ⟨encode_lt _, rfl, admits_host "RD_ACC" false 6 d 0x06 0x1F⟩

theorem rdBtn (d : Word) : Statement (.rdBtn d) := fun _ =>
  ⟨encode_lt _, rfl, admits_host "RD_BTN" false 7 d 0x07 0x1F⟩

theorem rdUnmapped (a : RegIdx) (d : Word) : Statement (.rdUnmapped a d) := fun h =>
  ⟨encode_lt _, rfl, (admits_host "RD_UNMAPPED" false a d 0x08 0x18).trans (by
    revert h; simp only [Instr.wellFormed]; revert a; decide)⟩

theorem wrCmd (d : Word) : Statement (.wrCmd d) := fun _ =>
  ⟨encode_lt _, rfl, admits_host "WR_CMD" true 0 d 0x10 0x1F⟩

theorem wrRo1 (d : Word) : Statement (.wrRo1 d) := fun _ =>
  ⟨encode_lt _, rfl, admits_host "WR_RO_1" true 1 d 0x11 0x1F⟩

theorem wrRo2to3 (a : RegIdx) (d : Word) : Statement (.wrRo2to3 a d) := fun h =>
  ⟨encode_lt _, rfl, (admits_host "WR_RO_2_3" true a d 0x12 0x1E).trans (by
    revert h; simp only [Instr.wellFormed]; revert a; decide)⟩

theorem wrRo4to7 (a : RegIdx) (d : Word) : Statement (.wrRo4to7 a d) := fun h =>
  ⟨encode_lt _, rfl, (admits_host "WR_RO_4_7" true a d 0x14 0x1C).trans (by
    revert h; simp only [Instr.wellFormed]; revert a; decide)⟩

theorem wrUnmapped (a : RegIdx) (d : Word) : Statement (.wrUnmapped a d) := fun h =>
  ⟨encode_lt _, rfl, (admits_host "WR_UNMAPPED" true a d 0x18 0x18).trans (by
    revert h; simp only [Instr.wellFormed]; revert a; decide)⟩

theorem nop : Statement .nop := by unfold Statement; decide

theorem handshake : Statement .handshake := by unfold Statement; decide

theorem readFrame : Statement .readFrame := by unfold Statement; decide

theorem reserved03 : Statement .reserved03 := by unfold Statement; decide

theorem reserved04to07 (op : Byte) : Statement (.reserved04to07 op) := by unfold Statement; revert op; decide

theorem reserved08to0F (op : Byte) : Statement (.reserved08to0F op) := by unfold Statement; revert op; decide

theorem reserved10to1F (op : Byte) : Statement (.reserved10to1F op) := by unfold Statement; revert op; decide

theorem reserved20to3F (op : Byte) : Statement (.reserved20to3F op) := by unfold Statement; revert op; decide

theorem reserved40to7F (op : Byte) : Statement (.reserved40to7F op) := by unfold Statement; revert op; decide

theorem reserved80toFF (op : Byte) : Statement (.reserved80toFF op) := by unfold Statement; revert op; decide

theorem sendHs1 : Statement .sendHs1 := by unfold Statement; decide

theorem sendHs2 : Statement .sendHs2 := by unfold Statement; decide

theorem sendAddr : Statement .sendAddr := by unfold Statement; decide

theorem recvFrame : Statement .recvFrame := by unfold Statement; decide

end Sys2Proof.Laws.InRow
end

