-- ==== Sys2Proof/Laws/Runs.lean ====
section
/-! SUPPORT. Runs of several cycles: their inputs, how they compose, and one step of a busy block. -/

namespace Sys2Proof.Machine

theorem State.cycleAt_zero (s : State) : s.cycleAt 0 = s.cycle := by
  unfold State.cycleAt State.cycle
  cases s.env <;> rfl

theorem State.cycleAt_of_tail {s t : State} (h : t.env = s.env.tail) (k : Nat) : t.cycleAt k = s.cycleAt (k + 1) := by
  unfold State.cycleAt
  rw [h]
  cases s.env <;> simp

theorem steps_succ {s t : State} (h : step s = .next t) (n : Nat) : steps (n + 1) s = steps n t := by
  simp [steps, h]

theorem steps_add {s t : State} {m : Nat} (h : steps m s = some t) (n : Nat) : steps (m + n) s = steps n t := by
  induction m generalizing s with
  | zero => cases h; simp
  | succ m ih =>
    obtain ⟨u, hu, -⟩ := step_effect s
    rw [steps_succ hu] at h
    rw [Nat.add_right_comm, steps_succ hu, ih h]

/-- Any number of cycles goes through; the clock stays, and the inputs are those that far ahead. -/
theorem steps_exists (n : Nat) (s : State) :
    ∃ t, steps n s = some t ∧ t.clock = s.clock ∧ ∀ k, t.cycleAt k = s.cycleAt (n + k) := by
  induction n generalizing s with
  | zero => exact ⟨s, rfl, rfl, fun k => by simp⟩
  | succ n ih =>
    obtain ⟨u, hu, hc, he, -⟩ := step_effect s
    obtain ⟨t, ht, hc', hk⟩ := ih u
    exact ⟨t, by rw [steps_succ hu, ht], hc'.trans hc, fun k => by
      rw [hk, State.cycleAt_of_tail he]
      congr 1
      omega⟩

/-- A run ends at one edge at most. -/
theorem RunEnds.unique {k : RunKind} {s t t' : State} {n n' : Nat} (h : RunEnds k s n t) (h' : RunEnds k s n' t') :
    n = n' ∧ t = t' := by
  have not_before : ∀ {m m' : Nat} {v v' : State}, RunEnds k s m v → RunEnds k s m' v' → ¬ m < m' := by
    intro m m' v v' g g' hm
    obtain ⟨u, hu, hv, hc⟩ := g.ends
    obtain ⟨u', w, hu', hw, hr, hn⟩ := g'.going m hm
    obtain rfl : u = u' := Option.some.inj (hu.symm.trans hu')
    obtain rfl : v = w := Option.some.inj (hv.symm.trans hw)
    obtain hc | hc := hc
    · rw [hr] at hc
      cases hc
    · exact hn hc
  obtain rfl : n = n' := by
    have := not_before h h'
    have := not_before h' h
    omega
  obtain ⟨-, -, ht, -⟩ := h.ends
  obtain ⟨-, -, ht', -⟩ := h'.ends
  exact ⟨rfl, Option.some.inj (ht.symm.trans ht')⟩

/-- A run cut by a reset edge ends with the reset state, and no completion is recorded. -/
theorem RunEnds.of_reset {k : RunKind} {s t u : State} {n : Nat} (h : RunEnds k s n t) (hu : steps n s = some u)
    (hr : u.pins.rst = true) : t.regs = Regs.reset s.clock ∧ t.regs.done = false := by
  obtain ⟨u', hu', hc, -⟩ := steps_exists n s
  obtain rfl : u = u' := Option.some.inj (hu.symm.trans hu')
  obtain ⟨v, hv, -, -, ⟨-, hreg, -⟩ | ⟨hr', -⟩⟩ := step_effect u
  · obtain ⟨-, -, ht, -⟩ := h.ends
    have e : steps (n + 1) s = some v := by rw [steps_add hu, steps_succ hv]; rfl
    obtain rfl : t = v := Option.some.inj (ht.symm.trans e)
    rw [hreg, hc]
    exact ⟨rfl, rfl⟩
  · rw [hr] at hr'
    cases hr'

/-- A step of a busy block outside reset: the sequencer's part, on the registers with the sticky flags as the access
leaves them. -/
theorem step_busy {s : State} (hr : s.pins.rst = false) (hi : s.regs.state ≠ .idle) :
    ∃ t b o, step s = .next t ∧ t.clock = s.clock ∧ t.env = s.env.tail ∧
      SequencerWrites s { s.regs with badCmd := b, overrun := o } t.regs := by
  obtain ⟨t, h, hc, he, ⟨hr', -⟩ | ⟨-, r, w, ha, hs, -⟩⟩ := step_effect s
  · rw [hr] at hr'
    cases hr'
  obtain ⟨b, o, rfl, -, -⟩ := ha.of_busy hi
  exact ⟨t, b, o, h, hc, he, hs⟩

end Sys2Proof.Machine
end

