-- ==== Sys2Proof/Tests/Slice0.lean ====
section
/-! SUPPORT. The session's own tests. Expected values are the spec's examples and vectors, or worked out by hand from
its tables; each test names its source. The second half shows, for every statement with hypotheses, a state and
operands that meet them. -/

namespace Sys2Proof.Tests

open Sys2Proof Sys2Proof.Machine

/-! ## WellFormed refuses an operand outside its row -/

theorem test_wf_rdUnmapped : (Instr.rdUnmapped 7 0).wellFormed = false := by decide
theorem test_wf_wrRo2to3 : (Instr.wrRo2to3 4 0).wellFormed = false ∧ (Instr.wrRo2to3 1 0).wellFormed = false := by
  decide
theorem test_wf_wrRo4to7 : (Instr.wrRo4to7 8 0).wellFormed = false ∧ (Instr.wrRo4to7 3 0).wellFormed = false := by
  decide
theorem test_wf_wrUnmapped : (Instr.wrUnmapped 7 0).wellFormed = false := by decide
theorem test_wf_reserved04to07 :
    (Instr.reserved04to07 0x08).wellFormed = false ∧ (Instr.reserved04to07 0x03).wellFormed = false := by decide
theorem test_wf_reserved08to0F :
    (Instr.reserved08to0F 0x10).wellFormed = false ∧ (Instr.reserved08to0F 0x07).wellFormed = false := by decide
theorem test_wf_reserved10to1F :
    (Instr.reserved10to1F 0x20).wellFormed = false ∧ (Instr.reserved10to1F 0x0F).wellFormed = false := by decide
theorem test_wf_reserved20to3F :
    (Instr.reserved20to3F 0x40).wellFormed = false ∧ (Instr.reserved20to3F 0x1F).wellFormed = false := by decide
theorem test_wf_reserved40to7F :
    (Instr.reserved40to7F 0x80).wellFormed = false ∧ (Instr.reserved40to7F 0x3F).wellFormed = false := by decide
theorem test_wf_reserved80toFF : (Instr.reserved80toFF 0x7F).wellFormed = false := by decide

/-! ## Decoding: words written out from 30_encoding.md R91, R92, R93 -/

/-- WE in bit 36, ADDR in 35:32, WDATA in 31:0. -/
theorem test_decode_reads :
    decodeTableWord 40 0b0_0000_00000000000000000000000000000000 = some (.rdCmd 0) ∧
    decodeTableWord 40 0b0_0001_00000000000000000000000000000000 = some (.rdStatus 0) ∧
    decodeTableWord 40 0b0_0010_00000000000000000000000000000000 = some (.rdErrcode 0) ∧
    decodeTableWord 40 0b0_0011_00000000000000000000000000000000 = some (.rdFrame0 0) ∧
    decodeTableWord 40 0b0_0100_00000000000000000000000000000000 = some (.rdFrame1 0) ∧
    decodeTableWord 40 0b0_0101_00000000000000000000000000000000 = some (.rdJoy 0) ∧
    decodeTableWord 40 0b0_0110_00000000000000000000000000000000 = some (.rdAcc 0) ∧
    decodeTableWord 40 0b0_0111_10000000000000000000000000000001 = some (.rdBtn 0x80000001) ∧
    decodeTableWord 40 0b0_1000_00000000000000000000000000000000 = some (.rdUnmapped 8 0) ∧
    decodeTableWord 40 0b0_1111_00000000000000000000000000000000 = some (.rdUnmapped 15 0) := by decide

theorem test_decode_writes :
    decodeTableWord 40 0b1_0000_11111111111111111111111100000010 = some (.wrCmd 0xFFFFFF02) ∧
    decodeTableWord 40 0b1_0001_00000000000000000000000000000000 = some (.wrRo1 0) ∧
    decodeTableWord 40 0b1_0010_00000000000000000000000000000000 = some (.wrRo2to3 2 0) ∧
    decodeTableWord 40 0b1_0011_00010010001101000101011001111000 = some (.wrRo2to3 3 0x12345678) ∧
    decodeTableWord 40 0b1_0100_00000000000000000000000000000000 = some (.wrRo4to7 4 0) ∧
    decodeTableWord 40 0b1_0111_00000000000000000000000000000000 = some (.wrRo4to7 7 0) ∧
    decodeTableWord 40 0b1_1000_00000000000000000000000000000000 = some (.wrUnmapped 8 0) ∧
    decodeTableWord 40 0b1_1111_00000000000000000000000000000000 = some (.wrUnmapped 15 0) := by decide

theorem test_decode_commands :
    decodeTableWord 8 0b00000000 = some .nop ∧ decodeTableWord 8 0b00000001 = some .handshake ∧
    decodeTableWord 8 0b00000010 = some .readFrame ∧ decodeTableWord 8 0b00000011 = some .reserved03 ∧
    decodeTableWord 8 0b00000100 = some (.reserved04to07 4) ∧ decodeTableWord 8 0b00001111 = some (.reserved08to0F 15) ∧
    decodeTableWord 8 0b00010000 = some (.reserved10to1F 16) ∧ decodeTableWord 8 0b00111111 = some (.reserved20to3F 63) ∧
    decodeTableWord 8 0b01000000 = some (.reserved40to7F 64) ∧
    decodeTableWord 8 0b11111111 = some (.reserved80toFF 255) := by decide

/-- OP in bit 19, LEN in 18:16, WDATA in 15:0. -/
theorem test_decode_requests :
    decodeTableWord 24 0b0_010_0101010111110000 = some .sendHs1 ∧
    decodeTableWord 24 0b0_010_0000000011111011 = some .sendHs2 ∧
    decodeTableWord 24 0b0_001_0000000000000000 = some .sendAddr ∧
    decodeTableWord 24 0b1_110_0000000000000000 = some .recvFrame := by decide

/-- What is no instruction is refused by name. -/
theorem test_decode_rejects :
    decode .busReq 0x255F1 = .error .neverDriven ∧ decode .cmd8 0x100 = .error (.tooWide .cmd8) ∧
    decode .hostAcc 0x2000000000 = .error (.tooWide .hostAcc) ∧
    decodeBytes .busReq [0xF0, 0x55] = .error (.wrongLength .busReq) ∧ decodeTableWord 48 0 = none := by decide

theorem test_decode_bytes :
    decodeBytes .busReq [0xF0, 0x55, 0x02] = .ok .sendHs1 ∧ encodeBytes .sendHs1 = [0xF0, 0x55, 0x02] := by decide

/-! ## One instruction on a small state -/

/-- One cycle's pins: a completion with `ok`, `err`, `rdata`. -/
def completion (ok : Bool) (err : ErrCode) (rdata : Frame) : Pins :=
  { Pins.quiet with busDone := true, bus := { ok := ok, err := err, rdata := rdata } }

/-- Reset registers at `F_CLK = 1000` Hz, so that `T_MIN = 10` and `T_MAX = 20` (42_frame_reader.md). -/
def blank : Regs := Regs.reset ⟨1000, by decide⟩

/-- The block with a host without a script. -/
def block (r : Regs) (p : Pins) : State where
  regs := r
  host := .initial
  env := [{ pins := p, calls := .quiet }]
  draws := 0

/-- Reset registers but for the sequencer state. -/
def busyIn (st : SeqState) : Regs := { blank with state := st }

/-- STATUS and ERRCODE after an instruction. -/
def after (i : Instr) (s : State) : Option (Nat × Nat) :=
  (nextOf (exec i s)).map fun t => ((statusWord t.regs).toNat, t.regs.errCode.toNat)

/-- The host's temporary after an instruction. -/
def readBy (i : Instr) (r : Regs) : Option Nat :=
  (nextOf (exec i (block r .quiet))).map fun t => t.host.t.toNat

/-- Registers with DONE, ERR, BADCMD and ERR_OP = 4: STATUS 0x00000426 (40_register_access.md R122). -/
def failed : Regs :=
  { blank with done := true, err := true, errOp := 4, errCode := 0x1234, badCmd := true, hsOk := false }

/-- The frame of row 5 of L2.1 (95_test_vectors.md), where every field differs from row 1's. -/
def row5 : Regs := { blank with frame := 0x040000800000 }

/-- Row 1 of L2.1. -/
def row1 : Regs := { blank with frame := 0x000302012010 }

/-- 40_register_access.md R120, example, and R40. -/
theorem test_rdCmd : readBy (.rdCmd 0xFFFFFFFF) failed = some 0 := by decide
/-- 40_register_access.md R122, example. -/
theorem test_rdStatus : readBy (.rdStatus 0) failed = some 0x00000426 := by decide
theorem test_rdErrcode : readBy (.rdErrcode 0) failed = some 0x00001234 := by decide
/-- 95_test_vectors.md L2.1, rows 1 and 5. -/
theorem test_rdFrame0 : readBy (.rdFrame0 0) row1 = some 0x02012010 := by decide
theorem test_rdFrame1 : readBy (.rdFrame1 0) row5 = some 0x00000400 := by decide
theorem test_rdJoy : readBy (.rdJoy 0) row1 = some 0x00002010 := by decide
theorem test_rdAcc : readBy (.rdAcc 0) row1 = some 0x00C02004 ∧ readBy (.rdAcc 0) row5 = some 0x00000201 := by decide
/-- 40_register_access.md R120, example; a set bit 1 of b5 releases C alone. -/
theorem test_rdBtn :
    readBy (.rdBtn 0) blank = some 3 ∧ readBy (.rdBtn 0) { blank with frame := 0x020000000000 } = some 1 := by
  decide
theorem test_rdUnmapped : readBy (.rdUnmapped 8 0) failed = some 0 ∧ readBy (.rdUnmapped 15 0) failed = some 0 := by
  decide

/-- 40_register_access.md R128: no flag is cleared by writing STATUS. -/
theorem test_wrRo1 : after (.wrRo1 0) (block failed .quiet) = some (0x00000426, 0x1234) := by decide
/-- 40_register_access.md R128, example. -/
theorem test_wrRo2to3 :
    (nextOf (exec (.wrRo2to3 3 0x12345678) (block row1 .quiet))).map (·.regs.frame) = some 0x000302012010 := by decide
theorem test_wrRo4to7 : after (.wrRo4to7 4 0xFFFFFFFF) (block failed .quiet) = some (0x00000426, 0x1234) := by decide
theorem test_wrUnmapped : after (.wrUnmapped 8 0x02) (block failed .quiet) = some (0x00000426, 0x1234) := by decide
/-- 40_register_access.md R121: bits 31:8 do not take part. -/
theorem test_wrCmd : after (.wrCmd 0xFFFFFF02) (block blank .quiet) = some (0x00030001, 0) := by decide

theorem test_nop : after .nop (block (busyIn .hsW1) .quiet) = some (0x00010001, 0) := by decide
/-- 40_register_access.md R122, example. -/
theorem test_handshake : after .handshake (block failed .quiet) = some (0x00010001, 0) := by decide
theorem test_handshake_clears_hsOk :
    after .handshake (block { blank with hsOk := true } .quiet) = some (0x00010001, 0) := by decide
/-- 42_frame_reader.md R160: with `d1 = 10` the counter starts at 9; HS_OK is kept. -/
theorem test_readFrame :
    (nextOf (exec .readFrame (block { blank with hsOk := true } { Pins.quiet with draw := some 10 }))).map
      (fun t => ((statusWord t.regs).toNat, t.regs.cnt.toNat)) = some (0x00030011, 9) := by decide
/-- 40_register_access.md R126, example. -/
theorem test_readFrame_busy : after .readFrame (block (busyIn .rfSettle1) .quiet) = some (0x00030041, 0) := by decide
/-- 40_register_access.md R125, example, and a reserved opcode while busy. -/
theorem test_reserved03 : after .reserved03 (block (busyIn .rfRead) .quiet) = some (0x00060021, 0) := by decide
theorem test_reserved04to07 : after (.reserved04to07 0x07) (block blank .quiet) = some (0x00000020, 0) := by decide
theorem test_reserved08to0F : after (.reserved08to0F 0x08) (block blank .quiet) = some (0x00000020, 0) := by decide
theorem test_reserved10to1F : after (.reserved10to1F 0x10) (block blank .quiet) = some (0x00000020, 0) := by decide
theorem test_reserved20to3F : after (.reserved20to3F 0x20) (block blank .quiet) = some (0x00000020, 0) := by decide
theorem test_reserved40to7F : after (.reserved40to7F 0x40) (block blank .quiet) = some (0x00000020, 0) := by decide
theorem test_reserved80toFF : after (.reserved80toFF 0xFF) (block blank .quiet) = some (0x00000020, 0) := by decide

/-- 41_handshake.md R140 and R141, examples. -/
theorem test_sendHs1 : after .sendHs1 (block (busyIn .hsW1) (completion true 0 0)) = some (0x00020001, 0) := by decide
theorem test_sendHs1_fails :
    after .sendHs1 (block (busyIn .hsW1) (completion false 0x0006 0)) = some (0x00000106, 6) := by decide
/-- 41_handshake.md R140 and R143, examples. -/
theorem test_sendHs2 : after .sendHs2 (block (busyIn .hsW2) (completion true 0 0)) = some (0x00000012, 0) := by decide
theorem test_sendHs2_fails :
    after .sendHs2 (block (busyIn .hsW2) (completion false 0x0079 0)) = some (0x00000206, 0x79) := by decide
/-- 42_frame_reader.md R163, example: `d2 = 12`. -/
theorem test_sendAddr :
    (nextOf (exec .sendAddr (block (busyIn .rfAddr) { completion true 0 0 with draw := some 12 }))).map
      (fun t => ((statusWord t.regs).toNat, t.regs.cnt.toNat)) = some (0x00050001, 11) := by decide
theorem test_sendAddr_fails :
    after .sendAddr (block (busyIn .rfAddr) (completion false 0x0002 0)) = some (0x00000306, 2) := by decide
/-- 42_frame_reader.md R166 and R167, examples. -/
theorem test_recvFrame :
    (nextOf (exec .recvFrame (block { busyIn .rfRead with hsOk := true } (completion true 0 0x000302012010)))).map
      (fun t => ((statusWord t.regs).toNat, (frame0Word t.regs).toNat, (frame1Word t.regs).toNat)) =
      some (0x0000001A, 0x02012010, 3) := by decide
theorem test_recvFrame_fails :
    (nextOf (exec .recvFrame (block { row1 with state := .rfRead } (completion false 0x0005 0xFFFFFFFFFFFF)))).map
      (fun t => ((statusWord t.regs).toNat, (frame0Word t.regs).toNat, t.regs.errCode.toNat)) =
      some (0x00000406, 0x02012010, 5) := by decide

/-! ## One step -/

/-- 40_register_access.md R120, example: `MemRead(0x1C, 4)` reads BTN. -/
theorem test_memRead : memRead 0x1C = some (.rd 7) ∧ memRead 0x1E = none ∧ memRead 0x40 = none := by decide

/-- 42_frame_reader.md R162, R164: the last and the last but one cycle of a settle state. -/
theorem test_settle :
    (nextOf (step (block { busyIn .rfSettle1 with cnt := blank.cnt.load 1 } .quiet))).map
      (fun t => (t.regs.state, t.regs.cnt.toNat)) = some (.rfSettle1, 0) ∧
    (nextOf (step (block (busyIn .rfSettle1) .quiet))).map (·.regs.state) = some .rfAddr ∧
    (nextOf (step (block (busyIn .rfSettle2) (completion true 0 0)))).map (·.regs.state) = some .rfRead := by decide

/-- 40_register_access.md R127: a READ_FRAME written in the cycle of a completion edge. -/
theorem test_write_at_completion :
    (nextOf (step (placeAccess 0x1000000002 (block (busyIn .hsW2) (completion true 0 0))))).map
      (fun t => (statusWord t.regs).toNat) = some 0x00000052 := by decide

/-- 70_reset_and_hazards.md R280: a reset edge beside a completion and a command write. -/
theorem test_reset :
    (nextOf (step { (block { row1 with state := .rfRead } { completion true 0 1 with rst := true }) with
      host := { HostAgent.initial with script := [.wr 0 1] } })).map (·.regs) = some blank := by decide

/-- A placed word runs as the first instruction after reset (log 5). -/
theorem test_placed_access : (nextOf (step (State.reset.withFetchWord 40 0x0700000000))).map (·.host.t) = some 3 := by
  decide
theorem test_placed_command :
    (nextOf (step (State.reset.withFetchWord 8 0x01))).map (·.regs.state) = some .hsW1 ∧
    (nextOf (step (State.reset.withFetchWord 8 0x02))).map (·.regs.state) = some .rfSettle1 := by decide
theorem test_placed_request :
    (nextOf (step (State.reset.withFetchWord 24 0xE0000))).map (fun t => busWord t.regs.state) =
      some (some 0xE0000) := by decide

/-! ## Hypotheses that can be met -/

/-- The block with a host about to run the given lines. -/
def hosted (lines : List Line) (s : State) : State := { s with host := { s.host with script := lines } }

/-- The block with more cycles to come. -/
def cycles (ps : List Pins) (s : State) : State := { s with env := ps.map fun p => { pins := p, calls := .quiet } }

/-- DecodeOfEncodeIsTheInstruction, at both ends of every operand range. -/
theorem witness_decode_of_encode :
    (Instr.rdUnmapped 8 0).wellFormed = true ∧ (Instr.rdUnmapped 15 0).wellFormed = true ∧
    (Instr.wrRo2to3 2 0).wellFormed = true ∧ (Instr.wrRo2to3 3 0).wellFormed = true ∧
    (Instr.wrRo4to7 4 0).wellFormed = true ∧ (Instr.wrRo4to7 7 0).wellFormed = true ∧
    (Instr.wrUnmapped 8 0).wellFormed = true ∧ (Instr.wrUnmapped 15 0).wellFormed = true ∧
    (Instr.reserved04to07 0x04).wellFormed = true ∧ (Instr.reserved04to07 0x07).wellFormed = true ∧
    (Instr.reserved08to0F 0x08).wellFormed = true ∧ (Instr.reserved08to0F 0x0F).wellFormed = true ∧
    (Instr.reserved10to1F 0x10).wellFormed = true ∧ (Instr.reserved10to1F 0x1F).wellFormed = true ∧
    (Instr.reserved20to3F 0x20).wellFormed = true ∧ (Instr.reserved20to3F 0x3F).wellFormed = true ∧
    (Instr.reserved40to7F 0x40).wellFormed = true ∧ (Instr.reserved40to7F 0x7F).wellFormed = true ∧
    (Instr.reserved80toFF 0x80).wellFormed = true ∧ (Instr.reserved80toFF 0xFF).wellFormed = true := by decide

/-- PlatformAddressSelectsOneWord: the first and the last word's offset, and offsets of no word. -/
theorem witness_offsets :
    0 = 4 * (0 : RegIdx).toNat ∧ 60 = 4 * (15 : RegIdx).toNat ∧ (∀ k : RegIdx, 61 ≠ 4 * k.toNat) ∧
    (∀ k : RegIdx, 64 ≠ 4 * k.toNat) := by decide

/-- EveryDecodedWordIsItsInstructionsEncoding, its third clause. -/
theorem witness_decoded_word : decodeBusReq 0x255F0 = .ok .sendHs1 ∧ decodeBusReq 0xE0000 = .ok .recvFrame := by decide

/-- EncodedWordsMatchNoOtherRow. -/
theorem witness_rows :
    (Instr.rdUnmapped 15 0).wellFormed = true ∧ (Instr.rdUnmapped 15 0).format = (Instr.rdUnmapped 8 0).format ∧
    (Instr.rdUnmapped 8 0).row.admits (encode (.rdUnmapped 15 0)) = true := by decide

/-- StepRunsTheDecodedInstructions: an access beside each kind of sequencer state, and no access. -/
theorem witness_step_bus :
    ∃ (s s₁ t : State) (q : BusReqWord) (i : Instr) (w : HostAccWord), s.pins.rst = false ∧ s.beginCycle.hostWord = some w ∧
      exec (decodeHostAcc w) s.beginCycle = .next s₁ ∧ busWord s.regs.state = some q ∧ decodeBusReq q = .ok i ∧
      exec i s₁ = .next t :=
  ⟨hosted [.wr 0 0x07] (block (busyIn .hsW1) (completion true 0 0)), _, _, _, _, _, rfl, rfl, rfl, rfl, rfl, rfl⟩
theorem witness_step_settle :
    ∃ s s₁ s' s₁' : State, s.pins.rst = false ∧ s.beginCycle.hostWord = none ∧ s₁ = s.beginCycle ∧
      s.regs.state = .rfSettle1 ∧ s'.pins.rst = false ∧ s'.beginCycle.hostWord = none ∧ s₁' = s'.beginCycle ∧
      s'.regs.state = .rfSettle2 :=
  ⟨block (busyIn .rfSettle1) .quiet, _, block (busyIn .rfSettle2) .quiet, _, rfl, rfl, rfl, rfl, rfl, rfl, rfl, rfl⟩
theorem witness_step_idle :
    ∃ (s s₁ : State) (w : HostAccWord), s.pins.rst = false ∧ s.beginCycle.hostWord = some w ∧ exec (decodeHostAcc w) s.beginCycle = .next s₁ ∧
      s.regs.state = .idle :=
  ⟨hosted [.wr 0 0x01] (block blank .quiet), _, _, rfl, rfl, rfl, rfl⟩
theorem witness_step_reserved :
    ∃ s : State, s.pins.rst = false ∧ s.beginCycle.hostWord = none ∧ s.regs.state = .reserved 8 :=
  ⟨block (busyIn (.reserved 8)) .quiet, rfl, rfl, rfl⟩

/-- InstructionFrame: an instruction that changes `t`, and one that draws. -/
theorem witness_frame :
    (∃ s t, exec (.rdBtn 0) s = .next t ∧ t.host.t ≠ s.host.t) ∧
    (∃ s t, exec .readFrame s = .next t ∧ t.draws ≠ s.draws) ∧
    (∃ s t, exec .sendAddr s = .next t ∧ t.draws ≠ s.draws) :=
  ⟨⟨block blank .quiet, _, rfl, by decide⟩, ⟨block blank .quiet, _, rfl, by decide⟩,
    ⟨block (busyIn .rfAddr) (completion true 0 0), _, rfl, by decide⟩⟩

/-- EdgeCommitsBothPartsOfThePreEdgeState, in IDLE and in a bus state. -/
theorem witness_edge (st : SeqState) (h : st = .idle ∨ st = .rfRead) :
    ∃ s a q : State, s.pins.rst = false ∧ s.regs.state = st ∧ hostPart s = .next a ∧ sequencerPart s.regs.state s = .next q := by
  obtain rfl | rfl := h
  · exact ⟨hosted [.wr 0 0x02] (block blank .quiet), _, _, rfl, rfl, rfl, rfl⟩
  · exact ⟨hosted [.wr 0 0x02] (block (busyIn .rfRead) (completion true 0 0)), _, _, rfl, rfl, rfl, rfl⟩

/-- DecodedWordReads. -/
theorem witness_decoded_reads : ∃ (s : State) (b : Nat → Nat), ∀ i, b i = (frameByte s.regs.frame i).toNat :=
  ⟨block row5 .quiet, _, fun _ => rfl⟩

/-- EveryHostReadReturnsItsWord: reads of words 0, 1 to 7, 8 and 15. -/
theorem witness_host_read :
    (Instr.rdUnmapped 8 0).wellFormed = true ∧ (Instr.rdUnmapped 15 0).wellFormed = true ∧
    (∀ a : RegIdx, hostAccWe (hostAccWord false a 0) = false ∧ hostAccAddr (hostAccWord false a 0) = a) ∧
    (hosted [.rd 7] (block row5 .quiet)).hostWord = some (hostAccWord false 7 0) := by decide

/-- WritesToOtherWordsAreIgnored: writes of words 1 to 15. -/
theorem witness_ignored_write :
    ∀ a : RegIdx, a ≠ 0 → hostAccWe (hostAccWord true a 5) = true ∧ hostAccAddr (hostAccWord true a 5) ≠ 0 := by decide

/-- NopChangesNothing, ReservedOpcodesSetBadcmdOnly, HandshakeAccepted, ReadFrameAccepted, CmdWriteRunsItsOpcode and
CommandWhileBusySetsOverrunOnly: the opcodes of their clauses at the ends of their ranges. -/
theorem witness_opcodes :
    (0 : Word).toNat % 256 = 0 ∧ (0xFFFFFF00 : Word).toNat % 256 = 0 ∧ (0xFFFFFF01 : Word).toNat % 256 = 1 ∧
    (2 : Word).toNat % 256 = 2 ∧ 3 ≤ (3 : Word).toNat % 256 ∧ 3 ≤ (0xFF : Word).toNat % 256 := by decide
theorem witness_accepted :
    (block failed .quiet).regs.state = .idle ∧ tMin (block failed .quiet).clock ≤ 10 ∧
    20 ≤ tMax (block failed .quiet).clock ∧
    (block failed { Pins.quiet with draw := some 20 }).pins.draw = some 20 := by decide
theorem witness_overrun :
    ∃ s q t : State, s.pins.rst = false ∧ s.regs.state ≠ .idle ∧
      s.beginCycle.hostWord = some (hostAccWord true 0 0xFFFFFF01) ∧
      sequencerPart s.regs.state s = .next q ∧ step s = .next t :=
  ⟨hosted [.wr 0 0xFFFFFF01] (block (busyIn .hsW2) (completion true 0 0)), _, _, rfl, by decide, rfl, rfl, rfl⟩

/-- EveryAdmittedDelayCanBeDrawn: both states, both bounds, and draws from both. -/
theorem witness_delays :
    (block blank .quiet).regs.state = .idle ∧ (block (busyIn .rfAddr) .quiet).regs.state = .rfAddr ∧
    tMin (block blank .quiet).clock = 10 ∧ tMax (block blank .quiet).clock = 20 ∧
    (∃ p t, exec .readFrame ((block blank .quiet).withPins p) = .next t ∧ t.regs.cnt.toNat + 1 = 20) ∧
    (∃ p t, p.busDone = true ∧ p.bus.ok = true ∧
      exec .sendAddr ((block (busyIn .rfAddr) .quiet).withPins p) = .next t ∧ t.regs.cnt.toNat + 1 = 10) :=
  ⟨rfl, rfl, by decide, by decide, ⟨{ Pins.quiet with draw := some 20 }, _, rfl, by decide⟩,
    ⟨{ completion true 0 0 with draw := some 10 }, _, rfl, rfl, rfl, by decide⟩⟩

/-- OnlyAnAcceptClearsStickyFlags: each of its three cases. -/
theorem witness_sticky :
    ∃ s t : State, s.pins.rst = false ∧ step s = .next t ∧ (s.regs.badCmd = true ∧ t.regs.badCmd = false) ∧
      (s.regs.overrun = true ∧ t.regs.overrun = false) ∧ (s.regs.state = .idle ∧ t.regs.state ≠ .idle) :=
  ⟨hosted [.wr 0 0x01] (block { failed with overrun := true } .quiet), _, rfl, rfl, by decide, by decide, by decide⟩

/-- StatusAfterACmdWrite: accepted, both opcodes; refused as busy; reserved. -/
theorem witness_status (d : Word) (st : SeqState)
    (h : (d = 1 ∧ st = .idle) ∨ (d = 2 ∧ st = .idle) ∨ (d = 2 ∧ st = .hsW2) ∨ (d = 0xFF ∧ st = .idle)) :
    ∃ s t : State, s.pins.rst = false ∧ s.beginCycle.hostWord = some (hostAccWord true 0 d) ∧ step s = .next t ∧
      s.regs.state = st := by
  obtain ⟨rfl, rfl⟩ | ⟨rfl, rfl⟩ | ⟨rfl, rfl⟩ | ⟨rfl, rfl⟩ := h
  · exact ⟨hosted [.wr 0 1] (block blank .quiet), _, rfl, rfl, rfl, rfl⟩
  · exact ⟨hosted [.wr 0 2] (block blank .quiet), _, rfl, rfl, rfl, rfl⟩
  · exact ⟨hosted [.wr 0 2] (block (busyIn .hsW2) (completion true 0 0)), _, rfl, rfl, rfl, rfl⟩
  · exact ⟨hosted [.wr 0 0xFF] (block blank .quiet), _, rfl, rfl, rfl, rfl⟩
theorem witness_status_failure :
    ∃ s t : State, s.pins.rst = false ∧ s.beginCycle.hostWord = some (hostAccWord true 0 1) ∧ step s = .next t ∧
      s.regs.state ≠ .idle ∧ s.pins.busDone = true ∧ s.pins.bus.ok = false ∧ busReq s.regs.state = true :=
  ⟨hosted [.wr 0 1] (block (busyIn .rfAddr) (completion false 9 0)), _, rfl, rfl, rfl, by decide, rfl, rfl, rfl⟩

/-- IdleWithoutAcceptKeepsTheResults: with a reserved opcode written, and with a read. -/
theorem witness_idle :
    ∃ s t : State, s.pins.rst = false ∧ s.regs.state = .idle ∧
      (∀ w, s.beginCycle.hostWord = some w → startsCommand w = false) ∧ step s = .next t ∧ t.regs ≠ s.regs :=
  ⟨hosted [.wr 0 7] (block blank .quiet), _, rfl, rfl,
    fun w hw => by
      have e : (hosted [.wr 0 7] (block blank .quiet)).beginCycle.hostWord = some (hostAccWord true 0 7) := rfl
      rw [e] at hw
      cases hw
      decide,
    rfl, by decide⟩

/-- SendHs1Cycle, SendHs2Cycle, SendAddrCycle, RecvFrameCycle and UnrequestedTransactionDoesNothing: each state, with
success, with failure and without a completion. -/
theorem witness_transaction (st : SeqState) (done ok : Bool) :
    ∃ s : State, s.regs.state = st ∧ s.pins.busDone = done ∧ s.pins.bus.ok = ok ∧ s.pins.draw = some 10 :=
  ⟨block (busyIn st) { completion ok 5 0 with busDone := done, draw := some 10 }, rfl, rfl, rfl, rfl⟩

/-- TransportErrorEndsTheCommand: each of the four bus states. -/
theorem witness_error (st : SeqState) (h : busReq st = true) :
    ∃ s : State, s.regs.state = st ∧ s.pins.rst = false ∧ busReq s.regs.state = true ∧ s.pins.busDone = true ∧
      s.pins.bus.ok = false :=
  ⟨block (busyIn st) (completion false 5 0), rfl, rfl, h, rfl, rfl⟩
theorem witness_error_step :
    ∃ s t : State, step s = .next t ∧ s.regs.err = false ∧ t.regs.err = true :=
  ⟨block (busyIn .hsW1) (completion false 5 0), _, rfl, rfl, rfl⟩

/-- ErrorRecordLastsUntilTheNextAccept: a cycle without an access, and an accept. -/
theorem witness_record :
    (∃ s t : State, s.pins.rst = false ∧ s.regs.state = .idle ∧ step s = .next t ∧ t.regs.state = .idle ∧
      s.regs.err = true) ∧
    (∃ s t : State, s.pins.rst = false ∧ s.regs.state = .idle ∧ step s = .next t ∧ t.regs.state ≠ .idle ∧
      s.regs.err = true) :=
  ⟨⟨block failed .quiet, _, rfl, rfl, rfl, rfl, rfl⟩,
    ⟨hosted [.wr 0 2] (block failed .quiet), _, rfl, rfl, rfl, by decide, rfl⟩⟩

/-- ResetEdgeFromAnyState: beside a read, a write and no access. -/
theorem witness_reset :
    (∃ (s : State) (w : HostAccWord), s.pins.rst = true ∧ s.beginCycle.hostWord = some w ∧ hostAccWe w = false) ∧
    (∃ (s : State) (w : HostAccWord), s.pins.rst = true ∧ s.beginCycle.hostWord = some w ∧ hostAccWe w = true) ∧
    (∃ s : State, s.pins.rst = true ∧ s.beginCycle.hostWord = none) :=
  ⟨⟨hosted [.rd 7] (block row5 { Pins.quiet with rst := true }), _, rfl, rfl, by decide⟩,
    ⟨hosted [.wr 0 1] (block row5 { Pins.quiet with rst := true }), _, rfl, rfl, by decide⟩,
    ⟨block row5 { Pins.quiet with rst := true }, rfl, rfl⟩⟩

/-- EveryStepKeepsTheInvariants and FrameValidMeansTheLastCommandReadIt: a step into FRAME_VALID, and one within it. -/
def captured : Regs := { row1 with done := true, frameValid := true }
theorem witness_invariants :
    (block (busyIn .rfRead) (completion true 0 7)).Inv ∧ (block captured .quiet).Inv := by
  refine ⟨⟨?_, ?_⟩, ⟨?_, ?_⟩⟩ <;> constructor <;> decide
theorem witness_frameValid :
    (∃ t, step (block (busyIn .rfRead) (completion true 0 7)) = .next t ∧ t.regs.frameValid = true) ∧
    (∃ t, step (block captured .quiet) = .next t ∧ t.regs.frameValid = true) :=
  ⟨⟨_, rfl, rfl⟩, ⟨_, rfl, rfl⟩⟩

/-- DoneImpliesNotBusyIsKept. -/
theorem witness_done :
    ∃ s t : State, (s.regs.done = true → busy s.regs = false) ∧ step s = .next t ∧ t.regs.done = true :=
  ⟨block (busyIn .hsW2) (completion true 0 0), _, (fun h => by cases h), rfl, rfl⟩

/-- SequencerVisitsOnlyItsSequences: one of its transitions for each state left. -/
theorem witness_sequence (st : SeqState) (h : ∀ i, st ≠ .reserved i) :
    ∃ s t : State, s.regs.state = st ∧ s.pins.rst = false ∧ step s = .next t ∧ t.regs.state ≠ s.regs.state := by
  cases st with
  | idle => exact ⟨hosted [.wr 0 1] (block (busyIn .idle) .quiet), _, rfl, rfl, rfl, by decide⟩
  | hsW1 => exact ⟨block (busyIn .hsW1) (completion true 0 0), _, rfl, rfl, rfl, by decide⟩
  | hsW2 => exact ⟨block (busyIn .hsW2) (completion true 0 0), _, rfl, rfl, rfl, by decide⟩
  | rfSettle1 => exact ⟨block (busyIn .rfSettle1) .quiet, _, rfl, rfl, rfl, by decide⟩
  | rfAddr => exact ⟨block (busyIn .rfAddr) (completion true 0 0), _, rfl, rfl, rfl, by decide⟩
  | rfSettle2 => exact ⟨block (busyIn .rfSettle2) .quiet, _, rfl, rfl, rfl, by decide⟩
  | rfRead => exact ⟨block (busyIn .rfRead) (completion true 0 0), _, rfl, rfl, rfl, by decide⟩
  | reserved i => exact absurd rfl (h i)

/-- SecondHandshakeWriteOnlyAfterTheFirst: the request begun, and kept. -/
theorem witness_second_write :
    (∃ t, step (block (busyIn .hsW1) (completion true 0 0)) = .next t ∧ busWord t.regs.state = some 0x200FB) ∧
    (∃ t, step (block (busyIn .hsW2) .quiet) = .next t ∧ busWord t.regs.state = some 0x200FB) :=
  ⟨⟨_, rfl, by decide⟩, ⟨_, rfl, by decide⟩⟩

/-- FrameChangesOnlyAsAWhole: by a reset, and by a read. -/
theorem witness_frame_change :
    (∃ s t : State, step s = .next t ∧ t.regs.frame ≠ s.regs.frame ∧ s.pins.rst = true) ∧
    (∃ s t : State, step s = .next t ∧ t.regs.frame ≠ s.regs.frame ∧ s.pins.rst = false) :=
  ⟨⟨block row1 { Pins.quiet with rst := true }, _, rfl, by decide, rfl⟩,
    ⟨block (busyIn .rfRead) (completion true 0 7), _, rfl, by decide, rfl⟩⟩

/-- HsOkFollowsTheLastHandshake: by a reset, an accept and a success. -/
theorem witness_hsOk :
    (∃ s t : State, step s = .next t ∧ t.regs.hsOk ≠ s.regs.hsOk ∧ s.pins.rst = true) ∧
    (∃ s t : State, step s = .next t ∧ t.regs.hsOk ≠ s.regs.hsOk ∧ s.regs.state = .idle ∧ s.pins.rst = false) ∧
    (∃ s t : State, step s = .next t ∧ t.regs.hsOk ≠ s.regs.hsOk ∧ s.regs.state = .hsW2) :=
  ⟨⟨block { row1 with hsOk := true } { Pins.quiet with rst := true }, _, rfl, by decide, rfl⟩,
    ⟨hosted [.wr 0 1] (block { row1 with hsOk := true } .quiet), _, rfl, by decide, rfl, rfl⟩,
    ⟨block (busyIn .hsW2) (completion true 0 0), _, rfl, by decide, rfl⟩⟩

/-- ReservedStateIsHeldUntilReset, at both ends of the reserved codes. -/
theorem witness_reserved (i : Fin 9) :
    ∃ s t : State, s.regs.state = .reserved i ∧ s.pins.rst = false ∧ step s = .next t :=
  ⟨hosted [.wr 0 7] (block (busyIn (.reserved i)) (completion true 0 0)), _, rfl, rfl, rfl⟩

/-- SpuriousCompletionIsIgnored: in IDLE, and in a reset cycle of a bus state. -/
theorem witness_spurious :
    ((completion true 5 7).rst = Pins.quiet.rst ∧ (completion true 5 7).draw = Pins.quiet.draw ∧
      busReq (block blank .quiet).regs.state = false) ∧
    (({ completion true 5 7 with rst := true } : Pins).rst = ({ Pins.quiet with rst := true } : Pins).rst ∧
      ({ completion true 5 7 with rst := true } : Pins).draw = ({ Pins.quiet with rst := true } : Pins).draw ∧
      ({ completion true 5 7 with rst := true } : Pins).rst = true) := by decide

/-- UnusedResponseFieldsAreIgnored: the pairs of its three cases, and a write and a read of the second. -/
theorem witness_unused :
    (completion true 5 7).busDone = (completion true 6 8).busDone ∧ (completion true 5 7).bus.ok = true ∧
    (completion true 6 8).bus.ok = true ∧ busOp (block (busyIn .hsW1) .quiet).regs.state = false ∧
    (completion true 5 7).bus.rdata = (completion true 6 7).bus.rdata ∧
    (completion false 5 7).bus.ok = false ∧ (completion false 5 8).bus.ok = false ∧
    (completion false 5 7).bus.err = (completion false 5 8).bus.err ∧ Pins.quiet.busDone = false := by decide

/-- BusyAccessTouchesOnlyStickyFlags. -/
theorem witness_busy_access :
    ∃ s t : State, (Instr.wrCmd 7).format ≠ .busReq ∧ s.regs.state ≠ .idle ∧ exec (.wrCmd 7) s = .next t ∧
      t.regs ≠ s.regs :=
  ⟨block (busyIn .rfSettle1) .quiet, _, by decide, by decide, rfl, by decide⟩

/-- SettleBoundsAndCounterWidth: its clauses about widths and about a step. -/
theorem witness_counter :
    (1 ≤ 5 ∧ tMax ⟨1000, by decide⟩ ≤ 2 ^ 5 ∧ tMax ⟨100, by decide⟩ ≤ 2 ^ 1) ∧
    ∃ s t : State, s.regs.cnt.toNat < tMax s.clock ∧ step s = .next t :=
  ⟨by decide, hosted [.wr 0 2] (block { blank with cnt := blank.cnt.load 19 } .quiet), _, by decide, rfl⟩

/-- SettleStateLastsExactlyItsDelay: both states, with the shortest and with a longer counter. -/
theorem witness_settle (st : SeqState) (n : Nat) (hn : n = 0 ∨ n = 3) :
    ∃ s : State, s.regs.cnt.toNat = n ∧ (∀ k, k ≤ n → (s.cycleAt k).pins.rst = false) ∧ s.regs.state = st := by
  obtain rfl | rfl := hn
  · exact ⟨block (busyIn st) .quiet, rfl, fun k hk => by interval_cases k; rfl, rfl⟩
  · exact ⟨block { busyIn st with cnt := blank.cnt.load 3 } .quiet, by show (blank.cnt.load 3).toNat = 3; decide,
      fun k hk => by interval_cases k <;> rfl, rfl⟩

/-- BusStateWaitsWithoutLimit. -/
theorem witness_wait :
    ∃ s : State, busReq s.regs.state = true ∧
      ∀ k, k < 3 → (s.cycleAt k).pins.rst = false ∧ (s.cycleAt k).pins.busDone = false :=
  ⟨block (busyIn .rfRead) .quiet, rfl, by decide⟩

/-- HandshakeDuration, with `L1 = 1` and `L2 = 2` and every outcome of the two writes. -/
def handshakeRun (ok1 ok2 : Bool) : State :=
  cycles [.quiet, completion ok1 6 0, .quiet, completion ok2 0x79 0] (hosted [.wr 0 1] (block blank .quiet))
theorem witness_handshake (ok1 ok2 : Bool) :
    (handshakeRun ok1 ok2).regs.state = .idle ∧
    (handshakeRun ok1 ok2).beginCycle.hostWord = some (hostAccWord true 0 1) ∧ (1 : Word).toNat % 256 = 1 ∧
    (∀ k, k ≤ 1 + 2 → ((handshakeRun ok1 ok2).cycleAt k).pins.rst = false) ∧
    (∀ k, 1 ≤ k → k < 1 → ((handshakeRun ok1 ok2).cycleAt k).pins.busDone = false) ∧
    ((handshakeRun ok1 ok2).cycleAt 1).pins.busDone = true ∧
    ((handshakeRun ok1 ok2).cycleAt 1).pins.bus.ok = ok1 ∧
    (∀ k, 1 < k → k < 1 + 2 → ((handshakeRun ok1 ok2).cycleAt k).pins.busDone = false) ∧
    ((handshakeRun ok1 ok2).cycleAt (1 + 2)).pins.busDone = true ∧
    ((handshakeRun ok1 ok2).cycleAt (1 + 2)).pins.bus.ok = ok2 := by
  refine ⟨rfl, rfl, rfl, fun k hk => by interval_cases k <;> rfl, fun k h1 h2 => by omega, rfl, rfl, fun k h1 h2 => ?_,
    rfl, rfl⟩
  obtain rfl : k = 2 := by omega
  rfl

/-- ReadFrameOrderAndDuration, at `F_CLK = 100` Hz with both bounds drawn, `d1 = 1`, `L3 = 1`, `d2 = 2`, `L4 = 2`, and
every outcome of the two transactions. -/
def readFrameRun (ok3 ok4 : Bool) : State :=
  { cycles [{ Pins.quiet with draw := some 1 }, .quiet, { completion ok3 2 0 with draw := some 2 }, .quiet, .quiet,
      .quiet, completion ok4 5 7] (hosted [.wr 0 2] (block blank .quiet)) with regs := .reset ⟨100, by decide⟩ }
theorem witness_readFrame (ok3 ok4 : Bool) :
    tMin (readFrameRun ok3 ok4).clock ≤ 1 ∧ 1 ≤ tMax (readFrameRun ok3 ok4).clock ∧
    tMin (readFrameRun ok3 ok4).clock ≤ 2 ∧ 2 ≤ tMax (readFrameRun ok3 ok4).clock ∧
    (readFrameRun ok3 ok4).regs.state = .idle ∧
    (readFrameRun ok3 ok4).beginCycle.hostWord = some (hostAccWord true 0 2) ∧ (2 : Word).toNat % 256 = 2 ∧
    (∀ k, k ≤ 1 + 1 + 2 + 2 → ((readFrameRun ok3 ok4).cycleAt k).pins.rst = false) ∧
    ((readFrameRun ok3 ok4).cycleAt 0).pins.draw = some 1 ∧
    (∀ k, 1 < k → k < 1 + 1 → ((readFrameRun ok3 ok4).cycleAt k).pins.busDone = false) ∧
    ((readFrameRun ok3 ok4).cycleAt (1 + 1)).pins.busDone = true ∧
    ((readFrameRun ok3 ok4).cycleAt (1 + 1)).pins.bus.ok = ok3 ∧
    ((readFrameRun ok3 ok4).cycleAt (1 + 1)).pins.draw = some 2 ∧
    (∀ k, 1 + 1 + 2 < k → k < 1 + 1 + 2 + 2 → ((readFrameRun ok3 ok4).cycleAt k).pins.busDone = false) ∧
    ((readFrameRun ok3 ok4).cycleAt (1 + 1 + 2 + 2)).pins.busDone = true ∧
    ((readFrameRun ok3 ok4).cycleAt (1 + 1 + 2 + 2)).pins.bus.ok = ok4 := by
  refine ⟨by show tMin ⟨100, _⟩ ≤ 1; decide, by show 1 ≤ tMax ⟨100, _⟩; decide, by show tMin ⟨100, _⟩ ≤ 2; decide,
    by show 2 ≤ tMax ⟨100, _⟩; decide, rfl, rfl, rfl, fun k hk => by interval_cases k <;> rfl, rfl,
    fun k h1 h2 => by omega, rfl, rfl, rfl, fun k h1 h2 => ?_, rfl, rfl⟩
  obtain rfl : k = 5 := by omega
  rfl

/-- 70_reset_and_hazards.md R295: a script that ends in `idle` lines ends at its last port access; one with an access
ahead, or with a loop of `idle` lines, does not. -/
theorem test_script_end :
    (nextOf (step (hosted [.rd 7, .idle, .idle] (block blank .quiet)))).map (·.host.spent) = some true ∧
    (nextOf (step (hosted [.rd 7, .idle, .rd 7] (block blank .quiet)))).map (·.host.spent) = some false ∧
    (nextOf (step (hosted [.rd 7, .label 0, .idle, .goto 0] (block blank .quiet)))).map (·.host.spent) =
      some false := by decide

/-- 41_handshake.md R149 and 70_reset_and_hazards.md R295: the HANDSHAKE of the run above ends at the completion edge of
its second write. -/
theorem test_command_end : ∃ t, RunEnds (.command 0) (handshakeRun true true) 3 t ∧ t.regs.hsOk = true := by
  refine ⟨_, ⟨?_, ?_, ⟨_, rfl, rfl, .inr ⟨by decide, rfl⟩⟩⟩, rfl⟩
  · rintro a ⟨⟩
    exact ⟨by decide, _, rfl, rfl, rfl, _, rfl, by decide⟩
  · intro m hm
    interval_cases m
    all_goals exact ⟨_, _, rfl, rfl, rfl, fun h => by cases h.2⟩

/-! ### The host -/

/-- A host in a lifecycle state at a line of a script, with requests in the first cycle. -/
def hostAt (life : Lifecycle) (script : List Line) (pos : Nat) (c : Calls) (r : Regs) : State :=
  { block r .quiet with
    host := { HostAgent.initial with
      life := life, script := script, pos := pos, handle := life.attached,
      timerArmed := life == .registered }
    env := [{ pins := .quiet, calls := c }] }

/-- LifecycleOnlyMovesForward: a step from each state it leaves, and the cases of the attach's moves. -/
theorem witness_lifecycle :
    (∃ t, step (hostAt .uninitialized [] 0 { Calls.quiet with attach := true } blank) = .next t ∧
      t.host.life = .failed) ∧
    (∃ t, step (hostAt .handshaking [.act .verify] 0 .quiet blank) = .next t ∧ t.host.life = .verifying) ∧
    (∃ t, step (hostAt .verifying [.act .register] 0 .quiet blank) = .next t ∧ t.host.life = .failed) ∧
    (∃ t, step (hostAt .registered [] 0 { Calls.quiet with detach := true } blank) = .next t ∧
      t.host.life = .removed) :=
  ⟨⟨_, rfl, rfl⟩, ⟨_, rfl, rfl⟩, ⟨_, rfl, rfl⟩, ⟨_, rfl, rfl⟩⟩
theorem witness_attach_request (ok : Bool) :
    ∃ s : State, s.host.life = .uninitialized ∧ s.host.free = true ∧ s.cycle.calls.attach = true ∧
      s.cycle.calls.allocOk = ok :=
  ⟨hostAt .uninitialized [] 0 { Calls.quiet with attach := true, allocOk := ok } blank, rfl, rfl, rfl, rfl⟩
theorem witness_verify :
    ∃ s : State, s.host.script = attachScript ∧ s.host.pos = 4 ∧ s.host.life = .handshaking ∧ s.regs.err = false ∧
      s.regs.hsOk = true :=
  ⟨hostAt .handshaking attachScript 4 .quiet { captured with hsOk := true }, rfl, rfl, rfl, rfl, rfl⟩
theorem witness_register (pos : Nat) (ok : Bool) :
    ∃ s : State, s.host.script = attachScript ∧ s.host.pos = pos ∧ s.host.life = .verifying ∧
      s.host.detaching = false ∧ s.regs.done = true ∧ s.regs.err = false ∧ s.cycle.calls.registerOk = ok :=
  ⟨hostAt .verifying attachScript pos { Calls.quiet with registerOk := ok } captured, rfl, rfl, rfl, rfl, rfl, rfl, rfl⟩

/-- TickInFlightIsDropped: a free host the cycle before a tick and at a tick, and each case in which a tick is
dropped. -/
theorem witness_tick :
    (∃ s : State, s.host.life = .registered ∧ s.host.timerArmed = true ∧ s.cycle.calls.detach = false ∧
      s.host.free = true ∧ s.host.sinceTick + 1 = 4 ∧ tTick s.clock = 5) ∧
    (∃ s : State, s.host.life = .registered ∧ s.host.timerArmed = true ∧ s.cycle.calls.detach = false ∧
      s.host.free = true ∧ s.host.sinceTick + 1 = 5 ∧ tTick s.clock = 5 ∧ s.pins.rst = false ∧
      s.regs.state = .idle) ∧
    (hostAt .registered pollScript 2 .quiet blank).host.free = false ∧
    (hostAt .failed [] 0 .quiet blank).host.life ≠ .registered ∧
    (hostAt .removed [] 0 .quiet blank).host.timerArmed = false :=
  ⟨⟨(hostAt .registered [] 0 .quiet blank).withSinceTick 3, rfl, rfl, rfl, rfl, rfl, by decide⟩,
    ⟨(hostAt .registered [] 0 .quiet blank).withSinceTick 4, rfl, rfl, rfl, rfl, rfl, by decide, rfl, rfl⟩, by decide⟩

/-- A tick and the four cycles before it (44_host_protocol.md R222, 5 ms at `F_CLK = 1000` Hz). -/
theorem test_tick :
    (nextOf (step ((hostAt .registered [] 0 .quiet blank).withSinceTick 3))).map (·.regs.state) = some .idle ∧
    (nextOf (step ((hostAt .registered [] 0 .quiet blank).withSinceTick 4))).map (·.regs.state) =
      some .rfSettle1 := by decide

/-- SuccessfulPollPublishesInOrder: from the STATUS, the JOY and the BTN read. -/
theorem witness_poll :
    (∃ s t : State, s.host.script = pollScript ∧ s.host.pos = 4 ∧ s.regs.err = false ∧ step s = .next t) ∧
    (∃ s t u : State, s.host.script = pollScript ∧ s.host.pos = 7 ∧ s.regs.state = .idle ∧ s.pins.rst = false ∧
      step s = .next t ∧ step t = .next u) ∧
    (∃ s t : State, s.host.script = pollScript ∧ s.host.pos = 9 ∧ step s = .next t) :=
  ⟨⟨hostAt .registered pollScript 4 .quiet captured, _, rfl, rfl, rfl, rfl⟩,
    ⟨hostAt .registered pollScript 7 .quiet captured, _, _, rfl, rfl, rfl, rfl, rfl, rfl⟩,
    ⟨hostAt .registered pollScript 9 .quiet captured, _, rfl, rfl, rfl⟩⟩

/-- FailedPollPublishesNothing. -/
theorem witness_failed_poll :
    ∃ s t u : State, s.host.script = pollScript ∧ s.host.pos = 4 ∧ s.host.life = .registered ∧ s.regs.state = .idle ∧
      s.regs.err = true ∧ (∀ k, k ≤ 1 → (s.cycleAt k).pins.rst = false ∧ (s.cycleAt k).calls = .quiet) ∧
      s.host.detaching = false ∧ step s = .next t ∧ step t = .next u :=
  ⟨hostAt .registered pollScript 4 .quiet failed, _, _, rfl, rfl, rfl, rfl, rfl, by decide, rfl, rfl, rfl⟩

/-- FailedHandshakeFailsTheAttach: after the handshake, and after either verification read. -/
theorem witness_failed_attach :
    (∃ s t u : State, s.host.script = attachScript ∧ s.host.pos = 4 ∧ s.host.life = .handshaking ∧
      s.regs.state = .idle ∧ s.regs.err = true ∧ (∀ k, k ≤ 1 → (s.cycleAt k).pins.rst = false) ∧
      step s = .next t ∧ step t = .next u) ∧
    (∀ pos, pos = 11 ∨ pos = 18 → ∃ s t u : State, s.host.script = attachScript ∧ s.host.pos = pos ∧
      s.host.life = .verifying ∧ s.regs.done = true ∧ s.regs.state = .idle ∧ s.regs.err = true ∧
      (∀ k, k ≤ 1 → (s.cycleAt k).pins.rst = false) ∧ step s = .next t ∧ step t = .next u) := by
  refine ⟨⟨hostAt .handshaking attachScript 4 .quiet { failed with errOp := 1 }, _, _, rfl, rfl, rfl, rfl, rfl,
    by decide, rfl, rfl⟩, ?_⟩
  rintro pos (rfl | rfl)
  · exact ⟨hostAt .verifying attachScript 11 .quiet failed, _, _, rfl, rfl, rfl, rfl, rfl, rfl, by decide, rfl, rfl⟩
  · exact ⟨hostAt .verifying attachScript 18 .quiet failed, _, _, rfl, rfl, rfl, rfl, rfl, rfl, by decide, rfl, rfl⟩

/-- A registered host whose detach request waits. -/
def waiting (script : List Line) (pos : Nat) (r : Regs) : State :=
  let s := hostAt .registered script pos .quiet r
  { s with host := { s.host with timerArmed := false, detaching := true } }

/-- DetachDisarmsThenRemoves: a request with no poll in flight, and with one; a waiting request at the poll's last read,
and earlier. -/
theorem witness_detach :
    (∃ s t : State, s.host.life = .registered ∧ s.cycle.calls.detach = true ∧ step s = .next t ∧ s.host.free = true ∧
      t.host.free = true) ∧
    (∃ s t : State, s.host.life = .registered ∧ s.cycle.calls.detach = true ∧ step s = .next t ∧
      t.host.free = false) ∧
    (∃ s t : State, s.host.life = .registered ∧ s.cycle.calls.detach = false ∧
      (s.host.detaching = true ∧ s.host.Inv) ∧ step s = .next t ∧ t.host.free = true) ∧
    (∃ s t : State, s.host.life = .registered ∧ s.cycle.calls.detach = false ∧
      (s.host.detaching = true ∧ s.host.Inv) ∧ step s = .next t ∧ t.host.free = false) :=
  ⟨⟨hostAt .registered [] 0 { Calls.quiet with detach := true } blank, _, rfl, rfl, rfl, rfl, rfl⟩,
    ⟨hostAt .registered pollScript 2 { Calls.quiet with detach := true } (busyIn .rfSettle1), _, rfl, rfl, rfl, rfl⟩,
    ⟨waiting pollScript 9 captured, _, rfl, rfl, ⟨rfl, by constructor <;> decide⟩, rfl, by decide⟩,
    ⟨waiting pollScript 2 (busyIn .rfSettle1), _, rfl, rfl, ⟨rfl, by constructor <;> decide⟩, rfl, by decide⟩⟩

end Sys2Proof.Tests
end

section
/-! PROOFS of the statements of 00_scope.md: the settle bounds in real time, the counter's width, and the counter's
range along a step. -/

namespace Sys2Proof.Machine

/-! ## The bounds in real time (00_scope.md R8) -/

/-- `T_MIN` cycles are the fewest that last at least 10 ms: a ceiling, so no shorter length is admitted. -/
theorem tMin_le_iff (c : ClockRate) (d : Nat) : tMin c ≤ d ↔ 10 * c.hz ≤ 1000 * d := by
  unfold tMin
  omega

/-- `T_MAX` cycles are the most that last at most 20 ms: a floor, so no longer length is admitted. -/
theorem le_tMax_iff (c : ClockRate) (d : Nat) : d ≤ tMax c ↔ 1000 * d ≤ 20 * c.hz := by
  unfold tMax
  omega

/-! ## The width of the settle counter (00_scope.md R9) -/

/-- `F_CLK` is at least 100 Hz (00_scope.md R7), so the counter has to tell at least two values apart. -/
theorem two_le_tMax (c : ClockRate) : 2 ≤ tMax c := by
  have := c.atLeast100
  unfold tMax
  omega

theorem one_le_settleWidth (c : ClockRate) : 1 ≤ settleWidth c := Nat.le_add_left 1 _

/-- No narrower counter holds `0 .. T_MAX - 1`. -/
theorem settleWidth_le_of_tMax_le {c : ClockRate} {w : Nat} (h : tMax c ≤ 2 ^ w) : settleWidth c ≤ w := by
  have h2 := two_le_tMax c
  have hlt : tMax c - 1 < 2 ^ w := by omega
  exact (Nat.log2_lt (by omega)).mpr hlt

/-! ## The range of the settle counter (00_scope.md R9) -/

/-- A counter just loaded with a drawn length is in its range. -/
theorem load_drawDelay_lt {c : SettleCounter} {s : State} (h : c.clock = s.clock) :
    (c.load (s.drawDelay - 1)).toNat < tMax s.clock := by
  have hload := load_drawDelay_toNat h
  have hd := drawDelay_bounds s
  omega

/-- The host's access never changes the frequency the counter is built for. -/
theorem AccessWrites.clock {s : State} {r : Regs} (h : AccessWrites s r) : r.cnt.clock = s.clock := by
  cases h with
  | nothing hr | overrun hr | badCmd _ hr | handshake _ hr | readFrame _ hr => subst hr; rfl

/-- The host's access leaves the counter or loads it with a drawn length. -/
theorem AccessWrites.cnt_lt {s : State} {r : Regs} (h : AccessWrites s r) (hs : s.regs.cnt.toNat < tMax s.clock) :
    r.cnt.toNat < tMax s.clock := by
  cases h with
  | nothing hr | overrun hr | badCmd _ hr | handshake _ hr => rw [hr]; exact hs
  | readFrame _ hr => rw [hr]; exact load_drawDelay_lt (s := s.mapRegs acceptCommon) rfl

/-- The sequencer leaves the counter, counts it down, or loads it with a drawn length. -/
theorem SequencerWrites.cnt_lt {s : State} {r r' : Regs} (h : SequencerWrites s r r') (hc : r.cnt.clock = s.clock)
    (hr : r.cnt.toNat < tMax r.cnt.clock) : r'.cnt.toNat < tMax r'.cnt.clock := by
  cases h with
  | nothing e | hsW1 _ _ _ e | hsW2 _ _ _ e | rfRead _ _ _ e | error _ _ _ e => rw [e]; exact hr
  | settle1 _ e | settle2 _ e => rw [e]; exact settleStep_cnt_lt hr
  | rfAddr _ _ _ e =>
    rw [e]
    show (r.cnt.load (s.drawDelay - 1)).toNat < tMax r.cnt.clock
    rw [hc]
    exact load_drawDelay_lt hc

/-- A reset clears the counter. -/
theorem Regs.reset_cnt_lt (c : ClockRate) : (Regs.reset c).cnt.toNat < tMax (Regs.reset c).cnt.clock := by
  have h2 := two_le_tMax c
  show (0#(settleWidth c)).toNat < tMax c
  rw [BitVec.toNat_zero]
  omega

/-- Every step keeps the counter in its range: a reset clears it, and neither part of an edge leaves the range. -/
theorem step_cnt_lt {s t : State} (hs : s.regs.cnt.toNat < tMax s.clock) (h : step s = .next t) :
    t.regs.cnt.toNat < tMax t.clock := by
  obtain ⟨u, hu, -, -, hcase⟩ := step_effect s
  obtain rfl : t = u := by rw [h] at hu; cases hu; rfl
  obtain ⟨-, hreset, -⟩ | ⟨-, r, w, haccess, hseq, -⟩ := hcase
  · show t.regs.cnt.toNat < tMax t.regs.cnt.clock
    rw [hreset]
    exact Regs.reset_cnt_lt _
  · have hc := haccess.clock
    exact hseq.cnt_lt hc (by rw [hc]; exact haccess.cnt_lt hs)

/-- Settles O50: the two bounds by rounding, the width by the logarithm, and the range by what a step can do to the
counter. -/
theorem settleBoundsAndCounterWidth : Obligations.SettleBoundsAndCounterWidth :=
  ⟨fun c d => ⟨tMin_le_iff c d, le_tMax_iff c d⟩,
    fun c => ⟨one_le_settleWidth c, tMax_le_settleWidth c, fun _ _ h => settleWidth_le_of_tMax_le h⟩,
    fun _ _ hs h => step_cnt_lt hs h⟩

end Sys2Proof.Machine
end

section
/-! PROOFS of the statements of 10_state.md on the host's read-only words: their layouts as numbers, what a read and a
write of each does, and their values after reset. -/

namespace Sys2Proof.Machine

/-! ## The layouts of the words (10_state.md R41 to R47) -/

/-- BUSY as a bit (10_state.md R24). -/
theorem busy_toNat (r : Regs) : (busy r).toNat = if r.state = .idle then 0 else 1 := by
  by_cases h : r.state = .idle <;> simp [busy, h]

theorem statusWord_toNat (r : Regs) :
    (statusWord r).toNat = (if r.state = .idle then 0 else 1) + 2 * r.done.toNat + 4 * r.err.toNat
      + 8 * r.frameValid.toNat + 16 * r.hsOk.toNat + 32 * r.badCmd.toNat + 64 * r.overrun.toNat
      + 2 ^ 8 * r.errOp.toNat + 2 ^ 16 * r.state.code.toNat := by
  unfold statusWord
  change @BitVec.toNat (12 + 4 + 4 + 4 + 1 + 1 + 1 + 1 + 1 + 1 + 1 + 1) _ = _
  simp only [toNat_append_add, BitVec.toNat_ofBool, BitVec.toNat_ofNat, busy_toNat]
  omega

theorem errcodeWord_toNat (r : Regs) : (errcodeWord r).toNat = r.errCode.toNat := by
  unfold errcodeWord
  change @BitVec.toNat (16 + 16) _ = _
  simp only [toNat_append_add, BitVec.toNat_ofNat]
  omega

theorem frame0Word_toNat (r : Regs) : (frame0Word r).toNat = r.frame.toNat % 2 ^ 32 := by
  simp [frame0Word]

theorem frame1Word_toNat (r : Regs) : (frame1Word r).toNat = r.frame.toNat / 2 ^ 32 := by
  have hf := r.frame.isLt
  unfold frame1Word
  change @BitVec.toNat (16 + 16) _ = _
  simp only [toNat_append_add, toNat_extractLsb_div, BitVec.toNat_ofNat]
  omega

/-- The low four bytes of a frame are its bits 31:0 (10_state.md R37, R43). -/
theorem frame_low_bytes (f : Frame) :
    f.toNat % 2 ^ 32 = (frameByte f 0).toNat + 2 ^ 8 * (frameByte f 1).toNat + 2 ^ 16 * (frameByte f 2).toNat
      + 2 ^ 24 * (frameByte f 3).toNat := by
  have h := frame_bytes f
  have h0 := (frameByte f 0).isLt
  have h1 := (frameByte f 1).isLt
  have h2 := (frameByte f 2).isLt
  have h3 := (frameByte f 3).isLt
  omega

/-- The high two bytes of a frame are its bits 47:32 (10_state.md R37, R44). -/
theorem frame_high_bytes (f : Frame) :
    f.toNat / 2 ^ 32 = (frameByte f 4).toNat + 2 ^ 8 * (frameByte f 5).toNat := by
  have h := frame_bytes f
  have hlow := frame_low_bytes f
  omega

theorem joyWord_toNat (r : Regs) :
    (joyWord r).toNat = (frameByte r.frame 0).toNat + 2 ^ 8 * (frameByte r.frame 1).toNat := by
  unfold joyWord decX decY
  change @BitVec.toNat (16 + 8 + 8) _ = _
  simp only [toNat_append_add, BitVec.toNat_ofNat]
  omega

theorem accWord_toNat (r : Regs) :
    (accWord r).toNat = (decXAcc r.frame).toNat + 2 ^ 10 * (decYAcc r.frame).toNat
      + 2 ^ 20 * (decZAcc r.frame).toNat := by
  unfold accWord
  change @BitVec.toNat (2 + 10 + 10 + 10) _ = _
  simp only [toNat_append_add, BitVec.toNat_ofNat]
  omega

theorem btnWord_toNat (r : Regs) :
    (btnWord r).toNat = (decZPressed r.frame).toNat + 2 * (decCPressed r.frame).toNat := by
  unfold btnWord
  change @BitVec.toNat (30 + 1 + 1) _ = _
  simp only [toNat_append_add, BitVec.toNat_ofBool, BitVec.toNat_ofNat]
  omega

/-! ## The three accelerations (43_decoder.md R192 to R194) -/

theorem decXAcc_toNat (f : Frame) :
    (decXAcc f).toNat = 4 * (frameByte f 2).toNat + (frameByte f 5).toNat / 4 % 4 :=
  (composeAcc_toNat _ _).1

theorem decYAcc_toNat (f : Frame) :
    (decYAcc f).toNat = 4 * (frameByte f 3).toNat + (frameByte f 5).toNat / 16 % 4 :=
  (composeAcc_toNat _ _).2.1

theorem decZAcc_toNat (f : Frame) :
    (decZAcc f).toNat = 4 * (frameByte f 4).toNat + (frameByte f 5).toNat / 64 % 4 :=
  (composeAcc_toNat _ _).2.2

/-! ## What a read and a write of these words does (40_register_access.md R120, R128) -/

section
variable (a : RegIdx) (d : Word) (s : State)

@[simp] theorem exec_rdStatus : exec (.rdStatus d) s = .next (s.setT (statusWord s.regs)) := rfl
@[simp] theorem exec_rdErrcode : exec (.rdErrcode d) s = .next (s.setT (errcodeWord s.regs)) := rfl
@[simp] theorem exec_rdFrame0 : exec (.rdFrame0 d) s = .next (s.setT (frame0Word s.regs)) := rfl
@[simp] theorem exec_rdFrame1 : exec (.rdFrame1 d) s = .next (s.setT (frame1Word s.regs)) := rfl
@[simp] theorem exec_rdJoy : exec (.rdJoy d) s = .next (s.setT (joyWord s.regs)) := rfl
@[simp] theorem exec_rdAcc : exec (.rdAcc d) s = .next (s.setT (accWord s.regs)) := rfl
@[simp] theorem exec_rdBtn : exec (.rdBtn d) s = .next (s.setT (btnWord s.regs)) := rfl

@[simp] theorem exec_wrRo1 : exec (.wrRo1 d) s = .next s := rfl
@[simp] theorem exec_wrRo2to3 : exec (.wrRo2to3 a d) s = .next s := rfl
@[simp] theorem exec_wrRo4to7 : exec (.wrRo4to7 a d) s = .next s := rfl

end

/-- No word shows the settle counter (10_state.md R35, R39). -/
theorem readWord_cnt (r : Regs) (k : SettleCounter) (a : RegIdx) : readWord { r with cnt := k } a = readWord r a := rfl

/-- Right after reset every word reads 0 but BTN, whose buttons are active low in the zero frame
(70_reset_and_hazards.md R280, 10_state.md R47). -/
theorem readWord_reset (c : ClockRate) (a : RegIdx) :
    readWord (Regs.reset c) a = if a = 7#4 then 3 else 0 := by
  have hfixed : ∀ a, readWord (Regs.reset ⟨100, le_rfl⟩) a = if a = 7#4 then 3 else 0 := by decide
  calc
    readWord (Regs.reset c) a = readWord (Regs.reset ⟨100, le_rfl⟩) a := readWord_cnt (Regs.reset ⟨100, le_rfl⟩) _ a
    _ = if a = 7#4 then 3 else 0 := hfixed a

theorem readWord_reset_of_ne (c : ClockRate) {a : RegIdx} (h : a ≠ 7#4) : readWord (Regs.reset c) a = 0 := by
  rw [readWord_reset, if_neg h]

/-! ## The statements -/

/-- Settles O11: a read of STATUS puts `statusWord` into the host's temporary, and `statusWord_toNat` gives its bits. -/
theorem statusReadReturnsTheStatusLayout : Obligations.StatusReadReturnsTheStatusLayout :=
  ⟨fun d s => ⟨_, exec_rdStatus d s, statusWord_toNat s.regs⟩,
    exec_wrRo1,
    fun c => readWord_reset_of_ne c (by decide)⟩

/-- Settles O13: each read puts its word into the host's temporary; the frame's bytes are cut at bit 32. -/
theorem errcodeAndFrameReads : Obligations.ErrcodeAndFrameReads := by
  refine ⟨fun d s => ⟨_, exec_rdErrcode d s, errcodeWord_toNat s.regs⟩,
    fun d s => ⟨_, exec_rdFrame0 d s, ?_, frame0Word_toNat s.regs⟩,
    fun d s => ⟨_, exec_rdFrame1 d s, ?_, frame1Word_toNat s.regs⟩,
    fun a d s => ⟨exec_wrRo2to3 a d s, exec_wrRo4to7 a d s⟩,
    fun c => ⟨readWord_reset_of_ne c (by decide), readWord_reset_of_ne c (by decide),
      readWord_reset_of_ne c (by decide)⟩⟩
  · rw [frame0Word_toNat, frame_low_bytes]
  · rw [frame1Word_toNat, frame_high_bytes]

/-- Settles O14: each read puts its word into the host's temporary; the word's fields are the decoder's, and these are
numbers over the frame's bytes. -/
theorem decodedWordReads : Obligations.DecodedWordReads := by
  refine ⟨fun d s b hb => ⟨⟨_, exec_rdJoy d s, ?_⟩, ⟨_, exec_rdAcc d s, ?_⟩, ⟨_, exec_rdBtn d s, ?_⟩⟩,
    exec_wrRo4to7,
    fun c => ⟨readWord_reset_of_ne c (by decide), readWord_reset_of_ne c (by decide)⟩⟩
  · rw [joyWord_toNat, hb, hb]
  · rw [accWord_toNat, decXAcc_toNat, decYAcc_toNat, decZAcc_toNat, hb, hb, hb, hb]
  · rw [btnWord_toNat, decZPressed_toNat, decCPressed_toNat, hb]

end Sys2Proof.Machine
end

section
/-! PROOFS of the statements of 20_memory.md: the bus outputs of each sequencer state, and the bus inputs a step does
not depend on. -/

namespace Sys2Proof.Machine

/-! ## The BUSREQ words the block drives (20_memory.md R68) -/

@[simp] theorem busWord_hsW1 : busWord .hsW1 = some 0x255F0 := by decide
@[simp] theorem busWord_hsW2 : busWord .hsW2 = some 0x200FB := by decide
@[simp] theorem busWord_rfAddr : busWord .rfAddr = some 0x10000 := by decide
@[simp] theorem busWord_rfRead : busWord .rfRead = some 0xE0000 := by decide

/-- Without a request no word is driven. -/
theorem busWord_of_noRequest {st : SeqState} (h : busReq st = false) : busWord st = none := by
  simp [busWord, h]

/-- The state that drives a word, and the word. -/
theorem busWord_cases {st : SeqState} {w : BusReqWord} (h : busWord st = some w) :
    (st = .hsW1 ∧ w = 0x255F0) ∨ (st = .hsW2 ∧ w = 0x200FB) ∨ (st = .rfAddr ∧ w = 0x10000) ∨
      (st = .rfRead ∧ w = 0xE0000) := by
  cases st with
  | hsW1 | hsW2 | rfAddr | rfRead => simpa [eq_comm] using h
  | idle | rfSettle1 | rfSettle2 | reserved _ =>
    rw [busWord_of_noRequest rfl] at h
    cases h

/-- A state that is none of the four bus states drives zeros and no request. -/
theorem busOutputs_elsewhere {st : SeqState} (h₁ : st ≠ .hsW1) (h₂ : st ≠ .hsW2) (h₃ : st ≠ .rfAddr)
    (h₄ : st ≠ .rfRead) : (busReq st, busOp st, busLen st, busWdata st) = (false, false, 0, 0x0000) := by
  cases st with
  | hsW1 => exact absurd rfl h₁
  | hsW2 => exact absurd rfl h₂
  | rfAddr => exact absurd rfl h₃
  | rfRead => exact absurd rfl h₄
  | idle | rfSettle1 | rfSettle2 | reserved _ => rfl

/-- Settles O27: the four bus states have their outputs by evaluation, and every other state drives nothing. -/
theorem busOutputsOfEachState : Obligations.BusOutputsOfEachState := by
  refine ⟨fun st => ⟨?_, ?_, ?_, ?_, busOutputs_elsewhere⟩, busWord_hsW1, busWord_hsW2, busWord_rfAddr, busWord_rfRead,
    fun st w h => ?_, by decide, by decide, by decide⟩
  · rintro rfl; rfl
  · rintro rfl; rfl
  · rintro rfl; rfl
  · rintro rfl; rfl
  · exact (busWord_cases h).imp And.right (Or.imp And.right (Or.imp And.right And.right))

/-! ## Other input pins in the current cycle: what is read of them, and what passes them on -/

section
variable (s : State) (q : Pins)

@[simp] theorem State.withPins_pins : (s.withPins q).pins = q := rfl
@[simp] theorem State.withPins_hostWord : (s.withPins q).hostWord = s.hostWord := rfl
@[simp] theorem State.withPins_beginCycle : (s.withPins q).beginCycle = s.beginCycle.withPins q := rfl

/-- The pins of a cycle are gone when it is over. -/
@[simp] theorem State.withPins_endCycle : (s.withPins q).endCycle = s.endCycle := rfl

theorem mapRegs_withPins (f : Regs → Regs) : (s.withPins q).mapRegs f = (s.mapRegs f).withPins q := rfl

theorem hostRead_withPins (a : RegIdx) : hostRead a (s.withPins q) = (hostRead a s).withPins q := rfl

theorem handshakeStart_withPins : handshakeStart (s.withPins q) = (handshakeStart s).withPins q := rfl

/-- A reset edge reads no pin but `rst` (70_reset_and_hazards.md R280). -/
theorem resetEdge_withPins : resetEdge (s.withPins q) = (resetEdge s).withPins q := by
  unfold resetEdge resetRead
  rw [State.withPins_hostWord]
  cases s.hostWord with
  | none => rfl
  | some w =>
    by_cases hw : hostAccWe w = true
    · simp only [if_pos hw, mapRegs_withPins]
    · simp only [if_neg hw, hostRead_withPins, mapRegs_withPins]

end

/-- Entry to a settle state reads the draw and no other pin. -/
theorem enterSettle_withPins {s : State} {q : Pins} (hd : q.draw = s.pins.draw) (st : SeqState) :
    enterSettle st (s.withPins q) = (enterSettle st s).withPins q := by
  have h : (s.withPins q).drawDelay = s.drawDelay := by
    unfold State.drawDelay
    rw [State.withPins_pins, hd]
    rfl
  unfold enterSettle
  rw [h]
  rfl

theorem readFrameStart_withPins {s : State} {q : Pins} (hd : q.draw = s.pins.draw) :
    readFrameStart (s.withPins q) = (readFrameStart s).withPins q :=
  enterSettle_withPins hd _

/-! ## The host's access reads no bus input -/

theorem acceptOrOverrun_withPins {start : State → State} {s : State} {q : Pins}
    (h : start ((s.mapRegs acceptCommon).withPins q) = (start (s.mapRegs acceptCommon)).withPins q) :
    acceptOrOverrun start (s.withPins q) = (acceptOrOverrun start s).withPins q := by
  by_cases hi : s.regs.state = .idle
  · rw [acceptOrOverrun_idle hi, acceptOrOverrun_idle (s := s.withPins q) hi, mapRegs_withPins, h]
  · rw [acceptOrOverrun_busy hi, acceptOrOverrun_busy (s := s.withPins q) hi, mapRegs_withPins]

theorem exec_wrCmd_withPins {s t : State} {q : Pins} {d : Word} (hd : q.draw = s.pins.draw)
    (h : exec (.wrCmd d) s = .next t) : exec (.wrCmd d) (s.withPins q) = .next (t.withPins q) := by
  simp only [exec, execWrCmd, execNop, execHandshake, execReadFrame] at h ⊢
  by_cases h0 : opcodeOf d = 0x00#8
  · rw [if_pos h0] at h ⊢
    cases h
    rfl
  rw [if_neg h0] at h ⊢
  by_cases h1 : opcodeOf d = 0x01#8
  · rw [if_pos h1] at h ⊢
    cases h
    rw [acceptOrOverrun_withPins (handshakeStart_withPins _ _)]
  rw [if_neg h1] at h ⊢
  by_cases h2 : opcodeOf d = 0x02#8
  · rw [if_pos h2] at h ⊢
    cases h
    rw [acceptOrOverrun_withPins (readFrameStart_withPins (s := s.mapRegs acceptCommon) hd)]
  · rw [if_neg h2] at h ⊢
    cases h
    rfl

theorem exec_decodeHostAcc_withPins {s t : State} {q : Pins} {w : HostAccWord} (hd : q.draw = s.pins.draw)
    (h : exec (decodeHostAcc w) s = .next t) : exec (decodeHostAcc w) (s.withPins q) = .next (t.withPins q) := by
  rw [decodeHostAcc_exec] at h ⊢
  by_cases hw : hostAccWe w = true
  · rw [if_pos hw] at h ⊢
    by_cases ha : hostAccAddr w = 0#4
    · rw [if_pos ha] at h ⊢
      exact exec_wrCmd_withPins hd h
    · rw [if_neg ha] at h ⊢
      cases h
      rfl
  · rw [if_neg hw] at h ⊢
    cases h
    rfl

theorem hostPart_withPins {s t : State} {q : Pins} (hd : q.draw = s.pins.draw) (h : hostPart s = .next t) :
    hostPart (s.withPins q) = .next (t.withPins q) := by
  unfold hostPart at h ⊢
  rw [State.withPins_hostWord]
  cases hw : s.hostWord with
  | none =>
    rw [hw] at h
    cases h
    rfl
  | some w =>
    rw [hw] at h
    exact exec_decodeHostAcc_withPins hd h

/-! ## The sequencer reads of the bus inputs what its state listens to (20_memory.md R72, R73) -/

/-- In the state `st` the bus inputs of `p` and of `q` say the same to the sequencer: it requests nothing, it waits in
both, or they give it the same success or the same failure. -/
inductive SameAnswer (st : SeqState) (p q : Pins) : Prop where
  | noRequest (h : busReq st = false)
  | waiting (hp : p.busDone = false) (hq : q.busDone = false)
  | success (hp : p.busDone = true) (hq : q.busDone = true) (kp : p.bus.ok = true) (kq : q.bus.ok = true)
      (hdata : p.bus.rdata = q.bus.rdata ∨ busOp st = false)
  | failure (hp : p.busDone = true) (hq : q.busDone = true) (kp : p.bus.ok = false) (kq : q.bus.ok = false)
      (herr : p.bus.err = q.bus.err)

/-- A transaction does the same on the same answer, if its success does. -/
theorem busTransaction_withPins {st : SeqState} {op : BitVec 4} {f g : State → State} {s : State} {q : Pins}
    (hreq : busReq st = true) (hs : s.regs.state = st) (h : SameAnswer st s.pins q)
    (hfg : s.pins.bus.rdata = q.bus.rdata ∨ busOp st = false → g (s.withPins q) = (f s).withPins q) :
    busTransaction st op g (s.withPins q) = (busTransaction st op f s).withPins q := by
  have hs' : (s.withPins q).regs.state = st := hs
  cases h with
  | noRequest h =>
    rw [hreq] at h
    cases h
  | waiting hp hq => rw [busTransaction_wait hp, busTransaction_wait (s := s.withPins q) hq]
  | success hp hq kp kq hdata =>
    rw [busTransaction_success hs hp kp, busTransaction_success (s := s.withPins q) hs' hq kq, hfg hdata]
  | failure hp hq kp kq herr =>
    rw [busTransaction_failure hs hp kp, busTransaction_failure (s := s.withPins q) hs' hq kq, State.withPins_pins,
      herr, mapRegs_withPins]

theorem sequencerPart_withPins {st : SeqState} {s t : State} {q : Pins} (hs : st ≠ .idle → s.regs.state = st)
    (hd : q.draw = s.pins.draw) (ha : SameAnswer st s.pins q) (h : sequencerPart st s = .next t) :
    sequencerPart st (s.withPins q) = .next (t.withPins q) := by
  cases st with
  | idle | reserved _ | rfSettle1 | rfSettle2 =>
    cases h
    rfl
  | hsW1 =>
    cases h
    exact congrArg _ (busTransaction_withPins rfl (hs (by decide)) ha fun _ => mapRegs_withPins _ _ _)
  | hsW2 =>
    cases h
    exact congrArg _ (busTransaction_withPins rfl (hs (by decide)) ha fun _ => mapRegs_withPins _ _ _)
  | rfAddr =>
    cases h
    exact congrArg _ (busTransaction_withPins rfl (hs (by decide)) ha fun _ => enterSettle_withPins hd _)
  | rfRead =>
    cases h
    refine congrArg _ (busTransaction_withPins rfl (hs (by decide)) ha ?_)
    rintro (hdata | hop)
    · rw [State.withPins_pins, hdata, mapRegs_withPins]
    · cases hop

/-! ## A step -/

/-- A step depends on the bus inputs by the answer they give, and in a reset cycle not at all. -/
theorem step_withPins {s : State} {q : Pins} (hr : q.rst = s.pins.rst) (hd : q.draw = s.pins.draw)
    (h : s.pins.rst = true ∨ SameAnswer s.regs.state s.pins q) : step (s.withPins q) = step s := by
  obtain hrst | hrst := Bool.eq_false_or_eq_true s.pins.rst
  · rw [step_reset hrst, step_reset (s := s.withPins q) (hr.trans hrst), State.withPins_beginCycle, resetEdge_withPins,
      State.withPins_endCycle]
  · have ha : SameAnswer s.regs.state s.pins q := h.resolve_left (by simp [hrst])
    obtain ⟨s₁, h₁, -, he, -⟩ := hostPart_cases s.beginCycle
    have hs : s.regs.state ≠ .idle → s₁.regs.state = s.regs.state := hostPart_state (s := s.beginCycle) h₁
    obtain ⟨t, h₂, -⟩ := sequencerPart_cases s.regs.state s₁ hs
    have hp : s₁.pins = s.pins := State.pins_congr he
    have h₁' : hostPart (s.withPins q).beginCycle = .next (s₁.withPins q) := hostPart_withPins (s := s.beginCycle) hd h₁
    have h₂' : sequencerPart s.regs.state (s₁.withPins q) = .next (t.withPins q) :=
      sequencerPart_withPins hs (hd.trans (by rw [hp])) (by rw [hp]; exact ha) h₂
    rw [step_run hrst h₁ h₂, step_run (s := s.withPins q) (hr.trans hrst) h₁' h₂', State.withPins_endCycle]

/-- The same between any two choices of the pins, the second put over the first. -/
theorem step_withPins_congr {s : State} {p q : Pins} (hr : p.rst = q.rst) (hd : p.draw = q.draw)
    (h : p.rst = true ∨ SameAnswer s.regs.state p q) : step (s.withPins p) = step (s.withPins q) :=
  (step_withPins (s := s.withPins p) hr.symm hd.symm h).symm

/-- Settles O45: without a request the sequencer hears no answer, and a reset edge reads none. -/
theorem spuriousCompletionIsIgnored : Obligations.SpuriousCompletionIsIgnored := by
  rintro s p q hr hd (hreq | hrst)
  · exact step_withPins_congr hr hd (.inr (.noRequest hreq))
  · exact step_withPins_congr hr hd (.inl hrst)

/-- Settles O46: pins that differ only in the fields an answer does not use give the same answer. -/
theorem unusedResponseFieldsAreIgnored : Obligations.UnusedResponseFieldsAreIgnored := by
  intro s p q hr hd hdone h
  refine step_withPins_congr hr hd (.inr ?_)
  obtain hp | hp := Bool.eq_false_or_eq_true p.busDone
  · obtain hw | ⟨kp, kq, hdata⟩ | ⟨kp, kq, herr⟩ := h
    · rw [hp] at hw
      cases hw
    · exact .success hp (hdone ▸ hp) kp kq hdata
    · exact .failure hp (hdone ▸ hp) kp kq herr
  · exact .waiting hp (hdone ▸ hp)

end Sys2Proof.Machine
end

section
/-! PROOFS of the statements of 40_register_access.md on single accesses: what every host read returns, the ignored
writes, and the CMD writes that start no command (NOP, the reserved opcodes, and a command written while busy). -/

namespace Sys2Proof.Machine

/-! ## Host reads (40_register_access.md R120) -/

section
variable (a : RegIdx) (d : Word) (s : State)

@[simp] theorem exec_rdCmd : exec (.rdCmd d) s = .next (s.setT 0) := rfl
@[simp] theorem exec_rdUnmapped : exec (.rdUnmapped a d) s = .next (s.setT (readWord s.regs a)) := rfl

end

/-- CMD and the unmapped words 8 to 15 read 0 (10_state.md R39, R40). -/
theorem readWord_eq_zero {a : RegIdx} (r : Regs) (h : a = 0 ∨ 8 ≤ a.toNat) : readWord r a = 0 := by
  obtain rfl | h := h
  · rfl
  · unfold readWord
    split
    case h_1 | h_9 => rfl
    case h_2 | h_3 | h_4 | h_5 | h_6 | h_7 | h_8 => exact absurd h (by decide)

theorem exec_decodeHostAcc_read {w : HostAccWord} (s : State) (hr : hostAccWe w = false) :
    exec (decodeHostAcc w) s = .next (s.setT (readWord s.regs (hostAccAddr w))) := by
  rw [decodeHostAcc_exec, hr]
  rfl

/-- `reg_rdata` of a read's cycle (20_memory.md R64). -/
theorem regRdata_read {w : HostAccWord} {s : State} (hr : hostAccWe w = false) (hw : s.hostWord = some w) :
    s.regRdata = readWord s.regs (hostAccAddr w) := by
  simp [State.regRdata, hw, hr]

/-- Settles O15: a read puts `readWord` of the pre-edge registers into the host's temporary, `reg_rdata` is the same
word, and `readWord` is evaluated at each address. -/
theorem everyHostReadReturnsItsWord : Obligations.EveryHostReadReturnsItsWord := by
  refine ⟨exec_rdCmd, fun a d s hwf => ?_, fun w s hr => ?_,
    fun c => ⟨readWord_reset c 7, readWord_reset_of_ne c (by decide)⟩⟩
  · have ha : 8 ≤ a.toNat := BitVec.le_def.mp (of_decide_eq_true hwf)
    rw [exec_rdUnmapped, readWord_eq_zero s.regs (.inr ha)]
    rfl
  · refine ⟨readWord s.regs (hostAccAddr w), exec_decodeHostAcc_read s hr, readWord_eq_zero s.regs,
      ?_, ?_, ?_, ?_, ?_, ?_, ?_, regRdata_read hr⟩
    all_goals
      intro ha
      rw [ha]
      rfl

/-! ## Ignored writes (40_register_access.md R128) -/

@[simp] theorem exec_wrUnmapped (a : RegIdx) (d : Word) (s : State) : exec (.wrUnmapped a d) s = .next s := rfl

/-- Settles O16: the four instructions have no effect, and a write word with another ADDR than 0 is one of them. -/
theorem writesToOtherWordsAreIgnored : Obligations.WritesToOtherWordsAreIgnored := by
  refine ⟨fun a d s => ⟨exec_wrRo1 d s, exec_wrRo2to3 a d s, exec_wrRo4to7 a d s, exec_wrUnmapped a d s⟩,
    fun w s hw ha => ?_⟩
  rw [decodeHostAcc_exec, if_pos hw]
  exact if_neg ha

/-! ## The CMD write by its opcode (40_register_access.md R121, 30_encoding.md R92) -/

theorem opcodeOf_toNat (d : Word) : (opcodeOf d).toNat = d.toNat % 256 := by
  simp [opcodeOf]

theorem opcodeOf_eq {d : Word} {op : Byte} (h : d.toNat % 256 = op.toNat) : opcodeOf d = op :=
  BitVec.eq_of_toNat_eq ((opcodeOf_toNat d).trans h)

section
variable {d : Word} (s : State)

theorem exec_wrCmd_nop (h : d.toNat % 256 = 0) : exec (.wrCmd d) s = exec .nop s := by
  simp [exec, execWrCmd, opcodeOf_eq (op := 0x00#8) h]

theorem exec_wrCmd_handshake (h : d.toNat % 256 = 1) : exec (.wrCmd d) s = exec .handshake s := by
  simp [exec, execWrCmd, opcodeOf_eq (op := 0x01#8) h]

theorem exec_wrCmd_readFrame (h : d.toNat % 256 = 2) : exec (.wrCmd d) s = exec .readFrame s := by
  simp [exec, execWrCmd, opcodeOf_eq (op := 0x02#8) h]

theorem exec_wrCmd_reserved (h : 3 ≤ d.toNat % 256) : exec (.wrCmd d) s = .next (s.mapRegs setBadCmd) := by
  rw [← opcodeOf_toNat] at h
  obtain ⟨ho, -⟩ | ⟨ho, -⟩ | ⟨ho, -⟩ | ⟨-, he⟩ := execWrCmd_cases d s
  case inr.inr.inr => exact he
  all_goals
    rw [ho] at h
    exact absurd h (by decide)

end

/-! ## NOP and the reserved opcodes (40_register_access.md R123, R125) -/

section
variable (op : Byte) (s : State)

@[simp] theorem exec_nop : exec .nop s = .next s := rfl
@[simp] theorem exec_reserved03 : exec .reserved03 s = .next (s.mapRegs setBadCmd) := rfl
@[simp] theorem exec_reserved04to07 : exec (.reserved04to07 op) s = .next (s.mapRegs setBadCmd) := rfl
@[simp] theorem exec_reserved08to0F : exec (.reserved08to0F op) s = .next (s.mapRegs setBadCmd) := rfl
@[simp] theorem exec_reserved10to1F : exec (.reserved10to1F op) s = .next (s.mapRegs setBadCmd) := rfl
@[simp] theorem exec_reserved20to3F : exec (.reserved20to3F op) s = .next (s.mapRegs setBadCmd) := rfl
@[simp] theorem exec_reserved40to7F : exec (.reserved40to7F op) s = .next (s.mapRegs setBadCmd) := rfl
@[simp] theorem exec_reserved80toFF : exec (.reserved80toFF op) s = .next (s.mapRegs setBadCmd) := rfl

end

/-- Settles O18: NOP answers the state itself, and a CMD write whose low byte is 0 is a NOP. -/
theorem nopChangesNothing : Obligations.NopChangesNothing :=
  ⟨by decide, exec_nop, fun _ s h => exec_wrCmd_nop s h⟩

/-- Settles O19: the instructions and the CMD write alike do `setBadCmd`, whatever the sequencer's state. -/
theorem reservedOpcodesSetBadcmdOnly : Obligations.ReservedOpcodesSetBadcmdOnly :=
  ⟨fun op s => ⟨exec_reserved03 s, exec_reserved04to07 op s, exec_reserved08to0F op s, exec_reserved10to1F op s,
    exec_reserved20to3F op s, exec_reserved40to7F op s, exec_reserved80toFF op s⟩,
    fun _ s h => exec_wrCmd_reserved s h⟩

/-! ## A command written while busy (40_register_access.md R126) -/

theorem exec_handshake_busy {s : State} (hb : s.regs.state ≠ .idle) :
    exec .handshake s = .next (s.mapRegs setOverrun) :=
  congrArg _ (acceptOrOverrun_busy hb)

theorem exec_readFrame_busy {s : State} (hb : s.regs.state ≠ .idle) :
    exec .readFrame s = .next (s.mapRegs setOverrun) :=
  congrArg _ (acceptOrOverrun_busy hb)

theorem exec_wrCmd_busy {s : State} {d : Word} (hb : s.regs.state ≠ .idle)
    (hd : d.toNat % 256 = 1 ∨ d.toNat % 256 = 2) : exec (.wrCmd d) s = .next (s.mapRegs setOverrun) := by
  obtain hd | hd := hd
  · rw [exec_wrCmd_handshake s hd, exec_handshake_busy hb]
  · rw [exec_wrCmd_readFrame s hd, exec_readFrame_busy hb]

/-- The access of a cycle that writes such a command. -/
theorem hostPart_busy_command {s : State} {d : Word} (hb : s.regs.state ≠ .idle)
    (hw : s.hostWord = some (hostAccWord true 0 d)) (hd : d.toNat % 256 = 1 ∨ d.toNat % 256 = 2) :
    hostPart s = .next (s.mapRegs setOverrun) := by
  unfold hostPart
  rw [hw]
  show exec (decodeHostAcc (hostAccWord true 0 d)) s = _
  rw [decodeHostAcc_word]
  exact exec_wrCmd_busy hb hd

/-! The sequencer neither reads nor writes OVERRUN: from two states with the same inputs, one with the other's registers
and OVERRUN = 1, it reaches two states so related, whatever their hosts do. -/

theorem settleStep_setOverrun (after : SeqState) (r : Regs) :
    settleStep after (setOverrun r) = setOverrun (settleStep after r) := by
  unfold settleStep
  by_cases h : r.cnt.value = 0
  · rw [if_pos h, if_pos (show (setOverrun r).cnt.value = 0 from h)]
    rfl
  · rw [if_neg h, if_neg (show ¬ (setOverrun r).cnt.value = 0 from h)]
    rfl

theorem enterSettle_setOverrun {s u : State} (st : SeqState) (hr : u.regs = setOverrun s.regs) (he : u.env = s.env)
    (hn : u.draws = s.draws) : (enterSettle st u).regs = setOverrun (enterSettle st s).regs := by
  have hdraw : u.drawDelay = s.drawDelay := State.drawDelay_congr (by rw [State.clock, hr]; rfl) he hn
  rw [enterSettle_regs, enterSettle_regs, hdraw, hr]
  rfl

theorem busTransaction_setOverrun {s u : State} {st : SeqState} {op : BitVec 4} {f g : State → State}
    (hs : s.regs.state = st) (hr : u.regs = setOverrun s.regs) (he : u.env = s.env)
    (hfg : (g u).regs = setOverrun (f s).regs) :
    (busTransaction st op g u).regs = setOverrun (busTransaction st op f s).regs := by
  have hs' : u.regs.state = st := by rw [hr]; exact hs
  have hp : u.pins = s.pins := State.pins_congr he
  rcases hd : s.pins.busDone with _ | _
  · rw [busTransaction_wait hd, busTransaction_wait (hp ▸ hd), hr]
  rcases hk : s.pins.bus.ok with _ | _
  · rw [busTransaction_failure hs hd hk, busTransaction_failure hs' (hp ▸ hd) (hp ▸ hk), State.mapRegs_regs, hr,
      hp]
    rfl
  · rw [busTransaction_success hs hd hk, busTransaction_success hs' (hp ▸ hd) (hp ▸ hk), hfg]

theorem sequencerPart_setOverrun {s u q t : State} (hr : u.regs = setOverrun s.regs) (he : u.env = s.env)
    (hn : u.draws = s.draws) (hq : sequencerPart s.regs.state s = .next q)
    (ht : sequencerPart s.regs.state u = .next t) : t.regs = setOverrun q.regs := by
  generalize hs : s.regs.state = st at hq ht
  cases st with
  | idle | reserved _ =>
    cases hq
    cases ht
    exact hr
  | rfSettle1 | rfSettle2 =>
    cases hq
    cases ht
    rw [State.mapRegs_regs, State.mapRegs_regs, hr, settleStep_setOverrun]
  | hsW1 | hsW2 =>
    cases hq
    cases ht
    refine busTransaction_setOverrun hs hr he ?_
    rw [State.mapRegs_regs, State.mapRegs_regs, hr]
    rfl
  | rfAddr =>
    cases hq
    cases ht
    exact busTransaction_setOverrun hs hr he (enterSettle_setOverrun _ hr he hn)
  | rfRead =>
    cases hq
    cases ht
    refine busTransaction_setOverrun hs hr he ?_
    rw [State.mapRegs_regs, State.mapRegs_regs, hr, State.pins_congr he]
    rfl

/-- A step with such a write: the sequencer runs on from registers that differ from the pre-edge ones in OVERRUN only,
and so does what it leaves. -/
theorem step_busy_command {s q t : State} {d : Word} (hrst : s.pins.rst = false) (hb : s.regs.state ≠ .idle)
    (hw : s.beginCycle.hostWord = some (hostAccWord true 0 d)) (hd : d.toNat % 256 = 1 ∨ d.toNat % 256 = 2)
    (hq : sequencerPart s.regs.state s = .next q) (ht : step s = .next t) : t.regs = setOverrun q.regs := by
  have haccess : hostPart s.beginCycle = .next (s.beginCycle.mapRegs setOverrun) := hostPart_busy_command hb hw hd
  obtain ⟨u, hu, -⟩ := sequencerPart_cases s.regs.state (s.beginCycle.mapRegs setOverrun) fun _ => rfl
  rw [step_run hrst haccess hu] at ht
  cases ht
  rw [State.endCycle_regs]
  exact sequencerPart_setOverrun (s := s) (u := s.beginCycle.mapRegs setOverrun) rfl rfl rfl hq hu

/-- Settles O22: the access alone does `setOverrun`, and the sequencer's part of the step commutes with it. -/
theorem commandWhileBusySetsOverrunOnly : Obligations.CommandWhileBusySetsOverrunOnly := by
  refine ⟨fun s hb i hi => ?_, fun _ _ _ _ hrst hb hw hd hq ht => step_busy_command hrst hb hw hd hq ht⟩
  obtain rfl | rfl | ⟨d, hd, rfl⟩ := hi
  · exact exec_handshake_busy hb
  · exact exec_readFrame_busy hb
  · exact exec_wrCmd_busy hb hd

end Sys2Proof.Machine
end


section
/-! PROOFS of the statements of 41_handshake.md: one cycle of each of the two writes of HANDSHAKE. -/

namespace Sys2Proof.Machine

/-! ## The two writes as bus transactions (41_handshake.md R141 to R145) -/

section
variable (s : State)

theorem exec_sendHs1 :
    exec .sendHs1 s = .next (busTransaction .hsW1 1 (State.mapRegs fun r => { r with state := .hsW2 }) s) := rfl

theorem exec_sendHs2 : exec .sendHs2 s = .next (busTransaction .hsW2 2 (State.mapRegs completeHandshake) s) := rfl

end

/-- Settles O28: the transaction of HS_W1 by the three answers of the transport; HS_W2 drives SEND_HS2 and IDLE drives
no request. -/
theorem sendHs1Cycle : Obligations.SendHs1Cycle := by
  refine ⟨busWord_hsW2, busWord_of_noRequest rfl, fun s hs => ⟨fun hd hk => ?success, fun hd hk => ?failure,
    fun hd => ?waiting⟩⟩
  case success =>
    rw [exec_sendHs1, busTransaction_success hs hd hk]
    rfl
  case failure =>
    rw [exec_sendHs1, busTransaction_failure hs hd hk]
    rfl
  case waiting => rw [exec_sendHs1, busTransaction_wait hd]

/-- Settles O29: the transaction of HS_W2 by the three answers of the transport; only `completeHandshake`, the effect of
success, writes HS_OK. -/
theorem sendHs2Cycle : Obligations.SendHs2Cycle := by
  refine fun s hs => ⟨fun hd hk => ?success, fun hd hk => ?failure, fun hd => ?waiting⟩
  case success =>
    rw [exec_sendHs2, busTransaction_success hs hd hk]
    rfl
  case failure =>
    rw [exec_sendHs2, busTransaction_failure hs hd hk]
    rfl
  case waiting => rw [exec_sendHs2, busTransaction_wait hd]

end Sys2Proof.Machine
end


section
/-! PROOFS of the statements of 42_frame_reader.md: one cycle of the bus transaction of READ_FRAME's reading state. -/

namespace Sys2Proof.Machine

/-- RECV_FRAME as a bus transaction (42_frame_reader.md R165 to R167, R169). -/
theorem exec_recvFrame (s : State) :
    exec .recvFrame s =
      .next (busTransaction .rfRead 4 (State.mapRegs (completeReadFrame s.pins.bus.rdata)) s) := rfl

/-- Settles O31: the transaction of RF_READ by the three answers of the transport; only `completeReadFrame`, the effect
of success, writes FRAME and FRAME_VALID. -/
theorem recvFrameCycle : Obligations.RecvFrameCycle := by
  refine fun s hs => ⟨fun hd hk => ?success, fun hd hk => ?failure, fun hd => ?waiting⟩
  case success =>
    rw [exec_recvFrame, busTransaction_success hs hd hk]
    rfl
  case failure =>
    rw [exec_recvFrame, busTransaction_failure hs hd hk]
    rfl
  case waiting => rw [exec_recvFrame, busTransaction_wait hd]

end Sys2Proof.Machine
end


section
/-! PROOFS of the statements of 43_decoder.md: the acceleration fields with the mask after the shift. -/

namespace Sys2Proof.Machine

/-- The shift distributes over the mask: where `mask` is the two bits from bit `sh` on, the byte may be shifted first
and masked to its low two bits after (43_decoder.md R199). -/
theorem composeAcc_eq_mask_after_shift (hi b5 : Byte) {mask : Byte} {sh : Nat} (hmask : mask >>> sh = 0b11) :
    composeAcc hi b5 mask sh = (hi.setWidth 10 <<< 2) ||| ((b5 >>> sh) &&& 0b11).setWidth 10 := by
  have hlow : (b5 &&& mask) >>> sh = (b5 >>> sh) &&& 0b11 := by
    rw [BitVec.ushiftRight_and_distrib, hmask]
  rw [composeAcc, hlow]

/-- Settles O48: each field is composed with the mask of the two bits of `b5` from bit 2, 4 or 6 on. -/
theorem accelerationComposition : Obligations.AccelerationComposition := fun f =>
  ⟨composeAcc_eq_mask_after_shift (frameByte f 2) (frameByte f 5) (by decide),
    composeAcc_eq_mask_after_shift (frameByte f 3) (frameByte f 5) (by decide),
    composeAcc_eq_mask_after_shift (frameByte f 4) (frameByte f 5) (by decide)⟩

end Sys2Proof.Machine
end


section
/-! PROOFS of the statements of 60_exceptions.md: TransportError, what taking it does, and that nothing else
sets ERR. -/

namespace Sys2Proof.Machine

/-! ## Taking the exception (60_exceptions.md R250 to R252) -/

/-- No request is driven in IDLE (20_memory.md R68). -/
theorem ne_idle_of_busReq {st : SeqState} (h : busReq st = true) : st ≠ .idle := by
  rintro rfl
  cases h

/-- On a failing completion of the outstanding transaction the sequencer raises TransportError, with ERR_OP by the state
that drives the request. -/
theorem SequencerWrites.of_failure {s : State} {r r' : Regs} (h : SequencerWrites s r r')
    (hreq : busReq s.regs.state = true) (hd : s.pins.busDone = true) (hk : s.pins.bus.ok = false) :
    ∃ op, r' = raiseTransportError op s.pins.bus.err r ∧
      ((s.regs.state = .hsW1 ∧ op = 1) ∨ (s.regs.state = .hsW2 ∧ op = 2) ∨
        (s.regs.state = .rfAddr ∧ op = 3) ∨ (s.regs.state = .rfRead ∧ op = 4)) := by
  cases h with
  | error op _ _ hr hs => exact ⟨op, hr, hs⟩
  | nothing _ hs =>
    obtain hs | ⟨i, hs⟩ | ⟨-, hwait⟩ := hs
    · exact absurd hs (ne_idle_of_busReq hreq)
    · rw [hs] at hreq
      cases hreq
    · rw [hd] at hwait
      cases hwait
  | settle1 hs | settle2 hs =>
    rw [hs] at hreq
    cases hreq
  | hsW1 _ _ hok | hsW2 _ _ hok | rfAddr _ _ hok | rfRead _ _ hok =>
    rw [hk] at hok
    cases hok

/-- The step that takes the exception: the registers are the pre-edge ones with the error recorded and the command
ended, but for the two sticky flags, which an access of the same cycle may set. -/
theorem step_failure {s : State} (hrst : s.pins.rst = false) (hreq : busReq s.regs.state = true)
    (hd : s.pins.busDone = true) (hk : s.pins.bus.ok = false) :
    ∃ t op b o, step s = .next t ∧
      t.regs = raiseTransportError op s.pins.bus.err { s.regs with badCmd := b, overrun := o } ∧
      ((s.regs.state = .hsW1 ∧ op = 1) ∨ (s.regs.state = .hsW2 ∧ op = 2) ∨
        (s.regs.state = .rfAddr ∧ op = 3) ∨ (s.regs.state = .rfRead ∧ op = 4)) ∧
      (s.regs.badCmd = true → b = true) ∧ (s.regs.overrun = true → o = true) := by
  obtain ⟨t, hstep, -, -, ⟨hrst', -⟩ | ⟨-, r, w, haccess, hseq, -⟩⟩ := step_effect s
  · rw [hrst] at hrst'
    cases hrst'
  obtain ⟨b, o, rfl, hb, ho⟩ := haccess.of_busy (ne_idle_of_busReq hreq)
  obtain ⟨op, hr, hop⟩ := hseq.of_failure hreq hd hk
  exact ⟨t, op, b, o, hstep, hr, hop, hb, ho⟩

/-! ## Nothing else sets ERR (10_state.md R26) -/

/-- A settle state's cycle writes the state or the counter. -/
@[simp] theorem settleStep_err (after : SeqState) (r : Regs) : (settleStep after r).err = r.err := by
  unfold settleStep
  split <;> rfl

/-- The host's access keeps ERR or, as an accept, clears it. -/
theorem AccessWrites.err_eq_false {s : State} {r : Regs} (h : AccessWrites s r) (he : s.regs.err = false) :
    r.err = false := by
  cases h with
  | nothing hr | overrun hr | badCmd _ hr => rw [hr]; exact he
  | handshake _ hr | readFrame _ hr => rw [hr]; rfl

/-- The sequencer sets ERR only on a failing completion of a transaction it requests. -/
theorem SequencerWrites.failure_of_err {s : State} {r r' : Regs} (h : SequencerWrites s r r') (he : r.err = false)
    (he' : r'.err = true) :
    busReq s.regs.state = true ∧ s.pins.busDone = true ∧ s.pins.bus.ok = false := by
  have kept (e : r'.err = r.err) : False := by simp [e, he] at he'
  cases h with
  | error op hd hk _ hs =>
    refine ⟨?_, hd, hk⟩
    obtain ⟨hs, -⟩ | ⟨hs, -⟩ | ⟨hs, -⟩ | ⟨hs, -⟩ := hs
    all_goals
      rw [hs]
      rfl
  | nothing hr | hsW1 _ _ _ hr | hsW2 _ _ _ hr | rfAddr _ _ _ hr | rfRead _ _ _ hr =>
    subst hr
    exact (kept rfl).elim
  | settle1 _ hr | settle2 _ hr =>
    subst hr
    exact (kept (settleStep_err _ _)).elim

/-- A step that sets ERR takes the exception: a reset clears ERR, and so does an accept. -/
theorem failure_of_step_err {s t : State} (h : step s = .next t) (he : s.regs.err = false) (he' : t.regs.err = true) :
    s.pins.rst = false ∧ busReq s.regs.state = true ∧ s.pins.busDone = true ∧ s.pins.bus.ok = false := by
  obtain ⟨u, hu, -, -, hcase⟩ := step_effect s
  obtain rfl : t = u := by rw [h] at hu; cases hu; rfl
  obtain ⟨-, hreset, -⟩ | ⟨hrst, r, w, haccess, hseq, -⟩ := hcase
  · rw [hreset] at he'
    cases he'
  · exact ⟨hrst, hseq.failure_of_err (haccess.err_eq_false he) he'⟩

/-- Settles O33: the step on a failing completion is `raiseTransportError` up to the sticky flags, and no other part of
a step sets ERR. -/
theorem transportErrorEndsTheCommand : Obligations.TransportErrorEndsTheCommand := by
  refine ⟨fun s hrst hreq hd hk => ?_, fun _ _ => failure_of_step_err⟩
  obtain ⟨t, op, b, o, hstep, hr, hop, hb, ho⟩ := step_failure hrst hreq hd hk
  have herrOp : (s.regs.state = .hsW1 → op = 1) ∧ (s.regs.state = .hsW2 → op = 2) ∧
      (s.regs.state = .rfAddr → op = 3) ∧ (s.regs.state = .rfRead → op = 4) := by
    obtain ⟨hs, rfl⟩ | ⟨hs, rfl⟩ | ⟨hs, rfl⟩ | ⟨hs, rfl⟩ := hop
    all_goals simp [hs]
  obtain ⟨h1, h2, h3, h4⟩ := herrOp
  refine ⟨t, hstep, ?_⟩
  rw [hr]
  exact ⟨rfl, rfl, rfl, rfl, busWord_of_noRequest rfl, h1, h2, h3, h4, rfl, rfl, rfl, rfl, hb, ho⟩

end Sys2Proof.Machine
end


section
/-! PROOFS of the statements of 30_encoding.md: decoder and encoder are inverse to each other, the rows of the opcode
table do not overlap, the BUSRSP word; and of the platform's addresses of the block's words (20_memory.md R76). -/

namespace Sys2Proof

/-! ## Decoding what the encoder writes (30_encoding.md R90 to R93) -/

theorem decode_hostAccWord (b : Bool) (a : RegIdx) (d : Word) :
    decode .hostAcc (hostAccWord b a d).toNat = .ok (if b then decodeWrite a d else decodeRead a d) := by
  have hlt : (hostAccWord b a d).toNat < 2 ^ Format.hostAcc.width := BitVec.isLt _
  rw [decode, if_pos hlt]
  simp only [BitVec.ofNat_toNat, BitVec.setWidth_eq, decodeHostAcc_word]

theorem decode_opcode (op : Byte) : decode .cmd8 op.toNat = .ok (decodeCmd8 op) := by
  have hlt : op.toNat < 2 ^ Format.cmd8.width := BitVec.isLt _
  rw [decode, if_pos hlt]
  simp only [BitVec.ofNat_toNat, BitVec.setWidth_eq]

theorem decodeRead_unmapped {a : RegIdx} (h : 8#4 ≤ a) (d : Word) : decodeRead a d = .rdUnmapped a d := by
  unfold decodeRead
  split
  case h_9 => rfl
  all_goals exact absurd h (by decide)

/-- The four kinds of write, by the range of ADDR that each row covers. -/
theorem decodeWrite_of_range (a : RegIdx) (d : Word) :
    (2#4 ≤ a ∧ a ≤ 3#4 → decodeWrite a d = .wrRo2to3 a d) ∧ (4#4 ≤ a ∧ a ≤ 7#4 → decodeWrite a d = .wrRo4to7 a d) ∧
      (8#4 ≤ a → decodeWrite a d = .wrUnmapped a d) := by
  have hbranch : ∀ a : RegIdx,
      (2#4 ≤ a ∧ a ≤ 3#4 → a ≠ 0#4 ∧ a ≠ 1#4 ∧ a < 4#4) ∧
      (4#4 ≤ a ∧ a ≤ 7#4 → a ≠ 0#4 ∧ a ≠ 1#4 ∧ ¬ a < 4#4 ∧ a < 8#4) ∧
      (8#4 ≤ a → a ≠ 0#4 ∧ a ≠ 1#4 ∧ ¬ a < 4#4 ∧ ¬ a < 8#4) := by decide
  obtain ⟨h23, h47, h8⟩ := hbranch a
  refine ⟨fun h => ?_, fun h => ?_, fun h => ?_⟩
  · obtain ⟨h0, h1, h4⟩ := h23 h
    simp only [decodeWrite, h0, h1, h4, if_true, if_false]
  · obtain ⟨h0, h1, h4, h8'⟩ := h47 h
    simp only [decodeWrite, h0, h1, h4, h8', if_true, if_false]
  · obtain ⟨h0, h1, h4, h8'⟩ := h8 h
    simp only [decodeWrite, h0, h1, h4, h8', if_false]

/-- The word of a well-formed instruction decodes to it. -/
theorem decode_encode {i : Instr} (h : i.wellFormed = true) : decode i.format (encode i) = .ok i := by
  cases i with
  | rdCmd d | rdStatus d | rdErrcode d | rdFrame0 d | rdFrame1 d | rdJoy d | rdAcc d | rdBtn d | wrCmd d | wrRo1 d =>
    exact decode_hostAccWord _ _ d
  | rdUnmapped a d =>
    exact (decode_hostAccWord false a d).trans (congrArg _ (decodeRead_unmapped (of_decide_eq_true h) d))
  | wrRo2to3 a d =>
    exact (decode_hostAccWord true a d).trans (congrArg _ ((decodeWrite_of_range a d).1 (of_decide_eq_true h)))
  | wrRo4to7 a d =>
    exact (decode_hostAccWord true a d).trans (congrArg _ ((decodeWrite_of_range a d).2.1 (of_decide_eq_true h)))
  | wrUnmapped a d =>
    exact (decode_hostAccWord true a d).trans (congrArg _ ((decodeWrite_of_range a d).2.2 (of_decide_eq_true h)))
  | nop | handshake | readFrame | reserved03 => rfl
  | reserved04to07 op | reserved08to0F op | reserved10to1F op | reserved20to3F op | reserved40to7F op
  | reserved80toFF op =>
    refine (decode_opcode op).trans (congrArg _ ?_)
    revert op
    decide
  | sendHs1 | sendHs2 | sendAddr | recvFrame => rfl

/-- Settles O2: decoding the word gives the instruction back, its bytes hold the same word, and the table's length tells
the format. -/
theorem decodeOfEncodeIsTheInstruction : Obligations.DecodeOfEncodeIsTheInstruction := fun i hwf =>
  ⟨decode_encode hwf, (decodeBytes_toBytes _ _ (encode_lt i)).trans (decode_encode hwf),
    decodeTableWord_of_decode (encode_lt i) (decode_encode hwf)⟩

/-! ## Encoding what the decoder reads (30_encoding.md R97, R98, R101) -/

/-- What is said of a decoded word: a well-formed instruction of the format, whose encoding is that word. -/
def IsEncodingOf (f : Format) (w : Nat) (i : Instr) : Prop := i.wellFormed = true ∧ i.format = f ∧ encode i = w

theorem decodeRead_isEncodingOf (a : RegIdx) (d : Word) :
    IsEncodingOf .hostAcc (hostAccWord false a d).toNat (decodeRead a d) := by
  by_cases h8 : 8#4 ≤ a
  · rw [decodeRead_unmapped h8]
    exact ⟨decide_eq_true h8, rfl, rfl⟩
  · have hmapped : ∀ a : RegIdx, ¬ 8#4 ≤ a →
        a = 0#4 ∨ a = 1#4 ∨ a = 2#4 ∨ a = 3#4 ∨ a = 4#4 ∨ a = 5#4 ∨ a = 6#4 ∨ a = 7#4 := by decide
    obtain rfl | rfl | rfl | rfl | rfl | rfl | rfl | rfl := hmapped a h8
    all_goals exact ⟨rfl, rfl, rfl⟩

theorem decodeWrite_isEncodingOf (a : RegIdx) (d : Word) :
    IsEncodingOf .hostAcc (hostAccWord true a d).toNat (decodeWrite a d) := by
  unfold decodeWrite
  split_ifs with h0 h1 h4 h8
  · exact h0 ▸ ⟨rfl, rfl, rfl⟩
  · exact h1 ▸ ⟨rfl, rfl, rfl⟩
  · have hrange : ∀ a : RegIdx, a ≠ 0#4 → a ≠ 1#4 → a < 4#4 → 2#4 ≤ a ∧ a ≤ 3#4 := by decide
    exact ⟨decide_eq_true (hrange a h0 h1 h4), rfl, rfl⟩
  · have hrange : ∀ a : RegIdx, ¬ a < 4#4 → a < 8#4 → 4#4 ≤ a ∧ a ≤ 7#4 := by decide
    exact ⟨decide_eq_true (hrange a h4 h8), rfl, rfl⟩
  · exact ⟨decide_eq_true (BitVec.not_lt.mp h8), rfl, rfl⟩

theorem decodeHostAcc_isEncodingOf (w : HostAccWord) : IsEncodingOf .hostAcc w.toNat (decodeHostAcc w) := by
  rw [decodeHostAcc]
  conv => arg 2; rw [← hostAccWord_fields w]
  by_cases hw : hostAccWe w = true
  · rw [if_pos hw, hw]
    exact decodeWrite_isEncodingOf _ _
  · rw [if_neg hw, Bool.eq_false_of_not_eq_true hw]
    exact decodeRead_isEncodingOf _ _

theorem decodeCmd8_isEncodingOf (op : Byte) : IsEncodingOf .cmd8 op.toNat (decodeCmd8 op) := by
  unfold IsEncodingOf
  revert op
  decide

theorem decodeBusReq_isEncodingOf {w : BusReqWord} {i : Instr} (h : decodeBusReq w = .ok i) :
    IsEncodingOf .busReq w.toNat i := by
  unfold decodeBusReq at h
  split_ifs at h with h1 h2 h3 h4
  all_goals
    cases h
    subst w
    exact ⟨rfl, rfl, rfl⟩

/-- Settles O3: each branch of the three decoders holds the condition its row puts on the operand, and the encoder
writes the fields back. -/
theorem everyDecodedWordIsItsInstructionsEncoding : Obligations.EveryDecodedWordIsItsInstructionsEncoding :=
  ⟨decodeHostAcc_isEncodingOf, decodeCmd8_isEncodingOf, fun _ _ => decodeBusReq_isEncodingOf⟩

/-! ## The rows of the opcode table (30_encoding.md R91 to R93) -/

/-- The row of a decoded access, from the bits above WDATA alone. -/
def hostAccRow (b : Bool) (a : RegIdx) : Row := if b then (decodeWrite a 0).row else (decodeRead a 0).row

theorem row_decodeHostAcc (b : Bool) (a : RegIdx) (d : Word) :
    (if b then decodeWrite a d else decodeRead a d).row = hostAccRow b a := by
  unfold hostAccRow
  cases b
  · simp only [Bool.false_eq_true, if_false, decodeRead]
    split <;> rfl
  · simp only [if_true, decodeWrite]
    split_ifs <;> rfl

/-- A row whose mask and pattern lie above WDATA looks at WE and ADDR alone. -/
theorem admits_hostAccWord {r : Row} (hp : r.pattern = 2 ^ 32 * (r.pattern / 2 ^ 32))
    (hm : r.mask = 2 ^ 32 * (r.mask / 2 ^ 32)) (b : Bool) (a : RegIdx) (d : Word) :
    r.admits (hostAccWord b a d).toNat =
      ((16 * b.toNat + a.toNat) &&& (r.mask / 2 ^ 32) == r.pattern / 2 ^ 32) := by
  rw [← Laws.InRow.admits_host "" b a d, ← hp, ← hm]
  rfl

/-- A HOSTACC word that an instruction's row admits decodes to an instruction of that row. -/
theorem hostAccRow_of_admits {j : Instr} (hj : j.format = .hostAcc) {b : Bool} {a : RegIdx} {d : Word}
    (h : j.row.admits (hostAccWord b a d).toNat = true) : hostAccRow b a = j.row := by
  cases j with
  | rdCmd _ | rdStatus _ | rdErrcode _ | rdFrame0 _ | rdFrame1 _ | rdJoy _ | rdAcc _ | rdBtn _ | rdUnmapped _ _
  | wrCmd _ | wrRo1 _ | wrRo2to3 _ _ | wrRo4to7 _ _ | wrUnmapped _ _ =>
    simp only [Instr.row] at h ⊢
    rw [admits_hostAccWord (by decide) (by decide)] at h
    revert b a
    decide
  | _ => cases hj

/-- An opcode that an instruction's row admits decodes to an instruction of that row. -/
theorem cmd8_row_of_admits {j : Instr} (hj : j.format = .cmd8) {op : Byte} (h : j.row.admits op.toNat = true) :
    (decodeCmd8 op).row = j.row := by
  cases j with
  | nop | handshake | readFrame | reserved03 | reserved04to07 _ | reserved08to0F _ | reserved10to1F _
  | reserved20to3F _ | reserved40to7F _ | reserved80toFF _ =>
    simp only [Instr.row] at h ⊢
    revert op
    decide
  | _ => cases hj

/-- A BUSREQ word that an instruction's row admits is that instruction's word: the row looks at all 20 bits. -/
theorem eq_encode_of_admits {j : Instr} (hj : j.format = .busReq) {w : Nat} (hw : w < 2 ^ 20)
    (h : j.row.admits w = true) : w = encode j := by
  have hall : w &&& 0xFFFFF = w := (Nat.and_two_pow_sub_one_eq_mod w 20).trans (Nat.mod_eq_of_lt hw)
  cases j with
  | sendHs1 | sendHs2 | sendAddr | recvFrame => exact hall.symm.trans (eq_of_beq h)
  | _ => cases hj

/-- Whatever word an instruction's row admits, it decodes to an instruction of that row, if it decodes. -/
theorem row_eq_of_admits {i j : Instr} {w : Nat} (hlt : w < 2 ^ j.format.width) (hdec : decode j.format w = .ok i)
    (h : j.row.admits w = true) : j.row = i.row := by
  generalize hj : j.format = f at hlt hdec
  cases f with
  | hostAcc =>
    have hw : w = (hostAccWord _ _ _).toNat :=
      (Nat.mod_eq_of_lt hlt).symm.trans (congrArg BitVec.toNat (hostAccWord_fields (BitVec.ofNat 37 w)).symm)
    rw [hw] at h hdec
    rw [decode_hostAccWord] at hdec
    cases hdec
    rw [row_decodeHostAcc, hostAccRow_of_admits hj h]
  | cmd8 =>
    have hw : w = (BitVec.ofNat 8 w).toNat := (Nat.mod_eq_of_lt hlt).symm
    rw [hw] at h hdec
    rw [decode_opcode] at hdec
    cases hdec
    rw [cmd8_row_of_admits hj h]
  | busReq =>
    have hwf : j.wellFormed = true := by
      cases j with
      | sendHs1 | sendHs2 | sendAddr | recvFrame => rfl
      | _ => cases hj
    have hdec' := decode_encode hwf
    rw [hj, ← eq_encode_of_admits hj hlt h, hdec] at hdec'
    cases hdec'
    rfl

/-- Settles O4: a word that the row of `j` admits decodes to an instruction of that row, and the word of `i` decodes to
`i`. -/
theorem encodedWordsMatchNoOtherRow : Obligations.EncodedWordsMatchNoOtherRow := fun i _ hwf hfmt h =>
  row_eq_of_admits (hfmt ▸ encode_lt i) (hfmt ▸ decode_encode hwf) h

/-! ## The BUSRSP word (30_encoding.md R94) -/

open Machine in
theorem BusRsp.word_toNat (r : BusRsp) :
    r.word.toNat = 2 ^ 64 * r.ok.toNat + 2 ^ 48 * r.err.toNat + r.rdata.toNat := by
  unfold BusRsp.word
  change @BitVec.toNat (1 + 16 + 48) _ = _
  simp only [toNat_append_add, BitVec.toNat_ofBool]
  ring

open Machine in
/-- The three fields of a BUSRSP word as numbers. -/
theorem decodeBusRsp_toNat (w : BusRspWord) :
    (decodeBusRsp w).ok.toNat = w.toNat / 2 ^ 64 ∧ (decodeBusRsp w).err.toNat = w.toNat / 2 ^ 48 % 2 ^ 16 ∧
      (decodeBusRsp w).rdata.toNat = w.toNat % 2 ^ 48 := by
  have hw := w.isLt
  refine ⟨?_, toNat_extractLsb_div _ _ _, ?_⟩
  · simp only [decodeBusRsp, BitVec.getLsbD, Nat.toNat_testBit]
    omega
  · simp only [decodeBusRsp, toNat_extractLsb_div, pow_zero, Nat.div_one]

theorem decodeBusRsp_word (r : BusRsp) : decodeBusRsp r.word = r := by
  have he := r.err.isLt
  have hd := r.rdata.isLt
  obtain ⟨hok, herr, hrdata⟩ := decodeBusRsp_toNat r.word
  rw [r.word_toNat] at hok herr hrdata
  have hinj : Function.Injective Bool.toNat := Function.LeftInverse.injective Bool.ofNat_toNat
  have eok : (decodeBusRsp r.word).ok = r.ok := hinj (by omega)
  have eerr : (decodeBusRsp r.word).err = r.err := BitVec.eq_of_toNat_eq (by omega)
  have erdata : (decodeBusRsp r.word).rdata = r.rdata := BitVec.eq_of_toNat_eq (by omega)
  exact (BusRsp.mk.injEq ..).mpr ⟨eok, eerr, erdata⟩

theorem word_decodeBusRsp (w : BusRspWord) : (decodeBusRsp w).word = w := by
  have hw := w.isLt
  obtain ⟨hok, herr, hrdata⟩ := decodeBusRsp_toNat w
  apply BitVec.eq_of_toNat_eq
  rw [BusRsp.word_toNat, hok, herr, hrdata]
  omega

/-- Settles O5: the word is a sum of its three fields, each below its width, and the fields of a word add up to it. -/
theorem busResponseWordLayout : Obligations.BusResponseWordLayout :=
  ⟨fun r => ⟨r.word_toNat, decodeBusRsp_word r⟩, word_decodeBusRsp⟩

/-! ## Words written out from the tables (30_encoding.md R91 to R93) -/

/-- Settles O1: the decoder evaluated on the twelve words. -/
theorem tableWordsDecode : Obligations.TableWordsDecode := by
  refine ⟨?_, ?_, ?_, ?_, ?_, ?_, ?_, ?_, ?_, ?_, ?_, ?_⟩
  all_goals decide

end Sys2Proof
end

section
/-! PROOFS of the statements of 43_decoder.md and 20_memory.md on encodings: the frame decoder is a bijection, and a
byte offset of the register map selects one word. -/

namespace Sys2Proof.Machine

/-! ## The frame decoder and its inverse (43_decoder.md R198) -/

/-- The bytes of the frame that encodes `d`, first byte first. -/
def encodedBytes (d : DeviceRegs) : Fin 6 → Byte :=
  ![d.x, d.y, d.xAcc.extractLsb' 2 8, d.yAcc.extractLsb' 2 8, d.zAcc.extractLsb' 2 8, encodeB5 d]

theorem extractHigh_toNat (x : BitVec 10) : (x.extractLsb' 2 8).toNat = x.toNat / 4 := by
  have hx := x.isLt
  rw [toNat_extractLsb_div]
  omega

theorem frameByte_encodeFrame (d : DeviceRegs) (i : Fin 6) : frameByte (encodeFrame d) i = encodedBytes d i := by
  refine frameByte_of_bytes _ _ ?_ i
  show _ = d.x.toNat + 2 ^ 8 * d.y.toNat + 2 ^ 16 * (d.xAcc.extractLsb' 2 8).toNat
    + 2 ^ 24 * (d.yAcc.extractLsb' 2 8).toNat + 2 ^ 32 * (d.zAcc.extractLsb' 2 8).toNat + 2 ^ 40 * (encodeB5 d).toNat
  rw [encodeFrame_toNat, extractHigh_toNat, extractHigh_toNat, extractHigh_toNat]

theorem decodeFrame_encodeFrame (d : DeviceRegs) : decodeFrame (encodeFrame d) = d := by
  have b0 : frameByte (encodeFrame d) 0 = d.x := frameByte_encodeFrame d 0
  have b1 : frameByte (encodeFrame d) 1 = d.y := frameByte_encodeFrame d 1
  have b2 : frameByte (encodeFrame d) 2 = d.xAcc.extractLsb' 2 8 := frameByte_encodeFrame d 2
  have b3 : frameByte (encodeFrame d) 3 = d.yAcc.extractLsb' 2 8 := frameByte_encodeFrame d 3
  have b4 : frameByte (encodeFrame d) 4 = d.zAcc.extractLsb' 2 8 := frameByte_encodeFrame d 4
  have b5 : frameByte (encodeFrame d) 5 = encodeB5 d := frameByte_encodeFrame d 5
  have hinj : Function.Injective Bool.toNat := Function.LeftInverse.injective Bool.ofNat_toNat
  have hz := d.zPressed.toNat_le
  have hc := d.cPressed.toNat_le
  have exacc : decXAcc (encodeFrame d) = d.xAcc := by
    apply BitVec.eq_of_toNat_eq
    rw [decXAcc_toNat, b2, b5, extractHigh_toNat, encodeB5_toNat]
    omega
  have eyacc : decYAcc (encodeFrame d) = d.yAcc := by
    apply BitVec.eq_of_toNat_eq
    rw [decYAcc_toNat, b3, b5, extractHigh_toNat, encodeB5_toNat]
    omega
  have ezacc : decZAcc (encodeFrame d) = d.zAcc := by
    apply BitVec.eq_of_toNat_eq
    rw [decZAcc_toNat, b4, b5, extractHigh_toNat, encodeB5_toNat]
    omega
  have ezp : decZPressed (encodeFrame d) = d.zPressed := by
    apply hinj
    rw [decZPressed_toNat, b5, encodeB5_toNat]
    omega
  have ecp : decCPressed (encodeFrame d) = d.cPressed := by
    apply hinj
    rw [decCPressed_toNat, b5, encodeB5_toNat]
    omega
  exact (DeviceRegs.mk.injEq ..).mpr ⟨b0, b1, exacc, eyacc, ezacc, ezp, ecp⟩

/-- The two buttons and the three low parts make `b5` again. -/
theorem encodeB5_decodeFrame (f : Frame) : (encodeB5 (decodeFrame f)).toNat = (frameByte f 5).toNat := by
  have h5 := (frameByte f 5).isLt
  rw [encodeB5_toNat]
  simp only [decodeFrame, decZPressed_toNat, decCPressed_toNat, decXAcc_toNat, decYAcc_toNat, decZAcc_toNat]
  omega

theorem encodeFrame_decodeFrame (f : Frame) : encodeFrame (decodeFrame f) = f := by
  apply BitVec.eq_of_toNat_eq
  rw [encodeFrame_toNat, encodeB5_decodeFrame, frame_bytes f]
  simp only [decodeFrame, decX, decY, decXAcc_toNat, decYAcc_toNat, decZAcc_toNat]
  omega

/-- Settles O49: in one direction the six bytes of the encoded frame are read back field by field, in the other they
add up to the frame. -/
theorem frameDecoderIsABijection : Obligations.FrameDecoderIsABijection :=
  ⟨encodeFrame_decodeFrame, decodeFrame_encodeFrame⟩

/-! ## Byte offsets of the register map (10_state.md R39, 20_memory.md R63, R76) -/

theorem offsetIndex_eq_some_iff {off : Nat} {k : RegIdx} : offsetIndex off = some k ↔ off = 4 * k.toNat := by
  have hk := k.isLt
  unfold offsetIndex
  split_ifs with h
  · rw [Option.some_inj, ← BitVec.toNat_inj, BitVec.toNat_ofNat]
    omega
  · simp only [false_iff]
    omega

/-- An offset that is no word's selects none (log 18). -/
theorem offsetIndex_eq_none {off : Nat} (h : ∀ k : RegIdx, off ≠ 4 * k.toNat) : offsetIndex off = none :=
  Option.eq_none_iff_forall_ne_some.mpr fun k hk => h k (offsetIndex_eq_some_iff.mp hk)

theorem wordIndex_eq_some_iff {a : Nat} {k : RegIdx} : wordIndex a = some k ↔ a = Config.base + 4 * k.toNat := by
  unfold wordIndex
  split_ifs with h
  · rw [offsetIndex_eq_some_iff]
    omega
  · simp only [false_iff]
    omega

/-- Settles O6: `offsetIndex` is the inverse of `4k`, and both accesses and the platform's address go through it. -/
theorem platformAddressSelectsOneWord : Obligations.PlatformAddressSelectsOneWord := by
  refine ⟨fun off v k h => ?_, fun off v h => ?_, fun a k => wordIndex_eq_some_iff⟩
  · have hk := offsetIndex_eq_some_iff.mpr h
    exact ⟨congrArg (Option.map Line.rd) hk, congrArg (Option.map fun k => Line.wr k v) hk⟩
  · have hk := offsetIndex_eq_none h
    exact ⟨congrArg (Option.map Line.rd) hk, congrArg (Option.map fun k => Line.wr k v) hk⟩

end Sys2Proof.Machine
end


section
/-! PROOFS of the statements of 10_state.md, 60_exceptions.md and 70_reset_and_hazards.md: what every step keeps, which
steps change a flag, the sequencer's state or FRAME, and what reset does. -/

namespace Sys2Proof.Machine

/-! ## A step by what it writes (10_state.md R50) -/

/-- The three kinds of step: a reset edge; in IDLE the access alone; while busy the sequencer alone, but for the two
sticky flags, which the access may have set. -/
inductive StepWrites (s : State) (r' : Regs) : Prop where
  | reset (hrst : s.pins.rst = true) (hr : r' = Regs.reset s.clock)
  | idle (hrst : s.pins.rst = false) (hi : s.regs.state = .idle) (ha : AccessWrites s r')
  | busy (b o : Bool) (hrst : s.pins.rst = false) (hb : s.regs.state ≠ .idle)
      (hbad : s.regs.badCmd = true → b = true) (hover : s.regs.overrun = true → o = true)
      (hq : SequencerWrites s { s.regs with badCmd := b, overrun := o } r')

theorem step_writes {s t : State} (h : step s = .next t) : StepWrites s t.regs := by
  obtain ⟨u, hu, -, -, hcase⟩ := step_effect s
  obtain rfl : t = u := by rw [h] at hu; cases hu; rfl
  obtain ⟨hrst, hreset, -⟩ | ⟨hrst, r, w, haccess, hseq, -⟩ := hcase
  · exact .reset hrst hreset
  · by_cases hi : s.regs.state = .idle
    · exact .idle hrst hi (hseq.of_idle hi ▸ haccess)
    · obtain ⟨b, o, rfl, hbad, hover⟩ := haccess.of_busy hi
      exact .busy b o hrst hi hbad hover hseq

theorem step_writes_idle {s t : State} (hrst : s.pins.rst = false) (hi : s.regs.state = .idle)
    (h : step s = .next t) : AccessWrites s t.regs := by
  cases step_writes h with
  | reset hrst' => rw [hrst] at hrst'; cases hrst'
  | idle _ _ ha => exact ha
  | busy _ _ _ hb => exact absurd hi hb

/-! ## The invariant of the registers (10_state.md R27 to R34) -/

/-- The result flags and the error record are clear, as at reset and while a command runs. -/
structure Regs.Clear (r : Regs) : Prop where
  done : r.done = false
  err : r.err = false
  errOp : r.errOp = 0
  errCode : r.errCode = 0
  frameValid : r.frameValid = false

theorem Regs.Clear.inv {r : Regs} (hc : r.Clear) (hlegal : ∀ i, r.state ≠ .reserved i)
    (hhs : r.state = .hsW1 ∨ r.state = .hsW2 → r.hsOk = false) (hcnt : r.cnt.toNat < tMax r.cnt.clock) : r.Inv where
  legal := hlegal
  errOp_le := by rw [hc.errOp]; decide
  done_idle h := by simp [hc.done] at h
  err_iff := by simp [hc.err, hc.errOp]
  err_done h := by simp [hc.err] at h
  noErr_code _ := hc.errCode
  frameValid_done h := by simp [hc.frameValid] at h
  hsOk_clear h := hhs (by simpa [hc.errOp] using h)
  cnt_lt := hcnt

theorem Regs.Inv.clear_of_busy {r : Regs} (hi : r.Inv) (hb : r.state ≠ .idle) : r.Clear := by
  have hdone : r.done = false := Bool.eq_false_of_not_eq_true fun h => hb (hi.done_idle h)
  have herr : r.err = false := Bool.eq_false_of_not_eq_true fun h => by simp [hi.err_done h] at hdone
  have herrOp : r.errOp = 0 := by
    by_contra h
    simp [hi.err_iff.mpr h] at herr
  have hvalid : r.frameValid = false :=
    Bool.eq_false_of_not_eq_true fun h => by simp [(hi.frameValid_done h).1] at hdone
  exact ⟨hdone, herr, herrOp, hi.noErr_code herr, hvalid⟩

theorem Regs.Inv.reset (c : ClockRate) : (Regs.reset c).Inv :=
  Regs.Clear.inv ⟨rfl, rfl, rfl, rfl, rfl⟩ (fun _ => nofun) (fun _ => rfl) (Regs.reset_cnt_lt c)

/-- The sticky flags are in no clause of the invariant. -/
theorem Regs.Inv.sticky {r : Regs} (hi : r.Inv) (b o : Bool) : Regs.Inv { r with badCmd := b, overrun := o } :=
  ⟨hi.legal, hi.errOp_le, hi.done_idle, hi.err_iff, hi.err_done, hi.noErr_code, hi.frameValid_done, hi.hsOk_clear,
    hi.cnt_lt⟩

/-- The access keeps the invariant: an accepted command starts with the results clear, and HANDSHAKE with HS_OK = 0. -/
theorem AccessWrites.inv {s : State} {r : Regs} (h : AccessWrites s r) (hi : s.regs.Inv) : r.Inv := by
  have hcnt : r.cnt.toNat < tMax r.cnt.clock := by rw [h.clock]; exact h.cnt_lt hi.cnt_lt
  cases h with
  | nothing hr => exact hr ▸ hi
  | overrun hr | badCmd _ hr => exact hr ▸ hi.sticky _ _
  | handshake _ hr =>
    subst hr
    exact Regs.Clear.inv ⟨rfl, rfl, rfl, rfl, rfl⟩ (fun _ => nofun) (fun _ => rfl) hcnt
  | readFrame _ hr =>
    subst hr
    exact Regs.Clear.inv ⟨rfl, rfl, rfl, rfl, rfl⟩ (fun _ => nofun) nofun hcnt

/-- A settle state's cycle keeps the invariant, towards a state that needs no HS_OK = 0. -/
theorem Regs.Inv.settleStep {r : Regs} (hi : r.Inv) (hb : r.state ≠ .idle) {after : SeqState}
    (hafter : after = .rfAddr ∨ after = .rfRead) : (settleStep after r).Inv := by
  have hc := hi.clear_of_busy hb
  have hcnt := settleStep_cnt_lt (after := after) hi.cnt_lt
  by_cases h0 : r.cnt.toNat = 0
  · rw [settleStep_of_zero h0] at hcnt ⊢
    obtain rfl | rfl := hafter
    all_goals exact Regs.Clear.inv ⟨hc.done, hc.err, hc.errOp, hc.errCode, hc.frameValid⟩ (fun _ => nofun) nofun hcnt
  · rw [settleStep_of_pos h0] at hcnt ⊢
    exact Regs.Clear.inv ⟨hc.done, hc.err, hc.errOp, hc.errCode, hc.frameValid⟩ hi.legal
      (fun h => hi.hsOk_clear (by tauto)) hcnt

/-- Taking the exception keeps the invariant: a HANDSHAKE that fails leaves the HS_OK = 0 of its bus states. -/
theorem Regs.Inv.raiseTransportError {r : Regs} (hi : r.Inv) (hb : r.state ≠ .idle) {op : BitVec 4} (code : ErrCode)
    (hop : (r.state = .hsW1 ∧ op = 1) ∨ (r.state = .hsW2 ∧ op = 2) ∨ (r.state = .rfAddr ∧ op = 3) ∨
      (r.state = .rfRead ∧ op = 4)) : (raiseTransportError op code r).Inv := by
  have hc := hi.clear_of_busy hb
  have hrange : op ≤ 4 ∧ op ≠ 0 ∧ (op = 1 ∨ op = 2 → r.hsOk = false) := by
    obtain ⟨hs, rfl⟩ | ⟨hs, rfl⟩ | ⟨-, rfl⟩ | ⟨-, rfl⟩ := hop
    · exact ⟨by decide, by decide, fun _ => hi.hsOk_clear (.inl hs)⟩
    · exact ⟨by decide, by decide, fun _ => hi.hsOk_clear (.inr (.inl hs))⟩
    · exact ⟨by decide, by decide, by simp⟩
    · exact ⟨by decide, by decide, by simp⟩
  obtain ⟨hle, hne, hhs⟩ := hrange
  exact {
    legal := fun _ => nofun
    errOp_le := hle
    done_idle := fun _ => rfl
    err_iff := ⟨fun _ => hne, fun _ => rfl⟩
    err_done := fun _ => rfl
    noErr_code := nofun
    frameValid_done := fun h => absurd (hc.frameValid.symm.trans h) (by decide)
    hsOk_clear := fun h => hhs (by simpa [Machine.raiseTransportError] using h)
    cnt_lt := hi.cnt_lt }

/-- A command that ends without an error leaves the invariant, whatever result it leaves. -/
theorem Regs.inv_of_success {r : Regs} (hstate : r.state = .idle) (hdone : r.done = true) (herr : r.err = false)
    (herrOp : r.errOp = 0) (hcode : r.errCode = 0) (hcnt : r.cnt.toNat < tMax r.cnt.clock) : r.Inv where
  legal _ := by simp [hstate]
  errOp_le := by rw [herrOp]; decide
  done_idle _ := hstate
  err_iff := by simp [herr, herrOp]
  err_done _ := hdone
  noErr_code _ := hcode
  frameValid_done _ := ⟨hdone, herr⟩
  hsOk_clear h := by simp [hstate, herrOp] at h
  cnt_lt := hcnt

/-- The sequencer keeps the invariant, from registers `r` that are in the pre-edge state. -/
theorem SequencerWrites.inv {s : State} {r r' : Regs} (h : SequencerWrites s r r') (hi : r.Inv)
    (hb : r.state ≠ .idle) (hstate : r.state = s.regs.state) (hclock : r.cnt.clock = s.clock) : r'.Inv := by
  have hc := hi.clear_of_busy hb
  have hcnt := h.cnt_lt hclock hi.cnt_lt
  cases h with
  | nothing hr => exact hr ▸ hi
  | settle1 _ hr => exact hr ▸ hi.settleStep hb (.inl rfl)
  | settle2 _ hr => exact hr ▸ hi.settleStep hb (.inr rfl)
  | hsW1 hs _ _ hr =>
    subst hr
    exact Regs.Clear.inv ⟨hc.done, hc.err, hc.errOp, hc.errCode, hc.frameValid⟩ (fun _ => nofun)
      (fun _ => hi.hsOk_clear (.inl (hstate.trans hs))) hcnt
  | rfAddr _ _ _ hr =>
    subst hr
    exact Regs.Clear.inv ⟨hc.done, hc.err, hc.errOp, hc.errCode, hc.frameValid⟩ (fun _ => nofun) nofun hcnt
  | hsW2 _ _ _ hr | rfRead _ _ _ hr =>
    subst hr
    exact Regs.inv_of_success rfl rfl hc.err hc.errOp hc.errCode hcnt
  | error op _ _ hr hs => exact hr ▸ hi.raiseTransportError hb _ (by rw [hstate]; exact hs)

theorem step_regs_inv {s t : State} (hi : s.regs.Inv) (h : step s = .next t) : t.regs.Inv := by
  cases step_writes h with
  | reset _ hr => exact hr ▸ Regs.Inv.reset _
  | idle _ _ ha => exact ha.inv hi
  | busy b o _ hb _ _ hq => exact hq.inv (hi.sticky b o) hb rfl rfl

theorem step_host_inv {s t : State} (hi : s.host.Inv) (h : step s = .next t) : t.host.Inv := by
  obtain ⟨u, w, hu, hhost⟩ := step_host s
  obtain rfl : t = u := by rw [h] at hu; cases hu; rfl
  rw [hhost]
  exact ((hi.beginCycle _ _).t w).endCycle _

/-- Settles O37: the block's invariant by what a step writes, the host's by the host's own work around a new
temporary. -/
theorem everyStepKeepsTheInvariants : Obligations.EveryStepKeepsTheInvariants := fun _ _ hi h =>
  ⟨step_regs_inv hi.regs h, step_host_inv hi.host h⟩

theorem HostAgent.Inv.initial : HostAgent.initial.Inv := by constructor <;> decide

/-- Settles O36: every register of the reset state is clear, and the initial host holds nothing. -/
theorem resetStateMeetsTheInvariants : Obligations.ResetStateMeetsTheInvariants :=
  ⟨⟨Regs.Inv.reset _, HostAgent.Inv.initial⟩, rfl⟩

/-! ## What the parts of an edge keep -/

section
variable (after : SeqState) (r : Regs)

@[simp] theorem settleStep_done : (settleStep after r).done = r.done := by unfold settleStep; split <;> rfl
@[simp] theorem settleStep_frame : (settleStep after r).frame = r.frame := by unfold settleStep; split <;> rfl
@[simp] theorem settleStep_frameValid : (settleStep after r).frameValid = r.frameValid := by
  unfold settleStep; split <;> rfl
@[simp] theorem settleStep_hsOk : (settleStep after r).hsOk = r.hsOk := by unfold settleStep; split <;> rfl
@[simp] theorem settleStep_badCmd : (settleStep after r).badCmd = r.badCmd := by unfold settleStep; split <;> rfl
@[simp] theorem settleStep_overrun : (settleStep after r).overrun = r.overrun := by unfold settleStep; split <;> rfl

theorem settleStep_state : (settleStep after r).state = r.state ∨ (settleStep after r).state = after := by
  unfold settleStep
  split
  · exact .inr rfl
  · exact .inl rfl

end

/-- The sequencer writes neither sticky flag. -/
theorem SequencerWrites.sticky {s : State} {r r' : Regs} (h : SequencerWrites s r r') :
    r'.badCmd = r.badCmd ∧ r'.overrun = r.overrun := by
  cases h with
  | nothing hr | settle1 _ hr | settle2 _ hr | hsW1 _ _ _ hr | hsW2 _ _ _ hr | rfAddr _ _ _ hr | rfRead _ _ _ hr
  | error _ _ _ hr =>
    subst hr
    simp [completeHandshake, completeReadFrame, raiseTransportError]

/-- The four states that drive a request (20_memory.md R68). -/
theorem busReq_cases {st : SeqState} (h : busReq st = true) : st = .hsW1 ∨ st = .hsW2 ∨ st = .rfAddr ∨ st = .rfRead := by
  cases st with
  | hsW1 | hsW2 | rfAddr | rfRead => simp
  | idle | rfSettle1 | rfSettle2 | reserved _ => cases h

/-- What the sequencer makes of `S.state` (10_state.md R23). -/
theorem SequencerWrites.state_cases {s : State} {r r' : Regs} (h : SequencerWrites s r r')
    (hstate : r.state = s.regs.state) :
    (r'.state = s.regs.state ∧ (busReq s.regs.state = true → s.pins.busDone = false)) ∨
    (busReq s.regs.state = true ∧ s.pins.busDone = true ∧ r'.state = .idle ∧ r'.done = true) ∨
    (s.regs.state = .hsW1 ∧ s.pins.busDone = true ∧ s.pins.bus.ok = true ∧ r'.state = .hsW2) ∨
    (s.regs.state = .rfSettle1 ∧ r'.state = .rfAddr) ∨
    (s.regs.state = .rfAddr ∧ s.pins.busDone = true ∧ s.pins.bus.ok = true ∧ r'.state = .rfSettle2) ∨
    (s.regs.state = .rfSettle2 ∧ r'.state = .rfRead) := by
  cases h with
  | nothing hr hs =>
    refine .inl ⟨hr ▸ hstate, fun hreq => ?_⟩
    obtain hs | ⟨i, hs⟩ | ⟨-, hwait⟩ := hs
    · exact absurd hs (ne_idle_of_busReq hreq)
    · rw [hs] at hreq
      cases hreq
    · exact hwait
  | settle1 hs hr =>
    obtain h | h := settleStep_state .rfAddr r
    · exact .inl ⟨by rw [hr, h, hstate], by simp [hs, busReq]⟩
    · exact .inr (.inr (.inr (.inl ⟨hs, hr ▸ h⟩)))
  | settle2 hs hr =>
    obtain h | h := settleStep_state .rfRead r
    · exact .inl ⟨by rw [hr, h, hstate], by simp [hs, busReq]⟩
    · exact .inr (.inr (.inr (.inr (.inr ⟨hs, hr ▸ h⟩))))
  | hsW1 hs hd hk hr => exact .inr (.inr (.inl ⟨hs, hd, hk, hr ▸ rfl⟩))
  | rfAddr hs hd hk hr => exact .inr (.inr (.inr (.inr (.inl ⟨hs, hd, hk, hr ▸ rfl⟩))))
  | hsW2 hs hd _ hr | rfRead hs hd _ hr => exact .inr (.inl ⟨by rw [hs]; rfl, hd, hr ▸ rfl, hr ▸ rfl⟩)
  | error op hd _ hr hs =>
    refine .inr (.inl ⟨?_, hd, hr ▸ rfl, hr ▸ rfl⟩)
    obtain ⟨hs, -⟩ | ⟨hs, -⟩ | ⟨hs, -⟩ | ⟨hs, -⟩ := hs
    all_goals rw [hs]; rfl

/-- DONE is set only with the entry to IDLE. -/
theorem SequencerWrites.done_cases {s : State} {r r' : Regs} (h : SequencerWrites s r r') :
    r'.done = r.done ∨ r'.state = .idle := by
  cases h with
  | nothing hr | hsW1 _ _ _ hr | rfAddr _ _ _ hr => exact .inl (hr ▸ rfl)
  | settle1 _ hr | settle2 _ hr => exact .inl (hr ▸ settleStep_done _ _)
  | hsW2 _ _ _ hr | rfRead _ _ _ hr | error _ _ _ hr => exact .inr (hr ▸ rfl)

theorem busy_eq_false_iff (r : Regs) : busy r = false ↔ r.state = .idle := by
  simp [busy]

theorem busy_eq_true_iff (r : Regs) : busy r = true ↔ r.state ≠ .idle := by
  simp [busy]

/-- An access in IDLE starts a command, with DONE cleared, or keeps everything but BADCMD, which it can only set. -/
theorem AccessWrites.of_idle {s : State} {r : Regs} (h : AccessWrites s r) (hi : s.regs.state = .idle) :
    (r = { s.regs with badCmd := r.badCmd } ∧ (s.regs.badCmd = true → r.badCmd = true)) ∨
    (r = (handshakeStart (s.mapRegs acceptCommon)).regs ∧ cmdWritten s.beginCycle = some 0x01#8) ∨
    (r = (readFrameStart (s.mapRegs acceptCommon)).regs ∧ cmdWritten s.beginCycle = some 0x02#8) := by
  cases h with
  | nothing hr => exact .inl ⟨by rw [hr], fun h => hr ▸ h⟩
  | overrun _ hb => exact absurd hi hb
  | badCmd _ hr => exact .inl ⟨by rw [hr]; rfl, fun _ => hr ▸ rfl⟩
  | handshake _ hr hw => exact .inr (.inl ⟨hr, hw⟩)
  | readFrame _ hr hw => exact .inr (.inr ⟨hr, hw⟩)

/-- Settles O38: an accept clears DONE, and the sequencer sets it only as it enters IDLE. -/
theorem doneImpliesNotBusyIsKept : Obligations.DoneImpliesNotBusyIsKept := by
  intro s t hs h hdone
  rw [busy_eq_false_iff] at hs ⊢
  cases step_writes h with
  | reset _ hr => rw [hr]; rfl
  | idle _ hi ha =>
    obtain ⟨hr, -⟩ | ⟨hr, -⟩ | ⟨hr, -⟩ := ha.of_idle hi
    · rw [hr]; exact hi
    all_goals
      rw [hr] at hdone
      cases hdone
  | busy b o _ hb _ _ hq =>
    obtain hkept | hidle := hq.done_cases
    · exact absurd (hs (hkept ▸ hdone)) hb
    · exact hidle

/-- Settles O39: in IDLE the access moves the sequencer, while busy the sequencer does. -/
theorem sequencerVisitsOnlyItsSequences : Obligations.SequencerVisitsOnlyItsSequences := by
  intro s t hrst h hne
  cases step_writes h with
  | reset hrst' => rw [hrst] at hrst'; cases hrst'
  | idle _ hi ha =>
    obtain ⟨hr, -⟩ | ⟨hr, -⟩ | ⟨hr, -⟩ := ha.of_idle hi
    · exact absurd (by rw [hr]) hne
    · exact .inl ⟨hi, .inl (by rw [hr]; rfl)⟩
    · exact .inl ⟨hi, .inr (by rw [hr]; rfl)⟩
  | busy b o _ hb _ _ hq =>
    obtain ⟨hs, -⟩ | ⟨hreq, -, ht, -⟩ | ⟨hs, -, -, ht⟩ | ⟨hs, ht⟩ | ⟨hs, -, -, ht⟩ | ⟨hs, ht⟩ := hq.state_cases rfl
    · exact absurd hs hne
    · obtain hs | hs | hs | hs := busReq_cases hreq
      all_goals simp [hs, ht]
    all_goals simp [hs, ht]

/-- Settles O40: HS_W2 is entered by SEND_HS1's success and kept by SEND_HS2's wait. -/
theorem secondHandshakeWriteOnlyAfterTheFirst : Obligations.SecondHandshakeWriteOnlyAfterTheFirst := by
  intro s t h hword
  have ht : t.regs.state = .hsW2 := by
    obtain ⟨-, hw⟩ | ⟨hs, -⟩ | ⟨-, hw⟩ | ⟨-, hw⟩ := busWord_cases hword
    · cases hw
    · exact hs
    · cases hw
    · cases hw
  cases step_writes h with
  | reset _ hr => rw [hr] at ht; cases ht
  | idle _ hi ha =>
    obtain ⟨hr, -⟩ | ⟨hr, -⟩ | ⟨hr, -⟩ := ha.of_idle hi
    · rw [hr] at ht
      cases hi.symm.trans ht
    all_goals
      rw [hr] at ht
      cases ht
  | busy b o hrst hb _ _ hq =>
    refine ⟨hrst, ?_⟩
    obtain ⟨hs, hwait⟩ | ⟨-, -, ht', -⟩ | ⟨hs, hd, hk, -⟩ | ⟨-, ht'⟩ | ⟨-, -, -, ht'⟩ | ⟨-, ht'⟩ := hq.state_cases rfl
    case inl =>
      rw [ht] at hs
      rw [← hs] at hwait ⊢
      exact .inr ⟨busWord_hsW2, hwait rfl⟩
    case inr.inr.inl => exact .inl ⟨by rw [hs]; exact busWord_hsW1, hd, hk⟩
    all_goals cases ht'.symm.trans ht

/-! ## The results of a command -/

/-- FRAME and FRAME_VALID are written by RECV_FRAME's success and by nothing else of the sequencer. -/
theorem SequencerWrites.frame_cases {s : State} {r r' : Regs} (h : SequencerWrites s r r') :
    (r'.frame = r.frame ∧ r'.frameValid = r.frameValid) ∨
    (s.regs.state = .rfRead ∧ s.pins.busDone = true ∧ s.pins.bus.ok = true ∧
      r' = completeReadFrame s.pins.bus.rdata r) := by
  cases h with
  | nothing hr | settle1 _ hr | settle2 _ hr | hsW1 _ _ _ hr | hsW2 _ _ _ hr | rfAddr _ _ _ hr | error _ _ _ hr =>
    subst hr
    exact .inl (by simp [completeHandshake, raiseTransportError])
  | rfRead hs hd hk hr => exact .inr ⟨hs, hd, hk, hr⟩

/-- HS_OK is written by SEND_HS2's success and by nothing else of the sequencer. -/
theorem SequencerWrites.hsOk_cases {s : State} {r r' : Regs} (h : SequencerWrites s r r') :
    r'.hsOk = r.hsOk ∨
    (s.regs.state = .hsW2 ∧ s.pins.busDone = true ∧ s.pins.bus.ok = true ∧ r' = completeHandshake r) := by
  cases h with
  | nothing hr | settle1 _ hr | settle2 _ hr | hsW1 _ _ _ hr | rfAddr _ _ _ hr | rfRead _ _ _ hr | error _ _ _ hr =>
    subst hr
    exact .inl (by simp [completeReadFrame, raiseTransportError])
  | hsW2 hs hd hk hr => exact .inr ⟨hs, hd, hk, hr⟩

/-- Settles O41: no access writes FRAME, and of the sequencer only RECV_FRAME's success does. -/
theorem frameChangesOnlyAsAWhole : Obligations.FrameChangesOnlyAsAWhole := by
  intro s t h hne
  cases step_writes h with
  | reset hrst hr => exact .inl ⟨hrst, hr⟩
  | idle _ hi ha =>
    obtain ⟨hr, -⟩ | ⟨hr, -⟩ | ⟨hr, -⟩ := ha.of_idle hi
    · exact absurd (by rw [hr]) hne
    all_goals exact absurd (by rw [hr]; rfl) hne
  | busy b o hrst _ _ _ hq =>
    obtain ⟨hkept, -⟩ | ⟨hs, hd, hk, hr⟩ := hq.frame_cases
    · exact absurd hkept hne
    · rw [hr]
      exact .inr ⟨hrst, hs, hd, hk, rfl, rfl, rfl, rfl⟩

/-- Settles O42: while busy FRAME_VALID is 0 by the invariant, so it is 1 after a step that captured the frame, or one
in IDLE that started no command. -/
theorem frameValidMeansTheLastCommandReadIt : Obligations.FrameValidMeansTheLastCommandReadIt := by
  intro s t hinv h hvalid
  cases step_writes h with
  | reset _ hr => rw [hr] at hvalid; cases hvalid
  | idle _ hi ha =>
    obtain ⟨hr, -⟩ | ⟨hr, -⟩ | ⟨hr, -⟩ := ha.of_idle hi
    · rw [hr] at hvalid ⊢
      exact .inr ⟨hvalid, rfl, hi, hi⟩
    all_goals
      rw [hr] at hvalid
      cases hvalid
  | busy b o _ hb _ _ hq =>
    obtain ⟨-, hkept⟩ | ⟨hs, hd, hk, hr⟩ := hq.frame_cases
    · have hclear := (hinv.regs.clear_of_busy hb).frameValid
      cases hclear.symm.trans (hkept.symm.trans hvalid)
    · exact .inl ⟨hs, hd, hk, by rw [hr]; rfl⟩

/-- Settles O43: an accept of HANDSHAKE clears HS_OK, one of READ_FRAME keeps it, and of the sequencer only SEND_HS2's
success writes it. -/
theorem hsOkFollowsTheLastHandshake : Obligations.HsOkFollowsTheLastHandshake := by
  intro s t h hne
  cases step_writes h with
  | reset hrst hr => exact .inl ⟨hrst, by rw [hr]; rfl⟩
  | idle _ hi ha =>
    obtain ⟨hr, -⟩ | ⟨hr, -⟩ | ⟨hr, -⟩ := ha.of_idle hi
    · exact absurd (by rw [hr]) hne
    · exact .inr (.inl ⟨hi, by rw [hr]; rfl, by rw [hr]; rfl⟩)
    · exact absurd (by rw [hr]; rfl) hne
  | busy b o _ _ _ _ hq =>
    obtain hkept | ⟨hs, hd, hk, hr⟩ := hq.hsOk_cases
    · exact absurd hkept hne
    · rw [hr]
      exact .inr (.inr ⟨hs, hd, hk, rfl, rfl, rfl⟩)

/-- Settles O44: in a reserved code the sequencer writes nothing, and the access only the two sticky flags. -/
theorem reservedStateIsHeldUntilReset : Obligations.ReservedStateIsHeldUntilReset := by
  intro s t i hs hrst h
  cases step_writes h with
  | reset hrst' => rw [hrst] at hrst'; cases hrst'
  | idle _ hi => cases hs.symm.trans hi
  | busy b o _ hb _ _ hq =>
    have hr : t.regs = { s.regs with badCmd := b, overrun := o } := by
      cases hq with
      | nothing hr => exact hr
      | error _ _ _ _ hs' => simp [hs] at hs'
      | settle1 hs' | settle2 hs' | hsW1 hs' | hsW2 hs' | rfAddr hs' | rfRead hs' => cases hs.symm.trans hs'
    rw [hr]
    exact ⟨rfl, (busy_eq_true_iff _).mpr hb, by simp only [hs]; exact busWord_of_noRequest rfl⟩

/-! ## The error record (60_exceptions.md R257) -/

/-- Settles O34: in IDLE an access without an accept keeps the record, and an accept clears it. -/
theorem errorRecordLastsUntilTheNextAccept : Obligations.ErrorRecordLastsUntilTheNextAccept := by
  intro s t hrst hi h
  obtain ⟨hr, -⟩ | ⟨hr, -⟩ | ⟨hr, -⟩ := (step_writes_idle hrst hi h).of_idle hi
  · rw [hr]
    exact ⟨fun _ => ⟨rfl, rfl, rfl, rfl, rfl⟩, fun hne => absurd hi hne⟩
  all_goals
    rw [hr]
    exact ⟨nofun, fun _ => ⟨rfl, rfl, rfl, rfl⟩⟩

end Sys2Proof.Machine
end


section
/-! PROOFS of the statements of 10_state.md R22 and R50, 40_register_access.md, 42_frame_reader.md and
60_exceptions.md on single instructions and single edges: what each command writes, the settle delays that can be drawn,
the frame of every instruction, and the two parts of an edge. -/

namespace Sys2Proof.Machine

/-! ## Sequencer codes (10_state.md R22) -/

/-- The state of a code. -/
def SeqState.ofCode (c : BitVec 4) : SeqState :=
  if h : 7 ≤ c.toNat then .reserved ⟨c.toNat - 7, by omega⟩
  else if c = 0 then .idle
  else if c = 1 then .hsW1
  else if c = 2 then .hsW2
  else if c = 3 then .rfSettle1
  else if c = 4 then .rfAddr
  else if c = 5 then .rfSettle2
  else .rfRead

theorem SeqState.ofCode_code (st : SeqState) : ofCode st.code = st := by
  cases st with
  | idle | hsW1 | hsW2 | rfSettle1 | rfAddr | rfSettle2 | rfRead => rfl
  | reserved i =>
    revert i
    decide

theorem SeqState.code_ofCode (c : BitVec 4) : (ofCode c).code = c := by
  revert c
  decide

/-- Settles O12: `ofCode` is the inverse of `code`. -/
theorem sequencerStateCodes : Obligations.SequencerStateCodes :=
  ⟨rfl, rfl, rfl, rfl, rfl, rfl, rfl, by decide, fun _ _ h => Function.LeftInverse.injective SeqState.ofCode_code h,
    fun c => ⟨_, SeqState.code_ofCode c⟩⟩

/-! ## Commands (40_register_access.md R121, R122) -/

theorem exec_decodeCmd8_reserved {op : Byte} (h : 3 ≤ op.toNat) (s : State) :
    exec (decodeCmd8 op) s = .next (s.mapRegs setBadCmd) := by
  have h0 : op ≠ 0x00#8 := by rintro rfl; exact absurd h (by decide)
  have h1 : op ≠ 0x01#8 := by rintro rfl; exact absurd h (by decide)
  have h2 : op ≠ 0x02#8 := by rintro rfl; exact absurd h (by decide)
  simp only [decodeCmd8, h0, h1, h2, if_false]
  split_ifs <;> rfl

/-- Settles O17: the four effects of a CMD write are those of the commands its low byte decodes to. -/
theorem cmdWriteRunsItsOpcode : Obligations.CmdWriteRunsItsOpcode := by
  intro d s
  have hop : BitVec.ofNat 8 d.toNat = opcodeOf d :=
    BitVec.eq_of_toNat_eq (by rw [opcodeOf_toNat, BitVec.toNat_ofNat])
  rw [hop]
  obtain ⟨ho, he⟩ | ⟨ho, he⟩ | ⟨ho, he⟩ | ⟨ho, he⟩ := execWrCmd_cases d s
  · rw [he, ho]; rfl
  · rw [he, ho]; rfl
  · rw [he, ho]; rfl
  · rw [he, exec_decodeCmd8_reserved ho]

theorem exec_handshake_idle {s : State} (hi : s.regs.state = .idle) :
    exec .handshake s = .next (handshakeStart (s.mapRegs acceptCommon)) :=
  congrArg _ (acceptOrOverrun_idle hi)

theorem exec_readFrame_idle {s : State} (hi : s.regs.state = .idle) :
    exec .readFrame s = .next (readFrameStart (s.mapRegs acceptCommon)) :=
  congrArg _ (acceptOrOverrun_idle hi)

/-- Settles O20: the shared clearing, then `handshakeStart`. -/
theorem handshakeAccepted : Obligations.HandshakeAccepted := by
  rintro s hi i (rfl | ⟨d, hd, rfl⟩)
  · exact exec_handshake_idle hi
  · exact (exec_wrCmd_handshake s hd).trans (exec_handshake_idle hi)

/-! ## Settle delays (00_scope.md R10, 42_frame_reader.md R160 to R163) -/

/-- A scheduled draw that is admitted is the one drawn (42_frame_reader.md R161). -/
theorem drawDelay_of_scheduled {s : State} {m : Nat} (hm : s.pins.draw = some m) (hmin : tMin s.clock ≤ m)
    (hmax : m ≤ tMax s.clock) : s.drawDelay = m := by
  rw [State.drawDelay, hm, Option.getD_some, admitDelay_of_mem hmin hmax]

/-- The length and the counter that entry to a settle state draws. -/
theorem enterSettle_draws_admitted (s : State) :
    ∃ (n : Nat) (cnt : SettleCounter), tMin s.clock ≤ n ∧ n ≤ tMax s.clock ∧ cnt.clock = s.clock ∧
      cnt.toNat + 1 = n ∧ (∀ m, s.pins.draw = some m → tMin s.clock ≤ m → m ≤ tMax s.clock → n = m) ∧
      ∀ st, enterSettle st s = { s with draws := s.draws + 1, regs := { s.regs with cnt := cnt, state := st } } :=
  ⟨s.drawDelay, s.regs.cnt.load (s.drawDelay - 1), (drawDelay_bounds s).1, (drawDelay_bounds s).2, rfl,
    load_drawDelay_toNat rfl, fun _ => drawDelay_of_scheduled, fun _ => rfl⟩

/-- Settles O21: the shared clearing, then entry to RF_SETTLE1. -/
theorem readFrameAccepted : Obligations.ReadFrameAccepted := by
  intro s hi i hcmd
  have hexec : exec i s = .next (readFrameStart (s.mapRegs acceptCommon)) := by
    obtain rfl | ⟨d, hd, rfl⟩ := hcmd
    · exact exec_readFrame_idle hi
    · exact (exec_wrCmd_readFrame s hd).trans (exec_readFrame_idle hi)
  obtain ⟨n, cnt, hmin, hmax, hclock, hcnt, hdraw, hentry⟩ := enterSettle_draws_admitted (s.mapRegs acceptCommon)
  exact ⟨n, cnt, hmin, hmax, hclock, hcnt, hdraw, by rw [hexec, readFrameStart, hentry]; rfl⟩

theorem exec_sendAddr (s : State) :
    exec .sendAddr s = .next (busTransaction .rfAddr 3 (enterSettle .rfSettle2) s) := rfl

/-- Settles O30: the transaction of RF_ADDR by the three answers of the transport. -/
theorem sendAddrCycle : Obligations.SendAddrCycle := by
  refine fun s hs => ⟨fun hd hk => ?success, fun hd hk => ?failure, fun hd => ?waiting⟩
  case success =>
    obtain ⟨n, cnt, hmin, hmax, hclock, hcnt, hdraw, hentry⟩ := enterSettle_draws_admitted s
    exact ⟨n, cnt, hmin, hmax, hclock, hcnt, hdraw, by
      rw [exec_sendAddr, busTransaction_success hs hd hk, hentry]⟩
  case failure =>
    rw [exec_sendAddr, busTransaction_failure hs hd hk]
    rfl
  case waiting => rw [exec_sendAddr, busTransaction_wait hd]

theorem enterSettle_cnt (st : SeqState) (s : State) : (enterSettle st s).regs.cnt.toNat + 1 = s.drawDelay :=
  load_drawDelay_toNat (s := s) rfl

/-- The pins of a cycle whose draw is scheduled, and in which a transaction succeeds. -/
def drawingPins (d : Nat) : Pins :=
  { rst := false, busDone := true, bus := { ok := true, err := 0, rdata := 0 }, draw := some d }

/-- Settles O23: an admitted length is drawn where it is scheduled, and none but an admitted one is ever drawn. -/
theorem everyAdmittedDelayCanBeDrawn : Obligations.EveryAdmittedDelayCanBeDrawn := by
  refine fun s d => ⟨fun hi => ?accept, fun hs => ?success⟩
  case accept =>
    have hexec (p : Pins) : exec .readFrame (s.withPins p) =
        .next (enterSettle .rfSettle1 ((s.withPins p).mapRegs acceptCommon)) := exec_readFrame_idle hi
    refine ⟨fun ⟨hmin, hmax⟩ => ⟨drawingPins d, _, hexec _, ?_⟩, fun ⟨p, t, ht, hd⟩ => ?_⟩
    · exact (enterSettle_cnt _ _).trans (drawDelay_of_scheduled rfl hmin hmax)
    · rw [hexec] at ht
      cases ht
      rw [enterSettle_cnt] at hd
      exact hd ▸ drawDelay_bounds ((s.withPins p).mapRegs acceptCommon)
  case success =>
    have hexec (p : Pins) (hdone : p.busDone = true) (hok : p.bus.ok = true) :
        exec .sendAddr (s.withPins p) = .next (enterSettle .rfSettle2 (s.withPins p)) :=
      (exec_sendAddr _).trans (congrArg _ (busTransaction_success (s := s.withPins p) hs hdone hok))
    refine ⟨fun ⟨hmin, hmax⟩ => ⟨drawingPins d, _, rfl, rfl, hexec _ rfl rfl, ?_⟩,
      fun ⟨p, t, hdone, hok, ht, hd⟩ => ?_⟩
    · exact (enterSettle_cnt _ _).trans (drawDelay_of_scheduled rfl hmin hmax)
    · rw [hexec p hdone hok] at ht
      cases ht
      rw [enterSettle_cnt] at hd
      exact hd ▸ drawDelay_bounds (s.withPins p)

/-- Settles O32: a transaction acts only in the state that drives its request. -/
theorem unrequestedTransactionDoesNothing : Obligations.UnrequestedTransactionDoesNothing := fun _ =>
  ⟨fun h => congrArg _ (busTransaction_elsewhere h), fun h => congrArg _ (busTransaction_elsewhere h),
    fun h => congrArg _ (busTransaction_elsewhere h), fun h => congrArg _ (busTransaction_elsewhere h)⟩

/-! ## What an instruction can do to the whole state -/

/-- The three kinds of effect: the temporary alone, for a read; registers alone, with F_CLK kept; or the entry to a
settle state, for which the registers may have been cleared first. -/
inductive Effect (i : Instr) (s : State) : State → Prop
  | read (w : Word) (hfmt : i.format = .hostAcc) (hread : encode i < 2 ^ 36) : Effect i s (s.setT w)
  | regs (f : Regs → Regs) (hclock : (f s.regs).cnt.clock = s.clock) : Effect i s (s.mapRegs f)
  | settle (f : Regs → Regs) (st : SeqState) (hclock : (f s.regs).cnt.clock = s.clock)
      (hst : st = .rfSettle1 ∨ st = .rfSettle2) (hne : s.regs.state ≠ st) : Effect i s (enterSettle st (s.mapRegs f))

section
variable {i : Instr} {s : State}

theorem Effect.same : Effect i s s := .regs id rfl

theorem encode_read_lt (a : RegIdx) (d : Word) : (hostAccWord false a d).toNat < 2 ^ 36 := by
  have ha := a.isLt
  have hd := d.isLt
  rw [hostAccWord_toNat, Bool.toNat_false]
  omega

theorem acceptOrOverrun_handshake_effect : Effect i s (acceptOrOverrun handshakeStart s) := by
  unfold acceptOrOverrun
  split
  · exact .regs (fun r => { acceptCommon r with hsOk := false, state := .hsW1 }) rfl
  · exact .regs setOverrun rfl

theorem acceptOrOverrun_readFrame_effect : Effect i s (acceptOrOverrun readFrameStart s) := by
  unfold acceptOrOverrun
  split
  case isTrue hi => exact .settle acceptCommon .rfSettle1 rfl (.inl rfl) (by simp [hi])
  case isFalse => exact .regs setOverrun rfl

theorem busTransaction_effect {st : SeqState} {op : BitVec 4} {success : State → State}
    (h : s.regs.state = st → Effect i s (success s)) : Effect i s (busTransaction st op success s) := by
  unfold busTransaction busCycle
  split
  case isTrue hs =>
    split
    · split
      · exact h hs
      · exact .regs (raiseTransportError op s.pins.bus.err) rfl
    · exact .same
  case isFalse => exact .same

theorem exec_effect {t : State} (h : exec i s = .next t) : Effect i s t := by
  cases i with
  | rdCmd d | rdStatus d | rdErrcode d | rdFrame0 d | rdFrame1 d | rdJoy d | rdAcc d | rdBtn d | rdUnmapped a d =>
    cases h
    exact .read _ rfl (encode_read_lt _ _)
  | wrCmd d =>
    obtain ⟨-, he⟩ | ⟨-, he⟩ | ⟨-, he⟩ | ⟨-, he⟩ := execWrCmd_cases d s
    all_goals
      rw [he] at h
      cases h
    · exact .same
    · exact acceptOrOverrun_handshake_effect
    · exact acceptOrOverrun_readFrame_effect
    · exact .regs setBadCmd rfl
  | wrRo1 d | wrRo2to3 a d | wrRo4to7 a d | wrUnmapped a d | nop =>
    cases h
    exact .same
  | handshake =>
    cases h
    exact acceptOrOverrun_handshake_effect
  | readFrame =>
    cases h
    exact acceptOrOverrun_readFrame_effect
  | reserved03 | reserved04to07 op | reserved08to0F op | reserved10to1F op | reserved20to3F op | reserved40to7F op
  | reserved80toFF op =>
    cases h
    exact .regs setBadCmd rfl
  | sendHs1 | sendHs2 | recvFrame =>
    cases h
    exact busTransaction_effect fun _ => .regs _ rfl
  | sendAddr =>
    cases h
    exact busTransaction_effect fun hs => .settle id .rfSettle2 rfl (.inr rfl) (by simp [hs])

end

/-- Settles O9: each of the three effects keeps F_CLK, the inputs and the host but for its temporary. -/
theorem instructionFrame : Obligations.InstructionFrame := by
  intro i s t h
  cases exec_effect h with
  | read w hfmt hread => exact ⟨rfl, rfl, rfl, fun _ => ⟨rfl, rfl, hfmt, hread⟩, fun hne => absurd rfl hne⟩
  | regs f hclock => exact ⟨hclock, rfl, rfl, fun hne => absurd rfl hne, fun hne => absurd rfl hne⟩
  | settle f st hclock hst hne => exact ⟨hclock, rfl, rfl, fun hne => absurd rfl hne, fun _ => ⟨rfl, hne, hst⟩⟩

/-- Every instruction answers a next state: no arm of `exec` raises a fault or a refusal (60_exceptions.md R250). -/
theorem exec_next (i : Instr) (s : State) : ∃ t, exec i s = .next t := by
  cases i with
  | wrCmd d =>
    obtain ⟨-, he⟩ | ⟨-, he⟩ | ⟨-, he⟩ | ⟨-, he⟩ := execWrCmd_cases d s
    all_goals exact ⟨_, he⟩
  | _ => exact ⟨_, rfl⟩

/-- Settles O8: each arm of `exec` answers a next state, and a step is made of such arms. -/
theorem everyInstructionAndStepGoesOn : Obligations.EveryInstructionAndStepGoesOn := by
  refine ⟨exec_next, fun s => ?_⟩
  obtain ⟨t, h, hclock, henv, -⟩ := step_effect s
  exact ⟨t, h, henv, hclock⟩

/-! ## A host access while busy (60_exceptions.md R254) -/

/-- Settles O47: a read writes the host's temporary, a command OVERRUN, a reserved opcode BADCMD, and every other
access nothing. -/
theorem busyAccessTouchesOnlyStickyFlags : Obligations.BusyAccessTouchesOnlyStickyFlags := by
  intro i s t hfmt hb h
  cases i with
  | rdCmd d | rdStatus d | rdErrcode d | rdFrame0 d | rdFrame1 d | rdJoy d | rdAcc d | rdBtn d | rdUnmapped a d =>
    cases h
    exact ⟨rfl, id, id, rfl⟩
  | wrRo1 d | wrRo2to3 a d | wrRo4to7 a d | wrUnmapped a d | nop =>
    cases h
    exact ⟨rfl, id, id, rfl⟩
  | wrCmd d =>
    obtain ⟨-, he⟩ | ⟨-, he⟩ | ⟨-, he⟩ | ⟨-, he⟩ := execWrCmd_cases d s
    all_goals
      rw [he] at h
      cases h
    · exact ⟨rfl, id, id, rfl⟩
    · rw [acceptOrOverrun_busy hb]; exact ⟨rfl, id, fun _ => rfl, rfl⟩
    · rw [acceptOrOverrun_busy hb]; exact ⟨rfl, id, fun _ => rfl, rfl⟩
    · exact ⟨rfl, fun _ => rfl, id, rfl⟩
  | handshake =>
    rw [exec_handshake_busy hb] at h
    cases h
    exact ⟨rfl, id, fun _ => rfl, rfl⟩
  | readFrame =>
    rw [exec_readFrame_busy hb] at h
    cases h
    exact ⟨rfl, id, fun _ => rfl, rfl⟩
  | reserved03 | reserved04to07 op | reserved08to0F op | reserved10to1F op | reserved20to3F op | reserved40to7F op
  | reserved80toFF op =>
    cases h
    exact ⟨rfl, fun _ => rfl, id, rfl⟩
  | sendHs1 | sendHs2 | sendAddr | recvFrame => exact absurd rfl hfmt

/-! ## The two parts of an edge (10_state.md R50) -/

/-- The registers with other sticky flags. -/
def Regs.withSticky (b o : Bool) (r : Regs) : Regs := { r with badCmd := b, overrun := o }

section
variable {s u : State} {b o : Bool}

theorem enterSettle_withSticky (st : SeqState) (hr : u.regs = s.regs.withSticky b o) (he : u.env = s.env)
    (hn : u.draws = s.draws) : (enterSettle st u).regs = (enterSettle st s).regs.withSticky b o := by
  have hdraw : u.drawDelay = s.drawDelay := State.drawDelay_congr (by rw [State.clock, hr]; rfl) he hn
  rw [enterSettle_regs, enterSettle_regs, hdraw, hr]
  rfl

theorem busTransaction_withSticky {st : SeqState} {op : BitVec 4} {f g : State → State} (hs : s.regs.state = st)
    (hr : u.regs = s.regs.withSticky b o) (he : u.env = s.env) (hfg : (g u).regs = (f s).regs.withSticky b o) :
    (busTransaction st op g u).regs = (busTransaction st op f s).regs.withSticky b o := by
  have hs' : u.regs.state = st := by rw [hr]; exact hs
  have hp : u.pins = s.pins := State.pins_congr he
  rcases hd : s.pins.busDone with _ | _
  · rw [busTransaction_wait hd, busTransaction_wait (hp ▸ hd), hr]
  rcases hk : s.pins.bus.ok with _ | _
  · rw [busTransaction_failure hs hd hk, busTransaction_failure hs' (hp ▸ hd) (hp ▸ hk), State.mapRegs_regs, hr, hp]
    rfl
  · rw [busTransaction_success hs hd hk, busTransaction_success hs' (hp ▸ hd) (hp ▸ hk), hfg]

/-- The sequencer neither reads nor writes the sticky flags. -/
theorem sequencerPart_withSticky {q t : State} (hr : u.regs = s.regs.withSticky b o) (he : u.env = s.env)
    (hn : u.draws = s.draws) (hq : sequencerPart s.regs.state s = .next q)
    (ht : sequencerPart s.regs.state u = .next t) : t.regs = q.regs.withSticky b o := by
  generalize hs : s.regs.state = st at hq ht
  cases st with
  | idle | reserved _ =>
    cases hq
    cases ht
    exact hr
  | rfSettle1 | rfSettle2 =>
    cases hq
    cases ht
    rw [State.mapRegs_regs, State.mapRegs_regs, hr]
    exact settleStep_flags _ _ _ _
  | hsW1 | hsW2 =>
    cases hq
    cases ht
    exact busTransaction_withSticky hs hr he (by rw [State.mapRegs_regs, State.mapRegs_regs, hr]; rfl)
  | rfAddr =>
    cases hq
    cases ht
    exact busTransaction_withSticky hs hr he (enterSettle_withSticky _ hr he hn)
  | rfRead =>
    cases hq
    cases ht
    refine busTransaction_withSticky hs hr he ?_
    rw [State.mapRegs_regs, State.mapRegs_regs, hr, State.pins_congr he]
    rfl

end

/-- While busy the access writes the sticky flags at most, and draws nothing. -/
theorem hostPart_busy {s h : State} (hb : s.regs.state ≠ .idle) (hh : hostPart s = .next h) :
    h.regs = s.regs.withSticky h.regs.badCmd h.regs.overrun ∧ h.draws = s.draws := by
  obtain ⟨u, hu, -, -, -, hc⟩ := hostPart_cases s
  obtain rfl : h = u := by rw [hh] at hu; cases hu; rfl
  obtain ⟨hr, hn, -⟩ | ⟨rfl, -⟩ | ⟨rfl, -⟩ | ⟨-, hi, -⟩ | ⟨-, hi, -⟩ := hc
  · exact ⟨by rw [hr]; rfl, hn⟩
  · exact ⟨rfl, rfl⟩
  · exact ⟨rfl, rfl⟩
  · exact absurd hi hb
  · exact absurd hi hb

/-- Settles O10: in IDLE the sequencer's part is empty; while busy the access leaves registers that differ in the sticky
flags only, and the sequencer's part commutes with that. -/
theorem edgeCommitsBothPartsOfThePreEdgeState : Obligations.EdgeCommitsBothPartsOfThePreEdgeState := by
  intro s h q hrst hh hq
  obtain ⟨u, hu, -, he, -⟩ := hostPart_cases s
  obtain rfl : h = u := by rw [hh] at hu; cases hu; rfl
  obtain ⟨t, ht, -, -, hhost, -⟩ := sequencerPart_cases s.regs.state h (hostPart_state hh)
  refine ⟨t, by simp [clockEdge, hrst, hh, ht], hhost, ?_⟩
  by_cases hi : s.regs.state = .idle
  · rw [if_pos hi]
    rw [hi] at ht
    cases ht
    rfl
  · obtain ⟨hr, hn⟩ := hostPart_busy hi hh
    rw [if_neg hi]
    exact sequencerPart_withSticky hr he hn hq ht

/-! ## A step runs the decoded instructions (30_encoding.md R93, R97) -/

/-- The sequencer's part in a state that drives a request is the instruction its word decodes to. -/
theorem sequencerPart_of_busWord {st : SeqState} {w : BusReqWord} {i : Instr} (hw : busWord st = some w)
    (hi : decodeBusReq w = .ok i) (s : State) : sequencerPart st s = exec i s := by
  have hreq : requested st = some i := by simp only [requested, hw, hi]
  obtain ⟨rfl, -⟩ | ⟨rfl, -⟩ | ⟨rfl, -⟩ | ⟨rfl, -⟩ := busWord_cases hw
  all_goals simp only [sequencerPart, hreq]

/-- Settles O7: the host's part of the edge is `exec` of the decoded access, and the sequencer's part that of the driven
word. -/
theorem stepRunsTheDecodedInstructions : Obligations.StepRunsTheDecodedInstructions := by
  intro s s₁ t hrst haccess hseq
  have h₁ : hostPart s.beginCycle = .next s₁ := by
    obtain ⟨w, hw, he⟩ | ⟨hw, rfl⟩ := haccess
    · simp only [hostPart, hw, he]
    · simp only [hostPart, hw]
  refine step_run hrst h₁ ?_
  obtain ⟨w, i, hw, hi, he⟩ | ⟨hs, rfl⟩ | ⟨hs, rfl⟩ | ⟨hs | ⟨k, hs⟩, rfl⟩ := hseq
  · rw [sequencerPart_of_busWord hw hi, he]
  all_goals rw [hs]; rfl

/-! ## The access of a cycle and the command it writes (40_register_access.md R121) -/

/-- A cycle that writes the opcode of HANDSHAKE or READ_FRAME presents an access that starts a command. -/
theorem startsCommand_of_cmdWritten {s : State} {op : Byte} (h : cmdWritten s = some op)
    (hop : op = 0x01#8 ∨ op = 0x02#8) : ∃ w, s.hostWord = some w ∧ startsCommand w = true := by
  unfold cmdWritten at h
  split at h
  case h_2 => cases h
  case h_1 w hw =>
    split_ifs at h with hc
    cases h
    exact ⟨w, hw, by simpa [startsCommand, hc.1, hc.2] using hop⟩

theorem cmdWritten_of_wrCmd {s : State} {d : Word} (h : s.hostWord = some (hostAccWord true 0 d)) :
    cmdWritten s = some (opcodeOf d) := by
  simp [cmdWritten, h]

/-- In IDLE an access that changes more than BADCMD starts a command. -/
theorem AccessWrites.keeps_or_starts {s : State} {r : Regs} (h : AccessWrites s r) (hi : s.regs.state = .idle) :
    (r = { s.regs with badCmd := r.badCmd } ∧ (s.regs.badCmd = true → r.badCmd = true)) ∨
      ∃ w, s.beginCycle.hostWord = some w ∧ startsCommand w = true := by
  obtain hkept | ⟨-, hw⟩ | ⟨-, hw⟩ := h.of_idle hi
  · exact .inl hkept
  · exact .inr (startsCommand_of_cmdWritten hw (.inl rfl))
  · exact .inr (startsCommand_of_cmdWritten hw (.inr rfl))

/-- Settles O24: while busy the sticky flags are only set; in IDLE an access that starts no command keeps OVERRUN and the
state and can only set BADCMD. -/
theorem onlyAnAcceptClearsStickyFlags : Obligations.OnlyAnAcceptClearsStickyFlags := by
  intro s t hrst h hcleared
  cases step_writes h with
  | reset hrst' => rw [hrst] at hrst'; cases hrst'
  | busy b o _ hb hbad hover hq =>
    obtain ⟨ebad, eover⟩ := hq.sticky
    obtain ⟨h1, h0⟩ | ⟨h1, h0⟩ | ⟨hi, -⟩ := hcleared
    · cases h0.symm.trans (ebad.trans (hbad h1))
    · cases h0.symm.trans (eover.trans (hover h1))
    · exact absurd hi hb
  | idle _ hi ha =>
    obtain ⟨hr, hbad⟩ | hstart := ha.keeps_or_starts hi
    · obtain ⟨h1, h0⟩ | ⟨h1, h0⟩ | ⟨-, hne⟩ := hcleared
      · cases h0.symm.trans (hbad h1)
      · rw [hr, h1] at h0
        cases h0
      · rw [hr] at hne
        exact absurd hi hne
    · exact ⟨hi, hstart⟩

/-- Settles O26: an access that starts no command in IDLE keeps every register but BADCMD. -/
theorem idleWithoutAcceptKeepsTheResults : Obligations.IdleWithoutAcceptKeepsTheResults := by
  intro s t hrst hi hno h
  obtain hkept | ⟨w, hw, hstart⟩ := (step_writes_idle hrst hi h).keeps_or_starts hi
  · exact hkept
  · rw [hno w hw] at hstart
    cases hstart

/-- What the access does when it writes the opcode `op` to CMD. -/
theorem AccessWrites.of_written {s : State} {r : Regs} {op : Byte} (h : AccessWrites s r)
    (hw : cmdWritten s.beginCycle = some op) :
    (op = 0x01#8 → s.regs.state = .idle → r = (handshakeStart (s.mapRegs acceptCommon)).regs) ∧
    (op = 0x02#8 → s.regs.state = .idle → r = (readFrameStart (s.mapRegs acceptCommon)).regs) ∧
    (op = 0x01#8 ∨ op = 0x02#8 → s.regs.state ≠ .idle → r = setOverrun s.regs) ∧
    (3 ≤ op.toNat → r = setBadCmd s.regs) := by
  have hsame {op' : Byte} (hw' : cmdWritten s.beginCycle = some op') : op = op' := Option.some.inj (hw.symm.trans hw')
  cases h with
  | nothing _ hw' =>
    obtain hw' | hw' := hw'
    · rw [hw] at hw'
      cases hw'
    · obtain rfl := hsame hw'
      exact ⟨nofun, nofun, nofun, nofun⟩
  | overrun hr hb hw' =>
    refine ⟨fun _ hi => absurd hi hb, fun _ hi => absurd hi hb, fun _ _ => hr, fun h3 => ?_⟩
    obtain hw' | hw' := hw'
    all_goals
      obtain rfl := hsame hw'
      exact absurd h3 (by decide)
  | badCmd op' hr hw' h3 =>
    obtain rfl := hsame hw'
    refine ⟨?_, ?_, ?_, fun _ => hr⟩
    · rintro rfl
      exact absurd h3 (by decide)
    · rintro rfl
      exact absurd h3 (by decide)
    · rintro (rfl | rfl)
      all_goals exact absurd h3 (by decide)
  | handshake hi hr hw' =>
    obtain rfl := hsame hw'
    exact ⟨fun _ _ => hr, nofun, fun _ hb => absurd hi hb, fun h3 => absurd h3 (by decide)⟩
  | readFrame hi hr hw' =>
    obtain rfl := hsame hw'
    exact ⟨nofun, fun _ _ => hr, fun _ hb => absurd hi hb, fun h3 => absurd h3 (by decide)⟩

/-- A step outside reset: the access, then the sequencer. -/
theorem step_access_sequencer {s t : State} (hrst : s.pins.rst = false) (h : step s = .next t) :
    ∃ r, AccessWrites s r ∧ SequencerWrites s r t.regs := by
  obtain ⟨u, hu, -, -, ⟨hrst', -⟩ | ⟨-, r, w, ha, hq, -⟩⟩ := step_effect s
  · rw [hrst] at hrst'
    cases hrst'
  · obtain rfl : t = u := by rw [h] at hu; cases hu; rfl
    exact ⟨r, ha, hq⟩

/-- The last transaction of a command ends it with its success. -/
theorem SequencerWrites.of_last_success {s : State} {r r' : Regs} (h : SequencerWrites s r r')
    (hstate : r.state = s.regs.state) (hd : s.pins.busDone = true)
    (hs : s.regs.state = .hsW2 ∨ s.regs.state = .rfRead) : r'.state = .idle ∧ r'.done = true := by
  obtain ⟨-, hwait⟩ | ⟨-, -, hidle, hdone⟩ | ⟨hs', -⟩ | ⟨hs', -⟩ | ⟨hs', -⟩ | ⟨hs', -⟩ := h.state_cases hstate
  · have hreq : busReq s.regs.state = true := by
      obtain hs | hs := hs
      all_goals rw [hs]; rfl
    cases hd.symm.trans (hwait hreq)
  · exact ⟨hidle, hdone⟩
  all_goals simp [hs'] at hs

/-- Settles O25: the write is one of the four kinds of access, and the sequencer then keeps the sticky flags, writes
nothing in IDLE, and ends a command at its last completion. -/
theorem statusAfterACmdWrite : Obligations.StatusAfterACmdWrite := by
  intro s t d hrst hword h
  obtain ⟨r, ha, hq⟩ := step_access_sequencer hrst h
  obtain ⟨hhs, hrf, hbusy, hres⟩ := ha.of_written (cmdWritten_of_wrCmd hword)
  refine ⟨fun hd hi => ?_, fun hd hi => ?_, fun hd hb => ?_, fun hd => ?_⟩
  · rw [hq.of_idle hi, hhs (opcodeOf_eq hd) hi]
    exact ⟨rfl, rfl, rfl⟩
  · rw [hq.of_idle hi, hrf (opcodeOf_eq hd) hi]
    exact ⟨rfl, rfl, rfl⟩
  · have hr := hbusy (hd.imp opcodeOf_eq opcodeOf_eq) hb
    refine ⟨by rw [hq.sticky.2, hr]; rfl, fun hdone hk hreq => ?_, fun hdone _ hs => ?_⟩
    · obtain ⟨op, hfail, -⟩ := hq.of_failure hreq hdone hk
      rw [hfail]
      exact ⟨rfl, rfl⟩
    · exact hq.of_last_success (by rw [hr]; rfl) hdone hs
  · rw [hq.sticky.1, hres (by rw [opcodeOf_toNat]; exact hd)]
    rfl

/-! ## Reset (70_reset_and_hazards.md R280) -/

/-- The host's temporary after the reset cycle's access: a read's word, else what it was. -/
theorem resetRead_t (s : State) :
    (∀ w, s.hostWord = some w → hostAccWe w = false → (resetRead s).host.t = readWord s.regs (hostAccAddr w)) ∧
    (s.hostWord = none ∨ (∃ w, s.hostWord = some w ∧ hostAccWe w = true) → (resetRead s).host.t = s.host.t) := by
  refine ⟨fun w hw hr => ?_, ?_⟩
  · simp [resetRead, hw, hr, hostRead]
  · rintro (hw | ⟨w, hw, hwe⟩)
    · simp [resetRead, hw]
    · simp [resetRead, hw, hwe]

/-- Settles O35: the reset edge by `step_effect`, its words by their values at reset, and the temporary by the access
alone. -/
theorem resetEdgeFromAnyState : Obligations.ResetEdgeFromAnyState := by
  intro s hrst
  obtain ⟨t, h, -, -, ⟨-, hr, hhost⟩ | ⟨hrst', -⟩⟩ := step_effect s
  · obtain ⟨hread, hnoRead⟩ := resetRead_t s.beginCycle
    have ht : t.host.t = (resetRead s.beginCycle).host.t := by rw [hhost, HostAgent.endCycle_t]
    refine ⟨t, h, hr, by rw [hr]; exact busWord_of_noRequest rfl, fun a => by rw [hr]; exact readWord_reset _ a,
      fun w hw hwe => ht.trans (hread w hw hwe), fun hno => ht.trans ((hnoRead hno).trans ?_)⟩
    rw [State.beginCycle_host, HostAgent.beginCycle_t]
  · rw [hrst] at hrst'
    cases hrst'

end Sys2Proof.Machine
end


section
/-! PROOFS of the statements of 41_handshake.md, 42_frame_reader.md and 20_memory.md on runs of several cycles: the
settle states, the waits for the transport, and the two commands from their accept edge to their end. -/

namespace Sys2Proof.Machine

/-! ## The states of a run -/

/-- The state a run is in after `k` cycles: it has the run's clock and that cycle's inputs. -/
theorem steps_inputs {s t : State} {k : Nat} (h : steps k s = some t) :
    t.clock = s.clock ∧ ∀ j, t.cycleAt j = s.cycleAt (k + j) := by
  obtain ⟨u, hu, hc, hj⟩ := steps_exists k s
  obtain rfl : t = u := Option.some.inj (h.symm.trans hu)
  exact ⟨hc, hj⟩

theorem steps_pins {s t : State} {k : Nat} (h : steps k s = some t) : t.pins = (s.cycleAt k).pins := by
  rw [State.pins, ← State.cycleAt_zero, (steps_inputs h).2, Nat.add_zero]

theorem steps_snoc {s t u : State} {k : Nat} (h : steps k s = some t) (hu : step t = .next u) :
    steps (k + 1) s = some u := by
  rw [steps_add h, steps_succ hu]
  rfl

/-! ## Waiting for the transport (20_memory.md R71) -/

/-- Without a completion the sequencer of a bus state writes nothing. -/
theorem SequencerWrites.of_waiting {s : State} {r r' : Regs} (h : SequencerWrites s r r')
    (hreq : busReq s.regs.state = true) (hd : s.pins.busDone = false) : r' = r := by
  cases h with
  | nothing hr => exact hr
  | settle1 hs | settle2 hs =>
    rw [hs] at hreq
    cases hreq
  | hsW1 _ hd' | hsW2 _ hd' | rfAddr _ hd' | rfRead _ hd' | error _ hd' => cases hd.symm.trans hd'

theorem steps_wait (n : Nat) (s : State) (hreq : busReq s.regs.state = true)
    (hcycle : ∀ k, k < n → (s.cycleAt k).pins.rst = false ∧ (s.cycleAt k).pins.busDone = false) :
    ∃ t b o, steps n s = some t ∧ t.regs = { s.regs with badCmd := b, overrun := o } := by
  induction n with
  | zero => exact ⟨s, _, _, rfl, rfl⟩
  | succ n ih =>
    obtain ⟨t, b, o, ht, hr⟩ := ih fun k hk => hcycle k (by omega)
    obtain ⟨hrst, hd⟩ := hcycle n (by omega)
    rw [← steps_pins ht] at hrst hd
    have hreq' : busReq t.regs.state = true := by rw [hr]; exact hreq
    obtain ⟨u, b', o', hu, -, -, hq⟩ := step_busy hrst (ne_idle_of_busReq hreq')
    exact ⟨u, b', o', steps_snoc ht hu, by rw [hq.of_waiting hreq' hd, hr]⟩

/-- Settles O52: by induction on the number of cycles; in each the sequencer waits and the access sets a sticky flag at
most. -/
theorem busStateWaitsWithoutLimit : Obligations.BusStateWaitsWithoutLimit := by
  intro n s hreq hcycle
  obtain ⟨t, b, o, ht, hr⟩ := steps_wait n s hreq hcycle
  exact ⟨t, ht, by rw [hr]⟩

/-! ## Counting a settle delay (42_frame_reader.md R162, R164) -/

/-- The settle states and the states they lead to. -/
inductive SettlesTo : SeqState → SeqState → Prop
  | first : SettlesTo .rfSettle1 .rfAddr
  | second : SettlesTo .rfSettle2 .rfRead

/-- What a command leaves to its end edge: DONE, ERR, FRAME_VALID, HS_OK and FRAME. -/
def Regs.results (r : Regs) : Bool × Bool × Bool × Bool × Frame := (r.done, r.err, r.frameValid, r.hsOk, r.frame)

theorem settleStep_results (after : SeqState) (r : Regs) : (settleStep after r).results = r.results := by
  simp [Regs.results]

theorem SequencerWrites.of_settle {st after : SeqState} (hst : SettlesTo st after) {s : State} {r r' : Regs}
    (hs : s.regs.state = st) (h : SequencerWrites s r r') : r' = settleStep after r := by
  cases h with
  | settle1 hs' hr =>
    cases hst with
    | first => exact hr
    | second => cases hs.symm.trans hs'
  | settle2 hs' hr =>
    cases hst with
    | first => cases hs.symm.trans hs'
    | second => exact hr
  | nothing _ hs' => cases hst <;> simp [hs, busReq] at hs'
  | error _ _ _ _ hs' => cases hst <;> simp [hs] at hs'
  | hsW1 hs' | hsW2 hs' | rfAddr hs' | rfRead hs' => cases hst <;> cases hs.symm.trans hs'

/-- One cycle of a settle state: the counter counts down, or at 0 the state is left; the results stay. -/
theorem step_settle {st after : SeqState} (hst : SettlesTo st after) {s : State} (hs : s.regs.state = st)
    (hrst : s.pins.rst = false) :
    ∃ t, step s = .next t ∧ t.regs.results = s.regs.results ∧
      (s.regs.cnt.toNat = 0 → t.regs.state = after) ∧
      (s.regs.cnt.toNat ≠ 0 → t.regs.state = st ∧ t.regs.cnt.toNat = s.regs.cnt.toNat - 1) := by
  have hb : s.regs.state ≠ .idle := by
    rw [hs]
    cases hst <;> decide
  obtain ⟨t, b, o, h, -, -, hq⟩ := step_busy hrst hb
  have hr : t.regs = settleStep after (s.regs.withSticky b o) := hq.of_settle hst hs
  refine ⟨t, h, by rw [hr, settleStep_results]; rfl, fun h0 => ?_, fun h0 => ?_⟩
  · rw [hr, settleStep_of_zero (by exact h0)]
  · rw [hr, settleStep_of_pos (by exact h0)]
    exact ⟨hs, SettleCounter.countDown_toNat h0⟩

theorem steps_settle {st after : SeqState} (hst : SettlesTo st after) (n : Nat) (s : State) (hs : s.regs.state = st)
    (hcnt : s.regs.cnt.toNat = n) (hrst : ∀ k, k ≤ n → (s.cycleAt k).pins.rst = false) :
    (∀ k, k ≤ n → ∃ t, steps k s = some t ∧ t.regs.state = st ∧ t.regs.cnt.toNat = n - k ∧
      t.regs.results = s.regs.results) ∧
    ∃ t, steps (n + 1) s = some t ∧ t.regs.state = after ∧ t.regs.results = s.regs.results := by
  have hwithin (k : Nat) (hk : k ≤ n) : ∃ t, steps k s = some t ∧ t.regs.state = st ∧ t.regs.cnt.toNat = n - k ∧
      t.regs.results = s.regs.results := by
    induction k with
    | zero => exact ⟨s, rfl, hs, hcnt, rfl⟩
    | succ k ih =>
      obtain ⟨t, ht, hts, htc, htr⟩ := ih (by omega)
      obtain ⟨u, hu, hur, -, hpos⟩ := step_settle hst hts (by rw [steps_pins ht]; exact hrst k (by omega))
      obtain ⟨hus, huc⟩ := hpos (by omega)
      exact ⟨u, steps_snoc ht hu, hus, by omega, hur.trans htr⟩
  refine ⟨hwithin, ?_⟩
  obtain ⟨t, ht, hts, htc, htr⟩ := hwithin n le_rfl
  obtain ⟨u, hu, hur, hzero, -⟩ := step_settle hst hts (by rw [steps_pins ht]; exact hrst n le_rfl)
  exact ⟨u, steps_snoc ht hu, hzero (by omega), hur.trans htr⟩

/-- Settles O51: by induction on the cycle; the counter says how many are left. -/
theorem settleStateLastsExactlyItsDelay : Obligations.SettleStateLastsExactlyItsDelay := by
  have hstays {st after : SeqState} (hst : SettlesTo st after) (n : Nat) (s : State) (hcnt : s.regs.cnt.toNat = n)
      (hrst : ∀ k, k ≤ n → (s.cycleAt k).pins.rst = false) (hs : s.regs.state = st) :
      (∀ k, k ≤ n → ∃ t, steps k s = some t ∧ t.regs.state = st ∧ t.regs.cnt.toNat = n - k) ∧
        ∃ t, steps (n + 1) s = some t ∧ t.regs.state = after := by
    obtain ⟨hwithin, t, ht, hts, -⟩ := steps_settle hst n s hs hcnt hrst
    refine ⟨fun k hk => ?_, t, ht, hts⟩
    obtain ⟨t, ht, hts, htc, -⟩ := hwithin k hk
    exact ⟨t, ht, hts, htc⟩
  exact fun n s hcnt hrst => ⟨hstays .first n s hcnt hrst, hstays .second n s hcnt hrst⟩

/-! ## The phases of a command's run

Each phase begins in the state `v` that the run from `s` is in after `m` cycles. -/

/-- ERR_OP of the transaction a state requests (60_exceptions.md R251). -/
def failureOp : SeqState → BitVec 4
  | .hsW1 => 1
  | .hsW2 => 2
  | .rfAddr => 3
  | .rfRead => 4
  | .idle | .rfSettle1 | .rfSettle2 | .reserved _ => 0

section
variable {s v : State} {m N : Nat} (hv : steps m s = some v) (hreq : busReq v.regs.state = true)
  (hrst : ∀ k, k ≤ N → (s.cycleAt k).pins.rst = false)
  (hwait : ∀ k, m ≤ k → k < N → (s.cycleAt k).pins.busDone = false)
include hv hreq hrst hwait

/-- A bus phase: the state is held through the waits, to the cycle `N` of the completion. -/
theorem bus_phase (k : Nat) (hm : m ≤ k) (hN : k ≤ N) :
    ∃ t b o, steps k s = some t ∧ t.regs = { v.regs with badCmd := b, overrun := o } := by
  obtain ⟨n, rfl⟩ := Nat.exists_eq_add_of_le hm
  obtain ⟨t, b, o, ht, hr⟩ := steps_wait n v hreq fun j hj => by
    rw [(steps_inputs hv).2]
    exact ⟨hrst _ (by omega), hwait _ (by omega) (by omega)⟩
  exact ⟨t, b, o, by rw [steps_add hv, ht], hr⟩

/-- A bus phase that ends in a failure: the error completion (60_exceptions.md R252). -/
theorem bus_phase_failure (hmN : m ≤ N) (hd : (s.cycleAt N).pins.busDone = true) (hk : (s.cycleAt N).pins.bus.ok = false) :
    ∃ t b o, steps (N + 1) s = some t ∧ t.regs =
      raiseTransportError (failureOp v.regs.state) (s.cycleAt N).pins.bus.err
        { v.regs with badCmd := b, overrun := o } := by
  obtain ⟨u, b, o, hu, hr⟩ := bus_phase hv hreq hrst hwait N hmN le_rfl
  have hs : u.regs.state = v.regs.state := by rw [hr]
  rw [← steps_pins hu] at hd hk ⊢
  obtain ⟨t, op, b', o', ht, hr', hop, -⟩ :=
    step_failure (s := u) (by rw [steps_pins hu]; exact hrst N le_rfl) (by rw [hs]; exact hreq) hd hk
  have hop' : op = failureOp v.regs.state := by
    obtain ⟨hs', rfl⟩ | ⟨hs', rfl⟩ | ⟨hs', rfl⟩ | ⟨hs', rfl⟩ := hop
    all_goals rw [← hs, hs']; rfl
  rw [hr, hop'] at hr'
  exact ⟨t, b', o', steps_snoc hu ht, hr'⟩

/-- A bus phase that ends in a success, by the state it was in. -/
theorem bus_phase_success (hmN : m ≤ N) (hd : (s.cycleAt N).pins.busDone = true) (hk : (s.cycleAt N).pins.bus.ok = true) :
    ∃ t b o, steps (N + 1) s = some t ∧
      (v.regs.state = .hsW1 → t.regs = { v.regs with badCmd := b, overrun := o, state := .hsW2 }) ∧
      (v.regs.state = .hsW2 → t.regs = completeHandshake { v.regs with badCmd := b, overrun := o }) ∧
      (v.regs.state = .rfAddr → ∃ c : SettleCounter,
        (∀ n, (s.cycleAt N).pins.draw = some n → tMin s.clock ≤ n → n ≤ tMax s.clock → c.toNat + 1 = n) ∧
        t.regs = { v.regs with badCmd := b, overrun := o, cnt := c, state := .rfSettle2 }) ∧
      (v.regs.state = .rfRead → t.regs =
        completeReadFrame (s.cycleAt N).pins.bus.rdata { v.regs with badCmd := b, overrun := o }) := by
  obtain ⟨u, b, o, hu, hr⟩ := bus_phase hv hreq hrst hwait N hmN le_rfl
  have hs : u.regs.state = v.regs.state := by rw [hr]
  have hclock := (steps_inputs hu).1
  rw [← steps_pins hu] at hd hk ⊢
  rw [← hs] at hreq ⊢
  obtain ⟨t, b', o', ht, -, -, hq⟩ :=
    step_busy (s := u) (by rw [steps_pins hu]; exact hrst N le_rfl) (ne_idle_of_busReq hreq)
  refine ⟨t, b', o', steps_snoc hu ht, ?_⟩
  cases hq with
  | nothing _ hs' =>
    obtain hs' | ⟨i, hs'⟩ | ⟨-, hd'⟩ := hs'
    · exact absurd hs' (ne_idle_of_busReq hreq)
    · rw [hs'] at hreq
      cases hreq
    · cases hd.symm.trans hd'
  | settle1 hs' | settle2 hs' =>
    rw [hs'] at hreq
    cases hreq
  | error _ _ hk' => cases hk.symm.trans hk'
  | hsW1 hs' _ _ hr' =>
    rw [hs']
    exact ⟨fun _ => by rw [hr', hr], nofun, nofun, nofun⟩
  | hsW2 hs' _ _ hr' =>
    rw [hs']
    exact ⟨nofun, fun _ => by rw [hr', hr], nofun, nofun⟩
  | rfAddr hs' _ _ hr' =>
    rw [hs']
    refine ⟨nofun, nofun, fun _ => ⟨_, fun n hn hmin hmax => ?_, by rw [hr', hr]⟩, nofun⟩
    have hdraw := drawDelay_of_scheduled (s := u) hn (by rw [hclock]; exact hmin) (by rw [hclock]; exact hmax)
    rw [← hdraw]
    exact load_drawDelay_toNat (by rw [← hr])
  | rfRead hs' _ _ hr' =>
    rw [hs']
    exact ⟨nofun, nofun, nofun, fun _ => by rw [hr', hr]⟩

end

/-- A settle phase: `d` cycles from the one it was entered with, then the state it leads to. -/
theorem settle_phase {st after : SeqState} (hst : SettlesTo st after) {s v : State} {m N d : Nat}
    (hv : steps m s = some v) (hs : v.regs.state = st) (hcnt : v.regs.cnt.toNat + 1 = d) (hN : N = m + d)
    (hrst : ∀ k, k < N → (s.cycleAt k).pins.rst = false) :
    (∀ k, m ≤ k → k < N → ∃ t, steps k s = some t ∧ t.regs.state = st ∧ t.regs.results = v.regs.results) ∧
    ∃ t, steps N s = some t ∧ t.regs.state = after ∧ t.regs.results = v.regs.results := by
  subst hN hcnt
  obtain ⟨hwithin, t, ht, hts, htr⟩ := steps_settle hst _ v hs rfl fun k hk => by
    rw [(steps_inputs hv).2]
    exact hrst _ (by omega)
  refine ⟨fun k hm hk => ?_, t, by rw [steps_add hv, ht], hts, htr⟩
  obtain ⟨n, rfl⟩ := Nat.exists_eq_add_of_le hm
  obtain ⟨t, ht, hts, -, htr⟩ := hwithin n (by omega)
  exact ⟨t, by rw [steps_add hv, ht], hts, htr⟩

/-! ## HANDSHAKE (41_handshake.md R146 to R149) -/

/-- The accept edge of either command (40_register_access.md R122). -/
theorem steps_accept {s : State} {d : Word} (hrst : s.pins.rst = false) (hi : s.regs.state = .idle)
    (hword : s.beginCycle.hostWord = some (hostAccWord true 0 d)) :
    ∃ v, steps 1 s = some v ∧
      (d.toNat % 256 = 1 → v.regs = (handshakeStart (s.mapRegs acceptCommon)).regs) ∧
      (d.toNat % 256 = 2 → v.regs = (readFrameStart (s.mapRegs acceptCommon)).regs) := by
  obtain ⟨v, hv, -⟩ := step_effect s
  obtain ⟨hhs, hrf, -⟩ := (step_writes_idle hrst hi hv).of_written (cmdWritten_of_wrCmd hword)
  exact ⟨v, steps_snoc (k := 0) rfl hv, fun hd => hhs (opcodeOf_eq hd) hi, fun hd => hrf (opcodeOf_eq hd) hi⟩

/-- Settles O53: the accept, a bus phase in HS_W1, and, if it succeeds, one in HS_W2. -/
theorem handshakeDuration : Obligations.HandshakeDuration := by
  intro s L1 d hL1 hi hword hd hrst hwait1 hdone1
  obtain ⟨v, hv, hstart, -⟩ := steps_accept (by rw [State.pins, ← State.cycleAt_zero]; exact hrst 0 (by omega)) hi hword
  have hvr := hstart hd
  have hvreq : busReq v.regs.state = true := by rw [hvr]; rfl
  refine ⟨fun k h1 hk => ?_, fun hfail => ?_, fun hok1 L2 hL2 hrst2 hwait2 hdone2 => ?_⟩
  · obtain ⟨t, b, o, ht, hr⟩ := bus_phase hv hvreq hrst hwait1 k h1 hk
    rw [hvr] at hr
    exact ⟨t, ht, by rw [hr]; rfl, by rw [hr]; rfl⟩
  · obtain ⟨t, b, o, ht, hr⟩ := bus_phase_failure hv hvreq hrst hwait1 hL1 hdone1 hfail
    rw [hvr] at hr
    exact ⟨t, ht, by rw [hr]; exact ⟨rfl, rfl, rfl, rfl, rfl, rfl⟩⟩
  · obtain ⟨w, b, o, hw, hsuccess, -⟩ := bus_phase_success hv hvreq hrst hwait1 hL1 hdone1 hok1
    have hwr := hsuccess (by rw [hvr]; rfl)
    rw [hvr] at hwr
    have hwreq : busReq w.regs.state = true := by rw [hwr]; rfl
    refine ⟨fun k h1 hk => ?_, ?_⟩
    · obtain ⟨t, b, o, ht, hr⟩ := bus_phase hw hwreq hrst2 hwait2 k h1 hk
      rw [hwr] at hr
      exact ⟨t, ht, by rw [hr], by rw [hr]; rfl⟩
    · rcases hok2 : (s.cycleAt (L1 + L2)).pins.bus.ok with _ | _
      · obtain ⟨t, b, o, ht, hr⟩ := bus_phase_failure hw hwreq hrst2 hwait2 (by omega) hdone2 hok2
        rw [hwr] at hr
        exact ⟨t, ht, by rw [hr]; exact ⟨rfl, rfl, nofun, fun _ => ⟨rfl, rfl, rfl, rfl⟩⟩⟩
      · obtain ⟨t, b, o, ht, -, hsuccess, -⟩ := bus_phase_success hw hwreq hrst2 hwait2 (by omega) hdone2 hok2
        have hr := hsuccess (by rw [hwr])
        rw [hwr] at hr
        exact ⟨t, ht, by rw [hr]; exact ⟨rfl, rfl, fun _ => ⟨rfl, rfl⟩, nofun⟩⟩

/-! ## READ_FRAME (42_frame_reader.md R171, R173) -/

/-- A running READ_FRAME: no result yet, with HS_OK and FRAME as the accept edge found them. -/
def Regs.Reading (s : State) (r : Regs) : Prop := r.results = (false, false, false, s.regs.hsOk, s.regs.frame)

theorem Regs.Reading.fields {s : State} {r : Regs} (h : r.Reading s) :
    r.done = false ∧ r.err = false ∧ r.frameValid = false ∧ r.hsOk = s.regs.hsOk ∧ r.frame = s.regs.frame := by
  simpa [Regs.Reading, Regs.results] using h

/-- Settles O54: the accept, a settle phase of the first draw, a bus phase in RF_ADDR, and, if it succeeds, a settle
phase of the second draw and a bus phase in RF_READ. -/
theorem readFrameOrderAndDuration : Obligations.ReadFrameOrderAndDuration := by
  intro s d1 L3 d hL3 hmin1 hmax1 hi hword hd hrst hdraw1 hwait3 hdone3
  obtain ⟨v, hv, -, hstart⟩ := steps_accept (by rw [State.pins, ← State.cycleAt_zero]; exact hrst 0 (by omega)) hi hword
  have hvr := hstart hd
  have hvreading : v.regs.Reading s := by rw [hvr]; rfl
  have hvcnt : v.regs.cnt.toNat + 1 = d1 := by
    rw [hvr, readFrameStart, enterSettle_cnt]
    exact drawDelay_of_scheduled (s := s.mapRegs acceptCommon) (by rw [State.cycleAt_zero] at hdraw1; exact hdraw1)
      hmin1 hmax1
  obtain ⟨hsettle1, a, ha, has, har⟩ := settle_phase .first hv (by rw [hvr]; rfl) hvcnt (N := d1 + 1) (by omega)
    fun k hk => hrst k (by omega)
  have hareq : busReq a.regs.state = true := by rw [has]; rfl
  have hareading : a.regs.Reading s := har.trans hvreading
  obtain ⟨ha1, ha2, ha3, ha4, ha5⟩ := hareading.fields
  refine ⟨fun k h1 hk => ?settle1, fun k h1 hk => ?addr, fun hfail => ?failure3, fun hok3 => ?success3⟩
  case settle1 =>
    obtain ⟨t, ht, hts, htr⟩ := hsettle1 k h1 (by omega)
    exact ⟨t, ht, hts, (Regs.Reading.fields (htr.trans hvreading)).1⟩
  case addr =>
    obtain ⟨t, b, o, ht, hr⟩ := bus_phase ha hareq hrst hwait3 k h1 hk
    exact ⟨t, ht, by rw [hr]; exact has, by rw [hr]; exact ha1⟩
  case failure3 =>
    obtain ⟨t, b, o, ht, hr⟩ := bus_phase_failure ha hareq hrst hwait3 (by omega) hdone3 hfail
    rw [has] at hr
    exact ⟨t, ht, by rw [hr]; exact ⟨rfl, rfl, rfl, rfl, rfl, ha3, ha5, ha4⟩⟩
  case success3 =>
    intro d2 L4 hL4 hmin2 hmax2 hrst' hdraw2 hwait4 hdone4
    obtain ⟨w, b, o, hw, -, -, hsuccess, -⟩ := bus_phase_success ha hareq hrst hwait3 (by omega) hdone3 hok3
    obtain ⟨c, hc, hwr⟩ := hsuccess has
    have hwreading : w.regs.Reading s := by rw [hwr]; exact hareading
    have hwcnt : w.regs.cnt.toNat + 1 = d2 := by rw [hwr]; exact hc d2 hdraw2 hmin2 hmax2
    obtain ⟨hsettle2, z, hz, hzs, hzr⟩ := settle_phase .second hw (by rw [hwr]) hwcnt (N := d1 + L3 + d2 + 1) (by omega)
      fun k hk => hrst' k (by omega)
    have hzreq : busReq z.regs.state = true := by rw [hzs]; rfl
    obtain ⟨hz1, hz2, hz3, hz4, hz5⟩ := Regs.Reading.fields (hzr.trans hwreading)
    refine ⟨fun k h1 hk => ?settle2, fun k h1 hk => ?read, ?finish⟩
    case settle2 =>
      obtain ⟨t, ht, hts, htr⟩ := hsettle2 k h1 (by omega)
      exact ⟨t, ht, hts, (Regs.Reading.fields (htr.trans hwreading)).1⟩
    case read =>
      obtain ⟨t, b, o, ht, hr⟩ := bus_phase hz hzreq hrst' hwait4 k h1 hk
      exact ⟨t, ht, by rw [hr]; exact hzs, by rw [hr]; exact hz1⟩
    case finish =>
      rcases hok4 : (s.cycleAt (d1 + L3 + d2 + L4)).pins.bus.ok with _ | _
      · obtain ⟨t, b, o, ht, hr⟩ := bus_phase_failure hz hzreq hrst' hwait4 (by omega) hdone4 hok4
        rw [hzs] at hr
        exact ⟨t, ht, by rw [hr]; exact ⟨rfl, rfl, hz4, nofun, fun _ => ⟨rfl, rfl, rfl, hz3, hz5⟩⟩⟩
      · obtain ⟨t, b, o, ht, -, -, -, hsuccess⟩ := bus_phase_success hz hzreq hrst' hwait4 (by omega) hdone4 hok4
        exact ⟨t, ht, by rw [hsuccess hzs]; exact ⟨rfl, rfl, hz4, fun _ => ⟨hz2, rfl, rfl⟩, nofun⟩⟩

end Sys2Proof.Machine
end


section
/-! PROOFS of the statements of 44_host_protocol.md on a poll and an attach in flight: what the host does between two
accesses of its two scripts, and the polls and attaches that end well or badly. -/

namespace Sys2Proof.Machine

/-! ## The fields of the words a script reads (10_state.md R41, R42, R45, R47) -/

theorem getLsbD_of_toNat {n i : Nat} {x : BitVec n} {b : Bool} (h : x.toNat / 2 ^ i % 2 = b.toNat) :
    x.getLsbD i = b := by
  rw [BitVec.getLsbD, Nat.testBit_eq_decide_div_mod_eq, h]
  cases b <;> rfl

section
variable (r : Regs)

/-- The fields of STATUS that a script tests or takes. -/
theorem statusWord_fields :
    (statusWord r).getLsbD 1 = r.done ∧ (statusWord r).getLsbD 2 = r.err ∧ (statusWord r).getLsbD 4 = r.hsOk ∧
      (statusWord r).extractLsb' 8 4 = r.errOp := by
  have hw := statusWord_toNat r
  rw [← busy_toNat] at hw
  have hop := r.errOp.isLt
  have h0 := (busy r).toNat_le
  have h1 := r.done.toNat_le
  have h2 := r.err.toNat_le
  have h3 := r.frameValid.toNat_le
  have h4 := r.hsOk.toNat_le
  have h5 := r.badCmd.toNat_le
  have h6 := r.overrun.toNat_le
  refine ⟨getLsbD_of_toNat ?_, getLsbD_of_toNat ?_, getLsbD_of_toNat ?_, BitVec.eq_of_toNat_eq ?_⟩
  · omega
  · omega
  · omega
  · rw [toNat_extractLsb_div]
    omega

theorem statusWord_done : (statusWord r).getLsbD 1 = r.done := (statusWord_fields r).1
theorem statusWord_err : (statusWord r).getLsbD 2 = r.err := (statusWord_fields r).2.1
theorem statusWord_hsOk : (statusWord r).getLsbD 4 = r.hsOk := (statusWord_fields r).2.2.1
theorem statusWord_errOp : (statusWord r).extractLsb' 8 4 = r.errOp := (statusWord_fields r).2.2.2

theorem errcodeWord_code : (errcodeWord r).extractLsb' 0 16 = r.errCode := by
  apply BitVec.eq_of_toNat_eq
  have h := r.errCode.isLt
  rw [toNat_extractLsb_div, errcodeWord_toNat]
  omega

theorem joyWord_x : (joyWord r).extractLsb' 0 8 = decX r.frame := by
  apply BitVec.eq_of_toNat_eq
  have h := (decX r.frame).isLt
  rw [toNat_extractLsb_div, joyWord_toNat]
  show _ = (frameByte r.frame 0).toNat
  omega

theorem joyWord_y : (joyWord r).extractLsb' 8 8 = decY r.frame := by
  apply BitVec.eq_of_toNat_eq
  have hx := (frameByte r.frame 0).isLt
  have hy := (frameByte r.frame 1).isLt
  rw [toNat_extractLsb_div, joyWord_toNat]
  show _ = (frameByte r.frame 1).toNat
  omega

theorem btnWord_fields :
    (btnWord r).getLsbD 0 = decZPressed r.frame ∧ (btnWord r).getLsbD 1 = decCPressed r.frame := by
  have hw := btnWord_toNat r
  have hz := (decZPressed r.frame).toNat_le
  have hc := (decCPressed r.frame).toNat_le
  exact ⟨getLsbD_of_toNat (by omega), getLsbD_of_toNat (by omega)⟩

theorem btnWord_z : (btnWord r).getLsbD 0 = decZPressed r.frame := (btnWord_fields r).1
theorem btnWord_c : (btnWord r).getLsbD 1 = decCPressed r.frame := (btnWord_fields r).2

end

namespace HostAgent

/-! ## Single control lines (30_encoding.md R103) -/

section
variable (c : Calls) {h : HostAgent} {n : Nat}

theorem control_act {a : HostAct} (hl : h.script[h.pos]? = some (.act a)) :
    h.control c (n + 1) = control c n (perform c a { h with pos := h.pos + 1 }) := by
  rw [control, hl]

theorem control_gotoIfBit_taken {i : Fin 32} {v : Bool} {l : Nat} (hl : h.script[h.pos]? = some (.gotoIfBit i v l))
    (ht : h.t.getLsbD i = v) : h.control c (n + 1) = control c n { h with pos := h.target l } := by
  rw [control, hl]
  exact congrArg _ (if_pos ht)

theorem control_gotoIfBit_passed {i : Fin 32} {v : Bool} {l : Nat} (hl : h.script[h.pos]? = some (.gotoIfBit i v l))
    (ht : h.t.getLsbD i ≠ v) : h.control c (n + 1) = control c n { h with pos := h.pos + 1 } := by
  rw [control, hl]
  exact congrArg _ (if_neg ht)

theorem perform_verify (h : HostAgent) (hl : h.life = .handshaking) :
    h.perform c .verify = { h with life := .verifying } := if_pos hl

theorem perform_register (h : HostAgent) (hl : h.life = .verifying) :
    (c.registerOk = true → h.perform c .register =
      { h with life := .registered, timerArmed := true, sinceTick := 0, axes := some axisConfig }) ∧
    (c.registerOk = false → h.perform c .register = h.failAttach .registration) := by
  simp +contextual [perform, hl]

theorem perform_abort (h : HostAgent) (hl : h.life = .handshaking ∨ h.life = .verifying) :
    h.perform c .abort = h.failAttach h.transportError := if_pos hl

end

/-- A host at a line of a script, with the line's script and position in place. -/
theorem at_line {h : HostAgent} {l : List Line} {k : Nat} (hscript : h.script = l) (hpos : h.pos = k) :
    h = { h with script := l, pos := k } := by
  rw [← hscript, ← hpos]

/-- The host with ERR_OP taken from the STATUS word in its temporary. -/
def tookStatus (h : HostAgent) : HostAgent := { h with seen := { h.seen with errOp := h.t.extractLsb' 8 4 } }

/-- After the STATUS read of either script: ERR_OP is taken and ERR is tested. -/
theorem control_checkStatus (c : Calls) {h : HostAgent} (n : Nat)
    (h₁ : h.script[h.pos]? = some (.act .takeStatus))
    (h₂ : h.script[h.pos + 1]? = some (.gotoIfBit 2 true failLabel)) :
    (h.t.getLsbD 2 = false → h.control c (n + 2) = control c n { h.tookStatus with pos := h.pos + 2 }) ∧
    (h.t.getLsbD 2 = true → h.control c (n + 2) = control c n { h.tookStatus with pos := h.target failLabel }) := by
  have htake : h.control c (n + 2) = control c (n + 1) { h.tookStatus with pos := h.pos + 1 } := control_act c h₁
  refine ⟨fun he => ?_, fun he => ?_⟩
  · have ht : ({ h.tookStatus with pos := h.pos + 1 } : HostAgent).t.getLsbD 2 ≠ true := by
      show h.t.getLsbD 2 ≠ true
      rw [he]
      exact Bool.false_ne_true
    exact htake.trans (control_gotoIfBit_passed c h₂ ht)
  · exact htake.trans (control_gotoIfBit_taken c h₂ he)

/-! ## Control lines of the two scripts (44_host_protocol.md R222, R227, R228) -/

section
variable (c : Calls) {h : HostAgent}

theorem poll_after_status (hscript : h.script = pollScript) (hpos : h.pos = 4) :
    (h.t.getLsbD 2 = false → h.advance.runControl c = { h.tookStatus with pos := 7 }) ∧
    (h.t.getLsbD 2 = true → h.advance.runControl c = { h.tookStatus with pos := 14 }) := by
  rw [at_line hscript hpos]
  exact control_checkStatus c (h := { h with script := pollScript, pos := 5 }) 15 rfl rfl

theorem poll_after_joy (hscript : h.script = pollScript) (hpos : h.pos = 7) :
    h.advance.runControl c =
      { h with pos := 9, seen := { h.seen with x := h.t.extractLsb' 0 8, y := h.t.extractLsb' 8 8 } } := by
  rw [at_line hscript hpos]
  rfl

theorem poll_after_btn (hscript : h.script = pollScript) (hpos : h.pos = 9) :
    h.advance.runControl c =
      { h with
        pos := 17
        seen := { h.seen with z := h.t.getLsbD 0, c := h.t.getLsbD 1 }
        published := h.published ++ events { h.seen with z := h.t.getLsbD 0, c := h.t.getLsbD 1 } } := by
  rw [at_line hscript hpos]
  rfl

theorem poll_after_errcode (hscript : h.script = pollScript) (hpos : h.pos = 14) :
    h.advance.runControl c = { h with pos := 17, logged := h.logged ++ [.failedPoll h.transportError] } := by
  rw [at_line hscript hpos]
  rfl

/-- The STATUS read after the handshake (R227). -/
theorem attach_after_handshake (hscript : h.script = attachScript) (hpos : h.pos = 4) (hlife : h.life = .handshaking) :
    (h.t.getLsbD 2 = false → h.t.getLsbD 4 = true →
      h.advance.runControl c = { h.tookStatus with pos := 9, life := .verifying }) ∧
    (h.t.getLsbD 2 = true → h.advance.runControl c = { h.tookStatus with pos := 26 }) := by
  rw [at_line hscript hpos]
  have hcheck := control_checkStatus c (h := { h with script := attachScript, pos := 5 }) 27 rfl rfl
  refine ⟨fun he hk => (hcheck.1 he).trans ?_, fun he => hcheck.2 he⟩
  have hk' : h.t.getLsbD 4 ≠ false := by rw [hk]; decide
  refine (control_gotoIfBit_passed c (n := 26) rfl hk').trans ((control_act c (n := 25) (a := .verify) rfl).trans ?_)
  refine (congrArg (control c 25) (perform_verify c _ ?_)).trans ?_
  · exact hlife
  · rfl

/-- The STATUS read that ends the wait for the warm-up read (R228). -/
theorem attach_after_warmUp (hscript : h.script = attachScript) (hpos : h.pos = 11) (hdone : h.t.getLsbD 1 = true) :
    (h.t.getLsbD 2 = false →
      h.advance.runControl c = { h.tookStatus with pos := 16, logged := h.logged ++ [.warmUp] }) ∧
    (h.t.getLsbD 2 = true → h.advance.runControl c = { h.tookStatus with pos := 26 }) := by
  rw [at_line hscript hpos]
  have hcheck := control_checkStatus c (h := { h with script := attachScript, pos := 13 }) 26 rfl rfl
  have hdone' : h.t.getLsbD 1 ≠ false := by rw [hdone]; decide
  have hwait := control_gotoIfBit_passed c (n := 28) (h := { h with script := attachScript, pos := 12 }) rfl hdone'
  exact ⟨fun he => hwait.trans (hcheck.1 he), fun he => hwait.trans (hcheck.2 he)⟩

/-- The STATUS read that ends the wait for the baseline read (R228); the registration follows. -/
theorem attach_after_baseline (hscript : h.script = attachScript) (hpos : h.pos = 18) (hdone : h.t.getLsbD 1 = true)
    (hlife : h.life = .verifying) :
    (h.t.getLsbD 2 = false → c.registerOk = true → h.advance.runControl c =
      { h.tookStatus with
        pos := 29, logged := h.logged ++ [.baseline], life := .registered, timerArmed := true, sinceTick := 0
        axes := some axisConfig }) ∧
    (h.t.getLsbD 2 = false → c.registerOk = false → h.advance.runControl c =
      { h.tookStatus.failAttach .registration with pos := 29, logged := h.logged ++ [.baseline] }) ∧
    (h.t.getLsbD 2 = true → h.advance.runControl c = { h.tookStatus with pos := 26 }) := by
  rw [at_line hscript hpos]
  have hcheck := control_checkStatus c (h := { h with script := attachScript, pos := 20 }) 26 rfl rfl
  have hdone' : h.t.getLsbD 1 ≠ false := by rw [hdone]; decide
  have hwait := control_gotoIfBit_passed c (n := 28) (h := { h with script := attachScript, pos := 19 }) rfl hdone'
  have hregister (he : h.t.getLsbD 2 = false) := (hwait.trans (hcheck.1 he)).trans
    ((control_act c (n := 25) (a := .logBaseline) rfl).trans (control_act c (n := 24) (a := .register) rfl))
  refine ⟨fun he hr => (hregister he).trans ?_, fun he hr => (hregister he).trans ?_, fun he => hwait.trans (hcheck.2 he)⟩
  · refine (congrArg (control c 24) ((perform_register c _ ?_).1 hr)).trans ?_
    · exact hlife
    · rfl
  · refine (congrArg (control c 24) ((perform_register c _ ?_).2 hr)).trans ?_
    · exact hlife
    · rfl

/-- A STATUS read that finds ERR = 1 leads to the ERRCODE read, from each of the three places (R227, R228). -/
theorem attach_after_failure (hscript : h.script = attachScript)
    (hline : (h.pos = 4 ∧ h.life = .handshaking) ∨
      ((h.pos = 11 ∨ h.pos = 18) ∧ h.life = .verifying ∧ h.t.getLsbD 1 = true))
    (he : h.t.getLsbD 2 = true) : h.advance.runControl c = { h.tookStatus with pos := 26 } := by
  obtain ⟨hpos, hl⟩ | ⟨hpos | hpos, hl, hd⟩ := hline
  · exact (attach_after_handshake c hscript hpos hl).2 he
  · exact (attach_after_warmUp c hscript hpos hd).2 he
  · exact (attach_after_baseline c hscript hpos hd hl).2.2 he

/-- The ERRCODE read of a failed attach (R232). -/
theorem attach_after_errcode (hscript : h.script = attachScript) (hpos : h.pos = 26)
    (hlife : h.life = .handshaking ∨ h.life = .verifying) :
    h.advance.runControl c = { h.failAttach h.transportError with pos := 29 } := by
  rw [at_line hscript hpos]
  refine (control_act c (n := 28) (h := { h with script := attachScript, pos := 27 }) (a := .abort) rfl).trans ?_
  refine (congrArg (control c 28) (perform_abort c _ ?_)).trans ?_
  · exact hlife
  · rfl

end

/-! ## The end of a cycle -/

@[simp] theorem finishDetach_published (h : HostAgent) : h.finishDetach.published = h.published := by
  unfold finishDetach
  split <;> rfl

@[simp] theorem finishDetach_seen (h : HostAgent) : h.finishDetach.seen = h.seen := by
  unfold finishDetach
  split <;> rfl

theorem finishDetach_of_no_request {h : HostAgent} (hd : h.detaching = false) : h.finishDetach = h :=
  if_neg fun hc => absurd (hd.symm.trans hc.1) (by decide)

/-- The host at the access of a cycle that read the word `w`: a detach request and the timer have been heard. -/
def afterRead (h : HostAgent) (w : Word) (armed : Bool) (n : Nat) (detaching : Bool) : HostAgent :=
  { h with t := w, timerArmed := armed, sinceTick := n, detaching := detaching }

end HostAgent

/-- A step in which the host reads a word: what it does with it, after it has heard the requests of the cycle. -/
theorem step_read_line {s : State} {a : RegIdx} (hl : s.host.script[s.host.pos]? = some (.rd a)) :
    ∃ t armed n detaching, step s = .next t ∧ t.env = s.env.tail ∧
      t.host = HostAgent.finishDetach (HostAgent.runControl s.cycle.calls
        (s.host.afterRead (readWord s.regs a) armed n detaching).advance) ∧
      (s.host.life ≠ .registered ∨ s.cycle.calls.detach = false →
        armed = s.host.timerArmed ∧ detaching = s.host.detaching) ∧
      (s.pins.rst = false → s.regs.state = .idle → t.regs = s.regs) := by
  obtain ⟨t, h, henv, hhost, hregs⟩ := step_read hl
  have hheard : ∃ armed detaching,
      s.host.requestDetach s.cycle.calls = { s.host with timerArmed := armed, detaching := detaching } ∧
      (s.host.life ≠ .registered ∨ s.cycle.calls.detach = false →
        armed = s.host.timerArmed ∧ detaching = s.host.detaching) := by
    by_cases hreq : s.cycle.calls.detach = true ∧ s.host.life = .registered
    · exact ⟨false, true, if_pos hreq, by simp [hreq]⟩
    · exact ⟨_, _, if_neg hreq, fun _ => ⟨rfl, rfl⟩⟩
  obtain ⟨armed, detaching, hr, hkept⟩ := hheard
  rw [hr] at hhost
  exact ⟨t, armed, _, detaching, h, henv, hhost, hkept, hregs⟩

/-! ## A poll that read its frame (44_host_protocol.md R222, R223) -/

section
variable {s t : State} (hscript : s.host.script = pollScript) (hstep : step s = .next t)
include hscript hstep

theorem step_poll_status_ok (hpos : s.host.pos = 4) (he : s.regs.err = false) :
    t.host.script = pollScript ∧ t.host.pos = 7 ∧ t.host.published = s.host.published := by
  obtain ⟨u, armed, n, det, hu, -, hhost, -⟩ := step_read_line (s := s) (a := 1) (by rw [hscript, hpos]; rfl)
  obtain rfl : t = u := by rw [hstep] at hu; cases hu; rfl
  have hrun := (HostAgent.poll_after_status s.cycle.calls
    (h := s.host.afterRead (readWord s.regs 1) armed n det) hscript hpos).1 ((statusWord_err s.regs).trans he)
  rw [hhost, hrun]
  exact ⟨(HostAgent.finishDetach_script _).trans hscript, HostAgent.finishDetach_pos _,
    HostAgent.finishDetach_published _⟩

theorem step_poll_joy (hpos : s.host.pos = 7) :
    t.host.script = pollScript ∧ t.host.pos = 9 ∧ t.host.published = s.host.published ∧
      t.host.seen.x = decX s.regs.frame ∧ t.host.seen.y = decY s.regs.frame ∧
      (s.pins.rst = false → s.regs.state = .idle → t.regs = s.regs) := by
  obtain ⟨u, armed, n, det, hu, -, hhost, -, hregs⟩ := step_read_line (s := s) (a := 5) (by rw [hscript, hpos]; rfl)
  obtain rfl : t = u := by rw [hstep] at hu; cases hu; rfl
  have hrun := HostAgent.poll_after_joy s.cycle.calls
    (h := s.host.afterRead (readWord s.regs 5) armed n det) hscript hpos
  rw [hhost, hrun]
  refine ⟨(HostAgent.finishDetach_script _).trans hscript, HostAgent.finishDetach_pos _,
    HostAgent.finishDetach_published _, ?_, ?_, hregs⟩
  · rw [HostAgent.finishDetach_seen]
    exact joyWord_x s.regs
  · rw [HostAgent.finishDetach_seen]
    exact joyWord_y s.regs

theorem step_poll_btn (hpos : s.host.pos = 9) :
    t.host.published = s.host.published ++
      ([.reportKey .z (decZPressed s.regs.frame), .reportKey .c (decCPressed s.regs.frame),
        .reportAbs .x s.host.seen.x, .reportAbs .y s.host.seen.y, .sync] : List Event) := by
  obtain ⟨u, armed, n, det, hu, -, hhost, -⟩ := step_read_line (s := s) (a := 7) (by rw [hscript, hpos]; rfl)
  obtain rfl : t = u := by rw [hstep] at hu; cases hu; rfl
  have hrun := HostAgent.poll_after_btn s.cycle.calls
    (h := s.host.afterRead (readWord s.regs 7) armed n det) hscript hpos
  have hz : (readWord s.regs 7).getLsbD 0 = decZPressed s.regs.frame := btnWord_z s.regs
  have hc : (readWord s.regs 7).getLsbD 1 = decCPressed s.regs.frame := btnWord_c s.regs
  rw [hhost, hrun, HostAgent.finishDetach_published, ← hz, ← hc]
  rfl

end

/-- Settles O57: the STATUS read leads to the JOY read, which keeps x and y, and the BTN read publishes them with the
buttons. -/
theorem successfulPollPublishesInOrder : Obligations.SuccessfulPollPublishesInOrder := by
  refine ⟨fun s t hscript hpos he h => step_poll_status_ok hscript h hpos he, ?_,
    fun s t hscript hpos h => step_poll_btn hscript h hpos⟩
  intro s t u hscript hpos hi hrst ht hu
  obtain ⟨hscript', hpos', hpub, hx, hy, hregs⟩ := step_poll_joy hscript ht hpos
  refine ⟨hpub, ?_⟩
  rw [step_poll_btn hscript' hu hpos', hpub, hregs hrst hi, hx, hy]

/-! ## A poll that failed (44_host_protocol.md R222, R230, R232) -/

section
variable {s t : State} (hscript : s.host.script = pollScript) (hquiet : s.cycle.calls = .quiet)
  (hdet : s.host.detaching = false) (hrst : s.pins.rst = false) (hi : s.regs.state = .idle)
  (hstep : step s = .next t)
include hscript hquiet hdet hrst hi hstep

theorem step_poll_status_failed (hpos : s.host.pos = 4) (he : s.regs.err = true) :
    t.env = s.env.tail ∧ t.regs = s.regs ∧ t.host.script = pollScript ∧ t.host.pos = 14 ∧
      t.host.detaching = false ∧ t.host.life = s.host.life ∧ t.host.published = s.host.published ∧
      t.host.logged = s.host.logged ∧ t.host.seen.errOp = s.regs.errOp := by
  obtain ⟨u, armed, n, det, hu, henv, hhost, hkept, hregs⟩ :=
    step_read_line (s := s) (a := 1) (by rw [hscript, hpos]; rfl)
  obtain rfl : t = u := by rw [hstep] at hu; cases hu; rfl
  have hdet' : det = false := (hkept (.inr (by rw [hquiet]; rfl))).2.trans hdet
  have hrun := (HostAgent.poll_after_status s.cycle.calls
    (h := s.host.afterRead (readWord s.regs 1) armed n det) hscript hpos).2 ((statusWord_err s.regs).trans he)
  rw [hrun, HostAgent.finishDetach_of_no_request hdet'] at hhost
  rw [hhost]
  exact ⟨henv, hregs hrst hi, hscript, rfl, hdet', rfl, rfl, rfl, statusWord_errOp s.regs⟩

omit hrst hi in
theorem step_poll_errcode (hpos : s.host.pos = 14) :
    t.host.published = s.host.published ∧ t.host.life = s.host.life ∧
      t.host.logged = s.host.logged ++ [.failedPoll (.transport s.host.seen.errOp s.regs.errCode)] ∧
      t.host.free = true := by
  obtain ⟨u, armed, n, det, hu, -, hhost, hkept, -⟩ :=
    step_read_line (s := s) (a := 2) (by rw [hscript, hpos]; rfl)
  obtain rfl : t = u := by rw [hstep] at hu; cases hu; rfl
  have hdet' : det = false := (hkept (.inr (by rw [hquiet]; rfl))).2.trans hdet
  have hrun := HostAgent.poll_after_errcode s.cycle.calls
    (h := s.host.afterRead (readWord s.regs 2) armed n det) hscript hpos
  rw [hrun, HostAgent.finishDetach_of_no_request hdet'] at hhost
  rw [hhost, ← errcodeWord_code]
  refine ⟨rfl, rfl, rfl, ?_⟩
  show decide (s.host.script.length ≤ 17) = true
  rw [hscript]
  rfl

end

/-- Settles O58: the STATUS read takes ERR_OP and leads to the ERRCODE read, which logs the error and ends the poll. -/
theorem failedPollPublishesNothing : Obligations.FailedPollPublishesNothing := by
  intro s t u hscript hpos hlife hi he hcycle hdet ht hu
  obtain ⟨hrst, hquiet⟩ := hcycle 0 (by omega)
  obtain ⟨hrst', hquiet'⟩ := hcycle 1 (by omega)
  rw [State.cycleAt_zero] at hrst hquiet
  obtain ⟨henv, hregs, hscript', hpos', hdet', hlife', hpub, hlog, hop⟩ :=
    step_poll_status_failed hscript hquiet hdet hrst hi ht hpos he
  rw [← State.cycleAt_of_tail henv, State.cycleAt_zero] at hrst' hquiet'
  obtain ⟨hpub', hlife'', hlog', hfree⟩ :=
    step_poll_errcode hscript' hquiet' hdet' hu hpos'
  exact ⟨hpub'.trans hpub, hlife''.trans (hlife'.trans hlife), by rw [hlog', hlog, hop, hregs], hfree⟩

/-! ## An attach (44_host_protocol.md R227, R228, R229, R232) -/

section
variable {s : State} (hscript : s.host.script = attachScript)
include hscript

/-- The STATUS read that finds ERR = 1, after the handshake or at the end of the wait for a verification read. -/
theorem step_attach_status_failed
    (hline : (s.host.pos = 4 ∧ s.host.life = .handshaking) ∨
      ((s.host.pos = 11 ∨ s.host.pos = 18) ∧ s.host.life = .verifying ∧ s.regs.done = true))
    (he : s.regs.err = true) :
    ∃ t, step s = .next t ∧ t.env = s.env.tail ∧ t.host.script = attachScript ∧ t.host.pos = 26 ∧
      t.host.life = s.host.life ∧ t.host.seen.errOp = s.regs.errOp ∧
      (s.pins.rst = false → s.regs.state = .idle → t.regs = s.regs) := by
  have hread : s.host.script[s.host.pos]? = some (.rd 1) := by
    obtain ⟨hpos, -⟩ | ⟨hpos | hpos, -⟩ := hline
    all_goals rw [hscript, hpos]; rfl
  have hlife : s.host.life ≠ .registered := by
    obtain ⟨-, hl⟩ | ⟨-, hl, -⟩ := hline
    all_goals rw [hl]; decide
  obtain ⟨t, armed, n, det, hstep, henv, hhost, -, hregs⟩ := step_read_line hread
  rw [← statusWord_done] at hline
  have hrun := HostAgent.attach_after_failure s.cycle.calls (h := s.host.afterRead (readWord s.regs 1) armed n det)
    hscript hline ((statusWord_err s.regs).trans he)
  rw [hrun, HostAgent.finishDetach_of_life (by exact hlife)] at hhost
  refine ⟨t, hstep, henv, ?_⟩
  rw [hhost]
  exact ⟨hscript, rfl, rfl, statusWord_errOp s.regs, hregs⟩

theorem step_attach_errcode (hpos : s.host.pos = 26) (hlife : s.host.life = .handshaking ∨ s.host.life = .verifying) :
    ∃ t, step s = .next t ∧ t.host.life = .failed ∧ t.host.handle = false ∧ t.host.axes = none ∧
      t.host.surfaced = some (.transport s.host.seen.errOp s.regs.errCode) ∧
      (s.pins.rst = false → s.regs.state = .idle → t.regs = s.regs) := by
  obtain ⟨t, armed, n, det, hstep, -, hhost, -, hregs⟩ :=
    step_read_line (s := s) (a := 2) (by rw [hscript, hpos]; rfl)
  have hrun := HostAgent.attach_after_errcode s.cycle.calls
    (h := s.host.afterRead (readWord s.regs 2) armed n det) hscript hpos hlife
  rw [hrun, HostAgent.finishDetach_of_life (by exact nofun)] at hhost
  refine ⟨t, hstep, ?_⟩
  rw [hhost, ← errcodeWord_code]
  exact ⟨rfl, rfl, rfl, rfl, hregs⟩

theorem step_attach_verify (hpos : s.host.pos = 4) (hlife : s.host.life = .handshaking) (he : s.regs.err = false)
    (hk : s.regs.hsOk = true) :
    ∃ t, step s = .next t ∧ t.host.life = .verifying ∧ t.host.handle = s.host.handle ∧
      t.host.access = some (hostAccWord true 0 0x02) := by
  obtain ⟨t, armed, n, det, hstep, -, hhost, -⟩ := step_read_line (s := s) (a := 1) (by rw [hscript, hpos]; rfl)
  have hrun := (HostAgent.attach_after_handshake s.cycle.calls
    (h := s.host.afterRead (readWord s.regs 1) armed n det) hscript hpos hlife).1
      ((statusWord_err s.regs).trans he) ((statusWord_hsOk s.regs).trans hk)
  rw [hrun, HostAgent.finishDetach_of_life (by exact nofun)] at hhost
  refine ⟨t, hstep, by rw [hhost], by rw [hhost]; rfl, ?_⟩
  have hline : t.host.script[t.host.pos]? = some (.access (hostAccWord true 0 0x02)) := by
    rw [hhost]
    show s.host.script[9]? = _
    rw [hscript]
    rfl
  simp only [HostAgent.access, hline]

end

/-- Settles O59: the STATUS read takes ERR_OP and leads to the ERRCODE read, at which the attach is aborted. -/
theorem failedHandshakeFailsTheAttach : Obligations.FailedHandshakeFailsTheAttach := by
  intro s t u hscript hline hi he hcycle ht hu
  obtain ⟨t', ht', henv, hscript', hpos, hlife, hop, hregs⟩ := step_attach_status_failed hscript hline he
  obtain rfl : t = t' := by rw [ht] at ht'; cases ht'; rfl
  have hrst := hcycle 0 (by omega)
  have hrst' := hcycle 1 (by omega)
  rw [State.cycleAt_zero] at hrst
  rw [← State.cycleAt_of_tail henv, State.cycleAt_zero] at hrst'
  have hlife' : t.host.life = .handshaking ∨ t.host.life = .verifying := by
    rw [hlife]
    exact hline.imp And.right fun h => h.2.1
  obtain ⟨u', hu', hfailed, hhandle, haxes, hsurf, hregs'⟩ := step_attach_errcode hscript' hpos hlife'
  obtain rfl : u = u' := by rw [hu] at hu'; cases hu'; rfl
  have hkept := hregs hrst hi
  exact ⟨hfailed, hhandle, haxes, by rw [hsurf, hop, hkept], (hregs' hrst' (by rw [hkept]; exact hi)).trans hkept⟩

end Sys2Proof.Machine
end


section
/-! PROOFS of the statements of 44_host_protocol.md on the host's lifecycle, its poll timer and its detach. -/

namespace Sys2Proof.Machine

/-! ## The lifecycle moves forward (44_host_protocol.md R225, R230) -/

/-- How far the lifecycle is; both ends of it are the last. -/
def Lifecycle.rank : Lifecycle → Nat
  | .uninitialized => 0
  | .handshaking => 1
  | .verifying => 2
  | .registered => 3
  | .removed | .failed => 4

/-- Kept, or moved to a later state, from Registered to Removed only. -/
def Lifecycle.Forward (l l' : Lifecycle) : Prop := l' = l ∨ (l.rank < l'.rank ∧ (l = .registered → l' = .removed))

theorem Lifecycle.rank_le (l : Lifecycle) : l.rank ≤ 4 := by
  cases l <;> decide

theorem Lifecycle.Forward.trans {a b d : Lifecycle} (hab : a.Forward b) (hbd : b.Forward d) : a.Forward d := by
  obtain rfl | ⟨hlt, hreg⟩ := hab
  · exact hbd
  obtain rfl | ⟨hlt', -⟩ := hbd
  · exact .inr ⟨hlt, hreg⟩
  · refine .inr ⟨hlt.trans hlt', fun ha => ?_⟩
    have hlast := d.rank_le
    rw [hreg ha] at hlt'
    exact absurd (lt_of_lt_of_le hlt' hlast) (by decide)

theorem HostAgent.Moves.forward {l l' : Lifecycle} (h : HostAgent.Moves l l') : l.Forward l' := by
  cases h with
  | stay => exact .inl rfl
  | attach | verify | register | detach | failBeforeAttach | failHandshake | failVerify => exact .inr (by decide)

theorem HostAgent.runControl_forward (c : Calls) (h : HostAgent) : h.life.Forward (h.runControl c).life :=
  HostAgent.control_keeps c (P := fun g => h.life.Forward g.life) (fun _ _ hg => hg)
    (fun a g hg => hg.trans (HostAgent.perform_moves c a g).forward) _ h (.inl rfl)

theorem HostAgent.beginCycle_forward (p : Nat) (c : Calls) (h : HostAgent) :
    h.life.Forward (h.beginCycle p c).life := by
  refine Lifecycle.Forward.trans ?_ (HostAgent.runControl_forward c _)
  rw [HostAgent.tick_life, HostAgent.requestDetach_life]
  exact (HostAgent.attach_moves c h).forward

theorem HostAgent.endCycle_forward (c : Calls) (h : HostAgent) : h.life.Forward (h.endCycle c).life := by
  refine Lifecycle.Forward.trans ?_ (HostAgent.finishDetach_moves _).forward
  have hrun := HostAgent.runControl_forward c h.advance
  rwa [HostAgent.advance_life] at hrun

theorem step_forward {s t : State} (h : step s = .next t) : s.host.life.Forward t.host.life := by
  obtain ⟨u, w, hu, hhost⟩ := step_host s
  obtain rfl : t = u := by rw [h] at hu; cases hu; rfl
  have hbegin := HostAgent.beginCycle_forward (tTick s.clock) s.cycle.calls s.host
  rw [hhost]
  generalize s.host.beginCycle (tTick s.clock) s.cycle.calls = g at hbegin ⊢
  exact hbegin.trans (HostAgent.endCycle_forward _ { g with t := w })

/-! ## The attach request (44_host_protocol.md R226) -/

namespace HostAgent

theorem attach_accepted {c : Calls} {h : HostAgent} (hreq : c.attach = true) (hlife : h.life = .uninitialized)
    (hfree : h.free = true) :
    (c.allocOk = true → h.attach c = { h.start attachScript with life := .handshaking, handle := true }) ∧
    (c.allocOk = false → h.attach c = h.failAttach .allocation) := by
  simp +contextual [attach, hreq, hlife, hfree]

theorem access_at_access {h : HostAgent} {w : HostAccWord} (hl : h.script[h.pos]? = some (.access w)) :
    h.access = some w := by
  simp only [access, hl]

theorem access_of_free {h : HostAgent} (hf : h.free = true) : h.access = none := by
  have hl : h.script[h.pos]? = none := by simpa [free] using hf
  simp only [access, hl]

theorem advance_of_free {h : HostAgent} (hf : h.free = true) : h.advance = h := by
  have hl : h.script[h.pos]? = none := by simpa [free] using hf
  simp only [advance, hl]

/-- Outside Registered, once the attach has been heard, the host only counts the cycle up to its next access. -/
theorem beginCycle_of_attach {p : Nat} {c : Calls} {h g : HostAgent} (ha : h.attach c = g)
    (hlife : g.life ≠ .registered) (hstop : ∀ n, (g.countCycle p).control c n = g.countCycle p) :
    h.beginCycle p c = g.countCycle p := by
  rw [beginCycle, ha, requestDetach_of_life c hlife, tick_of_life hlife]
  exact hstop _

theorem attach_after_cmd (c : Calls) {h : HostAgent} (hscript : h.script = attachScript) (hpos : h.pos = 0) :
    h.advance.runControl c = { h with pos := 2 } := by
  rw [at_line hscript hpos]
  rfl

theorem poll_after_cmd (c : Calls) {h : HostAgent} (hscript : h.script = pollScript) (hpos : h.pos = 0) :
    h.advance.runControl c = { h with pos := 2 } := by
  rw [at_line hscript hpos]
  rfl

end HostAgent

section
variable {s : State} (hreq : s.cycle.calls.attach = true) (hlife : s.host.life = .uninitialized)
  (hfree : s.host.free = true)
include hreq hlife hfree

theorem step_attach_allocated (hok : s.cycle.calls.allocOk = true) :
    s.beginCycle.hostWord = some (hostAccWord true 0 0x01) ∧
      ∃ t, step s = .next t ∧ t.host.life = .handshaking ∧ t.host.handle = true ∧ t.host.script = attachScript ∧
        t.host.pos = 2 := by
  have hb := HostAgent.beginCycle_of_attach (p := tTick s.clock)
    ((HostAgent.attach_accepted hreq hlife hfree).1 hok) nofun (HostAgent.control_at_access _ rfl)
  refine ⟨?_, ?_⟩
  · rw [State.hostWord, State.beginCycle_host, hb]
    exact HostAgent.access_at_access rfl
  · obtain ⟨t, w, ht, hhost⟩ := step_host s
    rw [hb, HostAgent.endCycle, HostAgent.attach_after_cmd _ rfl rfl, HostAgent.finishDetach_of_life (by exact nofun)] at hhost
    refine ⟨t, ht, ?_⟩
    rw [hhost]
    exact ⟨rfl, rfl, rfl, rfl⟩

theorem step_attach_refused (hok : s.cycle.calls.allocOk = false) :
    s.beginCycle.hostWord = none ∧
      ∃ t, step s = .next t ∧ t.host.life = .failed ∧ t.host.handle = false ∧ t.host.surfaced = some .allocation := by
  have hfree' : ((s.host.failAttach .allocation).countCycle (tTick s.clock)).free = true := hfree
  have hb := HostAgent.beginCycle_of_attach (p := tTick s.clock)
    ((HostAgent.attach_accepted hreq hlife hfree).2 hok) nofun (HostAgent.control_of_free _ hfree')
  refine ⟨?_, ?_⟩
  · rw [State.hostWord, State.beginCycle_host, hb]
    exact HostAgent.access_of_free hfree'
  · obtain ⟨t, w, ht, hhost⟩ := step_host s
    rw [hb, HostAgent.endCycle, HostAgent.advance_of_free (by exact hfree'), HostAgent.runControl,
      HostAgent.control_of_free _ (by exact hfree'), HostAgent.finishDetach_of_life (by exact nofun)] at hhost
    refine ⟨t, ht, ?_⟩
    rw [hhost]
    exact ⟨rfl, rfl, rfl⟩

end

/-! ## The attach's verification reads (44_host_protocol.md R228) -/

section
variable {s : State} (hscript : s.host.script = attachScript) (hlife : s.host.life = .verifying)
  (hdone : s.regs.done = true) (he : s.regs.err = false)
include hscript hlife hdone he

theorem step_attach_warmUp (hpos : s.host.pos = 11) :
    ∃ t, step s = .next t ∧ t.host.life = .verifying ∧ t.host.logged = s.host.logged ++ [.warmUp] ∧
      t.host.access = some (hostAccWord true 0 0x02) ∧ t.host.script = attachScript ∧ t.host.pos = 16 := by
  obtain ⟨t, armed, n, det, hstep, -, hhost, -⟩ := step_read_line (s := s) (a := 1) (by rw [hscript, hpos]; rfl)
  have hrun := (HostAgent.attach_after_warmUp s.cycle.calls (h := s.host.afterRead (readWord s.regs 1) armed n det)
    hscript hpos ((statusWord_done s.regs).trans hdone)).1 ((statusWord_err s.regs).trans he)
  have hl : s.host.life ≠ .registered := by rw [hlife]; decide
  rw [hrun, HostAgent.finishDetach_of_life (by exact hl)] at hhost
  refine ⟨t, hstep, ?_⟩
  rw [hhost]
  have hline : s.host.script[16]? = some (.access (hostAccWord true 0 0x02)) := by rw [hscript]; rfl
  exact ⟨hlife, rfl, HostAgent.access_at_access hline, hscript, rfl⟩

theorem step_attach_baseline (hpos : s.host.pos = 18) (hdet : s.host.detaching = false) :
    ∃ t, step s = .next t ∧ t.host.logged = s.host.logged ++ [.baseline] ∧ t.host.free = true ∧
      (s.cycle.calls.registerOk = true → t.host.life = .registered ∧ t.host.handle = s.host.handle ∧
        t.host.timerArmed = true ∧ t.host.sinceTick = 0 ∧
        t.host.axes = some { min := 0, max := 255, fuzz := 4, flat := 8 }) ∧
      (s.cycle.calls.registerOk = false → t.host.life = .failed ∧ t.host.handle = false ∧ t.host.axes = none ∧
        t.host.timerArmed = s.host.timerArmed ∧ t.host.surfaced = some .registration) := by
  obtain ⟨t, armed, n, det, hstep, -, hhost, hkept, -⟩ :=
    step_read_line (s := s) (a := 1) (by rw [hscript, hpos]; rfl)
  have hl : s.host.life ≠ .registered := by rw [hlife]; decide
  obtain ⟨harmed, hdet'⟩ := hkept (.inl hl)
  rw [hdet] at hdet'
  have hrun := HostAgent.attach_after_baseline s.cycle.calls
    (h := s.host.afterRead (readWord s.regs 1) armed n det) hscript hpos ((statusWord_done s.regs).trans hdone) hlife
  have hend : decide (s.host.script.length ≤ 29) = true := by rw [hscript]; rfl
  refine ⟨t, hstep, ?_⟩
  rcases hr : s.cycle.calls.registerOk with _ | _
  · rw [hrun.2.1 ((statusWord_err s.regs).trans he) hr, HostAgent.finishDetach_of_life (by exact nofun)] at hhost
    rw [hhost]
    exact ⟨rfl, hend, nofun, fun _ => ⟨rfl, rfl, rfl, harmed, rfl⟩⟩
  · rw [hrun.1 ((statusWord_err s.regs).trans he) hr, HostAgent.finishDetach_of_no_request (by exact hdet')] at hhost
    rw [hhost]
    exact ⟨rfl, hend, fun _ => ⟨rfl, rfl, rfl, rfl, rfl⟩, nofun⟩

end

/-- Settles O55: no move of the host goes back, and each of the attach's moves is one stretch of its script. -/
theorem lifecycleOnlyMovesForward : Obligations.LifecycleOnlyMovesForward := by
  refine ⟨fun s t h hne => ?_,
    fun s hlife hfree hreq => ⟨step_attach_allocated hreq hlife hfree, step_attach_refused hreq hlife hfree⟩,
    fun s hscript hpos hlife he hk => step_attach_verify hscript hpos hlife he hk,
    fun s hscript hpos hlife hdone he => step_attach_warmUp hscript hlife hdone he hpos,
    fun s hscript hpos hlife hdet hdone he => step_attach_baseline hscript hlife hdone he hpos hdet⟩
  obtain ⟨hlt, hreg⟩ := (step_forward h).resolve_left hne
  have hlast := t.host.life.rank_le
  refine ⟨fun hl => ?_, fun hl => ?_, fun hl => ?_, hreg, fun hl hl' => ?_⟩
  · rw [hl, Lifecycle.rank] at hlt
    omega
  · rw [hl, Lifecycle.rank] at hlt
    omega
  · rw [hl, Lifecycle.rank] at hlt
    omega
  · rw [hl, hl', Lifecycle.rank, Lifecycle.rank] at hlt
    omega

end Sys2Proof.Machine
end


section
/-! PROOFS of the statements of 44_host_protocol.md on the host's poll timer and its detach. -/

namespace Sys2Proof.Machine

namespace HostAgent

/-! ## A registered host (44_host_protocol.md R230) -/

/-- No act moves a registered host, nor its timer or its waiting detach. -/
theorem perform_of_registered (c : Calls) (a : HostAct) {h : HostAgent} (hl : h.life = .registered) :
    (h.perform c a).life = .registered ∧ (h.perform c a).timerArmed = h.timerArmed ∧
      (h.perform c a).sinceTick = h.sinceTick ∧ (h.perform c a).detaching = h.detaching := by
  have hkept (e : h.perform c a = h) : (h.perform c a).life = .registered ∧
      (h.perform c a).timerArmed = h.timerArmed ∧ (h.perform c a).sinceTick = h.sinceTick ∧
      (h.perform c a).detaching = h.detaching := by
    rw [e]
    exact ⟨hl, rfl, rfl, rfl⟩
  cases a with
  | takeStatus | takeJoy | takeBtn | publish | logFailure | logWarmUp | logBaseline => exact ⟨hl, rfl, rfl, rfl⟩
  | verify | register => exact hkept (if_neg (by rw [hl]; decide))
  | abort => exact hkept (if_neg (by rw [hl]; decide))

theorem runControl_of_registered (c : Calls) {h : HostAgent} (hl : h.life = .registered) :
    (h.runControl c).life = .registered ∧ (h.runControl c).timerArmed = h.timerArmed ∧
      (h.runControl c).sinceTick = h.sinceTick ∧ (h.runControl c).detaching = h.detaching := by
  refine control_keeps c (P := fun g => g.life = .registered ∧ g.timerArmed = h.timerArmed ∧
    g.sinceTick = h.sinceTick ∧ g.detaching = h.detaching) (fun _ _ hg => hg) (fun a g hg => ?_) _ h ⟨hl, rfl, rfl, rfl⟩
  obtain ⟨gl, ga, gs, gd⟩ := hg
  obtain ⟨pl, pa, ps, pd⟩ := perform_of_registered c a gl
  exact ⟨pl, pa.trans ga, ps.trans gs, pd.trans gd⟩

theorem attach_of_life {c : Calls} {h : HostAgent} (hl : h.life ≠ .uninitialized) : h.attach c = h :=
  if_neg fun hc => hl hc.2.1

theorem requestDetach_of_no_request {c : Calls} {h : HostAgent} (hd : c.detach = false) : h.requestDetach c = h :=
  if_neg fun hc => absurd (hd.symm.trans hc.1) (by decide)

theorem finishDetach_of_not_free {h : HostAgent} (hf : h.free = false) : h.finishDetach = h :=
  if_neg fun hc => absurd (hf.symm.trans hc.2.2) (by decide)

@[simp] theorem advance_timerArmed (h : HostAgent) : h.advance.timerArmed = h.timerArmed := by
  unfold advance
  split <;> rfl

@[simp] theorem advance_sinceTick (h : HostAgent) : h.advance.sinceTick = h.sinceTick := by
  unfold advance
  split <;> rfl

@[simp] theorem advance_detaching (h : HostAgent) : h.advance.detaching = h.detaching := by
  unfold advance
  split <;> rfl

@[simp] theorem finishDetach_timerArmed (h : HostAgent) : h.finishDetach.timerArmed = h.timerArmed := by
  unfold finishDetach
  split <;> rfl

@[simp] theorem finishDetach_sinceTick (h : HostAgent) : h.finishDetach.sinceTick = h.sinceTick := by
  unfold finishDetach
  split <;> rfl

@[simp] theorem finishDetach_free (h : HostAgent) : h.finishDetach.free = h.free := by
  unfold finishDetach
  split <;> rfl

/-- The cycle of a registered host around its access: `g` is the host when it has heard the requests and its timer, and
the rest of the cycle leaves it registered, with its timer and its waiting detach as they are, up to the end of a
detach. -/
theorem rest_of_registered (c : Calls) {g : HostAgent} (hl : g.life = .registered) (w : Word) :
    ∃ e : HostAgent, HostAgent.endCycle c { g.runControl c with t := w } = e.finishDetach ∧ e.life = .registered ∧
      e.timerArmed = g.timerArmed ∧ e.sinceTick = g.sinceTick ∧ e.detaching = g.detaching ∧
      (g.free = true → e = { g with t := w }) := by
  obtain ⟨l1, a1, s1, d1⟩ := runControl_of_registered c hl
  have hl1 : (advance { g.runControl c with t := w }).life = .registered := by rw [advance_life]; exact l1
  obtain ⟨l2, a2, s2, d2⟩ := runControl_of_registered c hl1
  rw [advance_timerArmed] at a2
  rw [advance_sinceTick] at s2
  rw [advance_detaching] at d2
  refine ⟨_, rfl, l2, a2.trans a1, s2.trans s1, d2.trans d1, fun hf => ?_⟩
  have hrun : g.runControl c = g := control_of_free c hf _
  have hf' : ({ g with t := w } : HostAgent).free = true := hf
  rw [hrun, advance_of_free hf']
  exact control_of_free c hf' _

/-! ## Detach (44_host_protocol.md R231) -/

/-- A request, or one that waits, leaves the timer disarmed and the detach waiting. -/
theorem requestDetach_waiting {c : Calls} {h : HostAgent} (hl : h.life = .registered)
    (hd : c.detach = true ∨ (h.detaching = true ∧ h.Inv)) :
    h.requestDetach c = { h with timerArmed := false, detaching := true } := by
  by_cases hc : c.detach = true
  · exact if_pos ⟨hc, hl⟩
  · obtain ⟨hw, hinv⟩ := hd.resolve_left hc
    rw [requestDetach_of_no_request (Bool.eq_false_of_not_eq_true hc), ← hw, ← (hinv.detaching_registered hw).2]

theorem tick_of_disarmed {h : HostAgent} (ha : h.timerArmed = false) (p : Nat) : h.tick p = h.countCycle p := by
  simp [tick, tickDue, ha]

end HostAgent

/-- Settles O60: the request disarms the timer before the tick is heard, and the end of the cycle removes a host that
then runs no script. -/
theorem detachDisarmsThenRemoves : Obligations.DetachDisarmsThenRemoves := by
  intro s t hl hd h
  obtain ⟨u, w, hu, hhost⟩ := step_host s
  obtain rfl : t = u := by rw [h] at hu; cases hu; rfl
  rw [HostAgent.beginCycle, HostAgent.attach_of_life (by rw [hl]; decide), HostAgent.requestDetach_waiting hl hd,
    HostAgent.tick_of_disarmed rfl] at hhost
  obtain ⟨e, he, elife, earmed, -, edet, efree⟩ := HostAgent.rest_of_registered s.cycle.calls
    (g := HostAgent.countCycle (tTick s.clock) { s.host with timerArmed := false, detaching := true }) hl w
  rw [he] at hhost
  have hremoved (hf : e.free = true) : e.finishDetach =
      { e with life := .removed, handle := false, detaching := false, logged := e.logged ++ [.detached] } :=
    if_pos ⟨edet, elife, hf⟩
  refine ⟨?_, fun hf => ?_, fun hf => ?_, fun hf => ?_⟩
  · rw [hhost, HostAgent.finishDetach_timerArmed]
    exact earmed
  · have e1 := efree hf
    have ef : e.free = true := by rw [e1]; exact hf
    rw [hhost, hremoved ef]
    exact ⟨ef, by rw [e1]; rfl, by rw [e1]; rfl⟩
  · rw [hhost, HostAgent.finishDetach_free] at hf
    rw [hhost, hremoved hf]
    exact ⟨rfl, rfl, rfl, _, rfl⟩
  · rw [hhost, HostAgent.finishDetach_free] at hf
    rw [hhost, HostAgent.finishDetach_of_not_free hf]
    exact ⟨elife, edet⟩

/-! ## The period (00_scope.md R11, R12) -/

/-- The period is the least number of cycles of at least 5 ms. -/
theorem tTick_bounds (c : ClockRate) : 5 * c.hz ≤ 1000 * tTick c ∧ 1000 * tTick c < 5 * c.hz + 1000 := by
  unfold tTick tTickMs
  omega

/-! ## A registered host with its timer armed (44_host_protocol.md R222) -/

namespace HostAgent

variable {p : Nat} {c : Calls} {h : HostAgent}

theorem countCycle_of_due (ha : h.timerArmed = true) (hp : p ≤ h.sinceTick + 1) :
    (h.countCycle p).sinceTick = 0 := by
  simp [countCycle, tickDue, ha, hp]

theorem countCycle_of_not_due (ha : h.timerArmed = true) (hp : h.sinceTick + 1 < p) :
    (h.countCycle p).sinceTick = h.sinceTick + 1 := by
  have hp' : ¬ p ≤ h.sinceTick + 1 := by omega
  simp [countCycle, tickDue, ha, hp']

theorem tick_of_due (hl : h.life = .registered) (ha : h.timerArmed = true) (hf : h.free = true)
    (hp : p ≤ h.sinceTick + 1) : h.tick p = (h.countCycle p).start pollScript :=
  if_pos ⟨by simp [tickDue, ha, hp], hl, hf⟩

theorem tick_of_not_due (hp : h.sinceTick + 1 < p) : h.tick p = h.countCycle p := by
  have hp' : ¬ p ≤ h.sinceTick + 1 := by omega
  simp [tick, tickDue, hp']

/-- The tick leaves the lifecycle and the arming, and counts the cycle. -/
theorem tick_counts (h : HostAgent) (p : Nat) :
    (h.tick p).timerArmed = h.timerArmed ∧ (h.tick p).sinceTick = (h.countCycle p).sinceTick := by
  unfold tick
  split <;> exact ⟨rfl, rfl⟩

/-- Without a detach request a registered host hears nothing but its timer. -/
theorem beginCycle_of_registered (hl : h.life = .registered) (hd : c.detach = false) :
    h.beginCycle p c = (h.tick p).runControl c := by
  rw [beginCycle, attach_of_life (by rw [hl]; decide), requestDetach_of_no_request hd]

/-- A tick of a free host starts a poll at its first access. -/
theorem beginCycle_of_tick (hl : h.life = .registered) (hd : c.detach = false) (ha : h.timerArmed = true)
    (hf : h.free = true) (hp : p ≤ h.sinceTick + 1) : h.beginCycle p c = (h.countCycle p).start pollScript := by
  rw [beginCycle_of_registered hl hd, tick_of_due hl ha hf hp]
  exact control_at_access c rfl _

end HostAgent

section
variable {s : State} (hl : s.host.life = .registered) (ha : s.host.timerArmed = true)
  (hd : s.cycle.calls.detach = false)
include hl ha hd

theorem step_timer :
    ∃ t, step s = .next t ∧ t.host.timerArmed = true ∧
      (tTick s.clock ≤ s.host.sinceTick + 1 → t.host.sinceTick = 0) ∧
      (s.host.sinceTick + 1 < tTick s.clock → t.host.sinceTick = s.host.sinceTick + 1) := by
  obtain ⟨t, w, ht, hhost⟩ := step_host s
  obtain ⟨tarmed, tsince⟩ := HostAgent.tick_counts s.host (tTick s.clock)
  obtain ⟨e, he, -, earmed, esince, -⟩ := HostAgent.rest_of_registered s.cycle.calls
    (g := s.host.tick (tTick s.clock)) (by rw [HostAgent.tick_life]; exact hl) w
  rw [HostAgent.beginCycle_of_registered hl hd, he] at hhost
  refine ⟨t, ht, ?_⟩
  rw [hhost, HostAgent.finishDetach_timerArmed, HostAgent.finishDetach_sinceTick, earmed, esince, tarmed, tsince]
  exact ⟨ha, HostAgent.countCycle_of_due ha, HostAgent.countCycle_of_not_due ha⟩

/-- The step in which a poll starts: the access is READ_FRAME, and the block in IDLE accepts it. -/
theorem step_tick (hf : s.host.free = true) (hp : tTick s.clock ≤ s.host.sinceTick + 1) :
    s.beginCycle.hostWord = some (hostAccWord true 0 0x02) ∧
      ∃ t, step s = .next t ∧ t.host.script = pollScript ∧ t.host.pos = 2 ∧ t.host.life = .registered ∧
        (s.pins.rst = false → s.regs.state = .idle → t.regs.state = .rfSettle1) := by
  have hb := HostAgent.beginCycle_of_tick (p := tTick s.clock) hl hd ha hf hp
  have hword : s.beginCycle.hostWord = some (hostAccWord true 0 0x02) := by
    rw [State.hostWord, State.beginCycle_host, hb]
    exact HostAgent.access_at_access rfl
  obtain ⟨t, w, ht, hhost⟩ := step_host s
  rw [hb, HostAgent.endCycle, HostAgent.poll_after_cmd _ rfl rfl, HostAgent.finishDetach_of_not_free rfl] at hhost
  refine ⟨hword, t, ht, by rw [hhost]; rfl, by rw [hhost], by rw [hhost]; exact hl, fun hrst hi => ?_⟩
  obtain ⟨-, hrf, -⟩ := (step_writes_idle hrst hi ht).of_written (cmdWritten_of_wrCmd hword)
  rw [hrf rfl hi]
  rfl

omit ha in
theorem hostWord_without_tick (hf : s.host.free = true) (hp : s.host.sinceTick + 1 < tTick s.clock) :
    s.beginCycle.hostWord = none := by
  have hf' : (s.host.countCycle (tTick s.clock)).free = true := hf
  rw [State.hostWord, State.beginCycle_host, HostAgent.beginCycle_of_registered hl hd, HostAgent.tick_of_not_due hp,
    HostAgent.runControl, HostAgent.control_of_free _ hf']
  exact HostAgent.access_of_free hf'

end

/-! ## A host that hears no tick does not depend on the timer's count (44_host_protocol.md R224) -/

namespace HostAgent

/-- The same host with another count of its poll timer. -/
def withSince (n : Nat) (h : HostAgent) : HostAgent := { h with sinceTick := n }

/-- Up to the timer's count, `f` does the same to a host with another count. -/
def IgnoresCount (f : HostAgent → HostAgent) : Prop :=
  ∀ (n : Nat) (h : HostAgent), ∃ m, f (h.withSince n) = (f h).withSince m

theorem IgnoresCount.comp {f g : HostAgent → HostAgent} (hf : IgnoresCount f) (hg : IgnoresCount g) :
    IgnoresCount (g ∘ f) := by
  intro n h
  obtain ⟨m, hm⟩ := hf n h
  obtain ⟨k, hk⟩ := hg m (f h)
  exact ⟨k, by rw [Function.comp_apply, hm, hk, Function.comp_apply]⟩

theorem ite_withSince {b : Prop} [Decidable b] {g h g' h' : HostAgent} (hg : ∃ m, g' = g.withSince m)
    (hh : ∃ m, h' = h.withSince m) : ∃ m, (if b then g' else h') = (if b then g else h).withSince m := by
  by_cases hb : b
  · rw [if_pos hb, if_pos hb]
    exact hg
  · rw [if_neg hb, if_neg hb]
    exact hh

theorem perform_ignoresCount (c : Calls) (a : HostAct) : IgnoresCount (perform c a) := by
  intro n h
  cases a with
  | takeStatus | takeJoy | takeBtn | publish | logFailure | logWarmUp | logBaseline => exact ⟨n, rfl⟩
  | verify => exact ite_withSince ⟨n, rfl⟩ ⟨n, rfl⟩
  | register => exact ite_withSince (ite_withSince ⟨0, rfl⟩ ⟨n, rfl⟩) ⟨n, rfl⟩
  | abort => exact ite_withSince ⟨n, rfl⟩ ⟨n, rfl⟩

theorem attach_ignoresCount (c : Calls) : IgnoresCount (attach c) := fun n _ =>
  ite_withSince (ite_withSince ⟨n, rfl⟩ ⟨n, rfl⟩) ⟨n, rfl⟩

theorem requestDetach_ignoresCount (c : Calls) : IgnoresCount (requestDetach c) := fun n _ =>
  ite_withSince ⟨n, rfl⟩ ⟨n, rfl⟩

theorem finishDetach_ignoresCount : IgnoresCount finishDetach := fun n _ => ite_withSince ⟨n, rfl⟩ ⟨n, rfl⟩

theorem advance_ignoresCount : IgnoresCount advance := by
  intro n h
  refine ⟨n, ?_⟩
  simp only [advance, withSince]
  split <;> rfl

theorem control_ignoresCount (c : Calls) (k : Nat) : IgnoresCount (control c k) := by
  induction k with
  | zero => exact fun n _ => ⟨n, rfl⟩
  | succ k ih =>
    intro n h
    have hline : (h.withSince n).script[(h.withSince n).pos]? = h.script[h.pos]? := rfl
    simp only [control, hline]
    rcases h.script[h.pos]? with _ | l
    · exact ⟨n, rfl⟩
    cases l with
    | access _ | idle => exact ⟨n, rfl⟩
    | label _ => exact ih n { h with pos := h.pos + 1 }
    | gotoIfBit i v l =>
      obtain ⟨m, hm⟩ := ih n (if h.t.getLsbD i = v then { h with pos := h.target l } else { h with pos := h.pos + 1 })
      rw [apply_ite (withSince n)] at hm
      exact ⟨m, hm⟩
    | gotoIfMask k v l =>
      obtain ⟨m, hm⟩ := ih n (if h.t &&& k = v then { h with pos := h.target l } else { h with pos := h.pos + 1 })
      rw [apply_ite (withSince n)] at hm
      exact ⟨m, hm⟩
    | goto l => exact ih n { h with pos := h.target l }
    | act a => exact ((perform_ignoresCount c a).comp ih) n { h with pos := h.pos + 1 }

theorem runControl_ignoresCount (c : Calls) : IgnoresCount (runControl c) := fun n h =>
  control_ignoresCount c h.script.length n h

theorem endCycle_ignoresCount (c : Calls) : IgnoresCount (endCycle c) :=
  (advance_ignoresCount.comp (runControl_ignoresCount c)).comp finishDetach_ignoresCount

/-- A tick that cannot start a poll only counts the cycle. -/
theorem tick_of_dropped {h : HostAgent} (hdrop : h.free = false ∨ h.life ≠ .registered ∨ h.timerArmed = false)
    (p : Nat) : h.tick p = h.countCycle p := by
  obtain hf | hl | ha := hdrop
  · exact tick_of_not_free hf p
  · exact tick_of_life hl p
  · exact tick_of_disarmed ha p

/-- What drops the tick still drops it when the requests of the cycle have been heard. -/
theorem requests_keep_dropped (c : Calls) {h : HostAgent}
    (hdrop : h.free = false ∨ h.life ≠ .registered ∨ h.timerArmed = false) :
    ((h.attach c).requestDetach c).free = false ∨ ((h.attach c).requestDetach c).life ≠ .registered ∨
      ((h.attach c).requestDetach c).timerArmed = false := by
  by_cases hl : h.life = .registered
  · rw [attach_of_life (by rw [hl]; decide)]
    unfold requestDetach
    split
    · exact .inr (.inr rfl)
    · exact hdrop
  · refine .inr (.inl ?_)
    rw [requestDetach_life]
    unfold attach
    split
    · split
      · exact nofun
      · exact nofun
    · exact hl

theorem beginCycle_withSince (p : Nat) (c : Calls) {h : HostAgent}
    (hdrop : h.free = false ∨ h.life ≠ .registered ∨ h.timerArmed = false) (n : Nat) :
    ∃ m, (h.withSince n).beginCycle p c = (h.beginCycle p c).withSince m := by
  have hrequests := (attach_ignoresCount c).comp (requestDetach_ignoresCount c)
  obtain ⟨m, hm⟩ := hrequests n h
  simp only [Function.comp_apply] at hm
  have hcount (g : HostAgent) : ∃ k, (g.withSince m).countCycle p = (g.countCycle p).withSince k := ⟨_, rfl⟩
  obtain ⟨k, hk⟩ := hcount ((h.attach c).requestDetach c)
  have hdrop' := requests_keep_dropped c hdrop
  rw [beginCycle, beginCycle, hm, tick_of_dropped hdrop', tick_of_dropped (by exact hdrop'), hk]
  exact runControl_ignoresCount c k _

end HostAgent

/-! No part of an edge reads the timer's count. -/

section
variable (n : Nat) (s : State)

theorem acceptOrOverrun_withSinceTick {start : State → State}
    (h : start ((s.mapRegs acceptCommon).withSinceTick n) = (start (s.mapRegs acceptCommon)).withSinceTick n) :
    acceptOrOverrun start (s.withSinceTick n) = (acceptOrOverrun start s).withSinceTick n := by
  by_cases hi : s.regs.state = .idle
  · rw [acceptOrOverrun_idle hi, acceptOrOverrun_idle (s := s.withSinceTick n) hi]
    exact h
  · rw [acceptOrOverrun_busy hi, acceptOrOverrun_busy (s := s.withSinceTick n) hi]
    rfl

theorem busTransaction_withSinceTick {st : SeqState} {op : BitVec 4} {success : State → State}
    (h : success (s.withSinceTick n) = (success s).withSinceTick n) :
    busTransaction st op success (s.withSinceTick n) = (busTransaction st op success s).withSinceTick n := by
  by_cases hs : s.regs.state = st
  · rcases hd : s.pins.busDone with _ | _
    · rw [busTransaction_wait hd, busTransaction_wait (s := s.withSinceTick n) hd]
    rcases hk : s.pins.bus.ok with _ | _
    · rw [busTransaction_failure hs hd hk, busTransaction_failure (s := s.withSinceTick n) hs hd hk]
      rfl
    · rw [busTransaction_success hs hd hk, busTransaction_success (s := s.withSinceTick n) hs hd hk, h]
  · rw [busTransaction_elsewhere hs, busTransaction_elsewhere (s := s.withSinceTick n) hs]

theorem resetEdge_withSinceTick : resetEdge (s.withSinceTick n) = (resetEdge s).withSinceTick n := by
  have hword : (s.withSinceTick n).hostWord = s.hostWord := rfl
  unfold resetEdge resetRead
  rw [hword]
  rcases s.hostWord with _ | w
  · rfl
  · by_cases hw : hostAccWe w = true
    · simp only [if_pos hw]
      rfl
    · simp only [if_neg hw]
      rfl

end

section
variable {n : Nat} {s t : State}

theorem exec_wrCmd_withSinceTick {d : Word} (h : exec (.wrCmd d) s = .next t) :
    exec (.wrCmd d) (s.withSinceTick n) = .next (t.withSinceTick n) := by
  rcases (by omega : d.toNat % 256 = 0 ∨ d.toNat % 256 = 1 ∨ d.toNat % 256 = 2 ∨ 3 ≤ d.toNat % 256)
    with hd | hd | hd | hd
  · rw [exec_wrCmd_nop _ hd] at h ⊢
    cases h
    rfl
  · rw [exec_wrCmd_handshake _ hd] at h ⊢
    cases h
    exact congrArg _ (acceptOrOverrun_withSinceTick n s (start := handshakeStart) rfl)
  · rw [exec_wrCmd_readFrame _ hd] at h ⊢
    cases h
    exact congrArg _ (acceptOrOverrun_withSinceTick n s (start := readFrameStart) rfl)
  · rw [exec_wrCmd_reserved _ hd] at h ⊢
    cases h
    rfl

theorem hostPart_withSinceTick (h : hostPart s = .next t) :
    hostPart (s.withSinceTick n) = .next (t.withSinceTick n) := by
  have hword : (s.withSinceTick n).hostWord = s.hostWord := rfl
  unfold hostPart at h ⊢
  rw [hword]
  generalize s.hostWord = o at h ⊢
  rcases o with _ | w
  · cases h
    rfl
  · simp only [decodeHostAcc_exec] at h ⊢
    by_cases hw : hostAccWe w = true
    · rw [if_pos hw] at h ⊢
      by_cases ha : hostAccAddr w = 0#4
      · rw [if_pos ha] at h ⊢
        exact exec_wrCmd_withSinceTick h
      · rw [if_neg ha] at h ⊢
        cases h
        rfl
    · rw [if_neg hw] at h ⊢
      cases h
      rfl

theorem sequencerPart_withSinceTick {st : SeqState} (h : sequencerPart st s = .next t) :
    sequencerPart st (s.withSinceTick n) = .next (t.withSinceTick n) := by
  cases st with
  | idle | reserved _ | rfSettle1 | rfSettle2 =>
    cases h
    rfl
  | hsW1 | hsW2 | rfAddr | rfRead =>
    cases h
    exact congrArg _ (busTransaction_withSinceTick n s (by rfl))

theorem endCycle_withSinceTick (n : Nat) (s : State) :
    ∃ m, (s.withSinceTick n).endCycle = s.endCycle.withSinceTick m := by
  obtain ⟨m, hm⟩ := HostAgent.endCycle_ignoresCount s.cycle.calls n s.host
  exact ⟨m, congrArg (fun h => ({ s with host := h, env := s.env.tail } : State)) hm⟩

/-- The step of a host that drops its tick, with another count of its timer. -/
theorem step_withSinceTick
    (hdrop : s.host.free = false ∨ s.host.life ≠ .registered ∨ s.host.timerArmed = false) (h : step s = .next t) :
    ∃ m, step (s.withSinceTick n) = .next (t.withSinceTick m) := by
  obtain ⟨m, hm⟩ := HostAgent.beginCycle_withSince (tTick s.clock) s.cycle.calls hdrop n
  have hb : (s.withSinceTick n).beginCycle = s.beginCycle.withSinceTick m :=
    congrArg (fun h => ({ s with host := h } : State)) hm
  rcases hrst : s.pins.rst with _ | _
  · obtain ⟨s₁, h₁, -⟩ := hostPart_cases s.beginCycle
    obtain ⟨s₂, h₂, -⟩ := sequencerPart_cases s.regs.state s₁ (hostPart_state (s := s.beginCycle) h₁)
    rw [step_run hrst h₁ h₂] at h
    cases h
    obtain ⟨k, hk⟩ := endCycle_withSinceTick m s₂
    have h₁' : hostPart (s.withSinceTick n).beginCycle = .next (s₁.withSinceTick m) := by
      rw [hb]
      exact hostPart_withSinceTick h₁
    exact ⟨k, by rw [step_run (s := s.withSinceTick n) hrst h₁' (sequencerPart_withSinceTick h₂), hk]⟩
  · rw [step_reset hrst] at h
    cases h
    obtain ⟨k, hk⟩ := endCycle_withSinceTick m (resetEdge s.beginCycle)
    exact ⟨k, by rw [step_reset (s := s.withSinceTick n) hrst, hb, resetEdge_withSinceTick, hk]⟩

end

/-- Settles O56: a free host starts its poll at a tick, and one that drops its ticks reads its timer's count in no other
place. -/
theorem tickInFlightIsDropped : Obligations.TickInFlightIsDropped := by
  refine ⟨tTick_bounds, fun s hl ha hd => ?_, fun s n hdrop => ?_⟩
  · obtain ⟨t, ht, harmed, hdue, hnot⟩ := step_timer hl ha hd
    refine ⟨t, ht, harmed, hdue, hnot, fun hf hp => ?_, hostWord_without_tick hl hd⟩
    obtain ⟨hword, t', ht', htick⟩ := step_tick hl ha hd hf hp
    obtain rfl : t = t' := by rw [ht] at ht'; cases ht'; rfl
    exact ⟨hword, htick⟩
  · obtain ⟨t, ht, -⟩ := step_effect s
    obtain ⟨m, hm⟩ := step_withSinceTick (n := n) hdrop ht
    exact ⟨t, m, ht, hm⟩

end Sys2Proof.Machine
end
